-- ==== Sys2Proof/Word.lean ====
section
/-! DEFINITION. The words of the machine: carrier values, operand fields, command and response words (00_scope R7, R11; 30_encoding R90, R93). -/

namespace Sys2Proof

/-- A value of the hardware's carrier `NUM_F32`: an IEEE 754 binary32 pattern (00_scope R7). -/
abbrev F32 := BitVec 32

/-- A 32-bit operand or result field (30_encoding R90, R93). -/
abbrev Word32 := BitVec 32

/-- A command word `CW` (30_encoding R90) or a response word `RW` (R93). -/
abbrev Word72 := BitVec 72

/-- `{x, a, b}`: an 8-bit field above two 32-bit fields, the shape of both words (R11, R90, R93). -/
def packWord (x : BitVec 8) (a b : Word32) : Word72 := x ++ a ++ b

end Sys2Proof
end

