-- ==== Sys2Proof/Syntax.lean ====
section
/-! DEFINITION. The syntax of ACC v1: ports, channels, parameters, the raw command of format `C`, and the fifteen commands (30_encoding R90, R95; 00_scope R14). -/

namespace Sys2Proof

/-- The two command ports of the CORE (00_scope R14). -/
inductive Port where
  /-- the document's real-time thread -/
  | audio
  /-- the document's UI thread -/
  | ctrl
  deriving DecidableEq, Repr, Inhabited

/-- The two audio channels, `NCH = 2`: left is channel 0, right is channel 1 (00_scope R5). -/
inductive Channel where
  | left
  | right
  deriving DecidableEq, Repr

/-- The six parameter registers, in the order of their register numbers (10_state R30). -/
inductive Param where
  | dryWet
  | feedback
  | depth
  | rate
  | phase
  | type
  deriving DecidableEq, Repr

/-- A command word split into its three fields: format `C`, the only format (30_encoding R90). -/
structure Command where
  /-- `CW[71:64]` -/
  op : BitVec 8
  /-- `CW[63:32]` -/
  a : Word32
  /-- `CW[31:0]` -/
  b : Word32
  deriving DecidableEq, Repr

/-- The commands of ACC v1, one constructor per row of the opcode table, in its order (30_encoding R95).
A field that must be zero (`MBZ`, R91) carries nothing and is not written here: it assembles to zero (R101). -/
inductive Instr where
  /-- `PREPARE sampleRate, blockSize` (45 R220) -/
  | prepare (sampleRate : F32) (blockSize : Word32)
  /-- `FRAME inL, inR` (45 R215) -/
  | frame (inL inR : F32)
  /-- `SET.DRYWET v` (40 R121) -/
  | setDryWet (v : F32)
  /-- `SET.FEEDBACK v` (40 R122) -/
  | setFeedback (v : F32)
  /-- `SET.DEPTH v` (40 R123) -/
  | setDepth (v : F32)
  /-- `SET.RATE v` (40 R124) -/
  | setRate (v : F32)
  /-- `SET.PHASE v` (40 R125) -/
  | setPhase (v : F32)
  /-- `SET.TYPE n` (40 R126) -/
  | setType (n : Word32)
  /-- `GET.DRYWET` (40 R128) -/
  | getDryWet
  /-- `GET.FEEDBACK` (40 R129) -/
  | getFeedback
  /-- `GET.DEPTH` (40 R130) -/
  | getDepth
  /-- `GET.RATE` (40 R131) -/
  | getRate
  /-- `GET.PHASE` (40 R132) -/
  | getPhase
  /-- `GET.TYPE` (40 R133) -/
  | getType
  /-- `GETST` (40 R134) -/
  | getst
  deriving DecidableEq, Repr

end Sys2Proof
end

