-- ==== Sys2Proof/Config.lean ====
section
/-! DEFINITION. What an implementation fixes (00_scope R5) and the free values the spec leaves open (93 U1, U3, U10). -/

namespace Sys2Proof

/-- The open parameters of the hardware, the model's arguments (00_scope R5, 93 U12). -/
structure Config where
  /-- `MAXD`, `maxDelaySeconds`: a finite positive carrier value -/
  maxd : F32
  /-- `RAM_DEPTH`, physical words per delay RAM -/
  ramDepth : Nat
  deriving DecidableEq, Repr

/-- The default configuration: `MAXD = lit(2) = 0x40000000`, `RAM_DEPTH = 2^19` (00_scope R5, R10). -/
def Config.default : Config where
  maxd := 0x40000000#32
  ramDepth := 524288

/-- `AW = ceil(log2(RAM_DEPTH))`, the bits of the write cursor (00_scope R5). -/
def Config.addrBits (cfg : Config) : Nat :=
  if cfg.ramDepth ≤ 1 then 0 else Nat.log2 (cfg.ramDepth - 1) + 1

/-- What distinguishes one NaN encoding from another: the sign bit, and the fraction field less one (the fraction of
a NaN is any of the 2^23 - 1 values other than zero, 93 U3). -/
abbrev NanBits := Bool × Fin 8388607

/-- FREE VALUE (93 U3, log 3): the sign and payload of the NaN that the `n`-th draw produces. -/
opaque Config.nanDraw : Nat → NanBits

/-- FREE VALUE (00_scope R9, 93 U1, log 4): the implementation's sine of a finite operand other than zero.
`fsin32` limits what is used of it to property P2. -/
opaque Config.sinRaw : F32 → F32

/-- FREE VALUE (00_scope R9 P3 and P4, log 4): which NaN the sine answers for a non-finite operand; a function of
the operand alone. -/
opaque Config.sinNan : F32 → NanBits

/-- FREE VALUE (00_scope R14, 20_memory R69 c, 93 U10, log 6): the port that is served next when both have a command
waiting, at the `n`-th choice. -/
opaque Config.arbiter : Nat → Port

end Sys2Proof
end

