-- ==== Sys2Proof/Machine/Float.lean ====
section
/-! DEFINITION. `NUM_F32`: IEEE 754 binary32 arithmetic, round to nearest, ties to even, computed exactly on integers and narrowed once (00_scope R7, R9, R10).

Every finite value is an integer multiple of `2^-149`, the smallest subnormal. `value` is that integer; the operations
compute on it exactly, and `roundMag` is the one place where a result is rounded. -/

namespace Sys2Proof.Machine

/-- The sign, bit 31 (00_scope R7). -/
def signBit (x : F32) : Bool := x.msb

/-- The exponent field, bits 30:23 (00_scope R7). -/
def expField (x : F32) : Nat := x.toNat / 2 ^ 23 % 256

/-- The fraction field, bits 22:0 (00_scope R7). -/
def fracField (x : F32) : Nat := x.toNat % 2 ^ 23

/-- `isfin(a)`: the exponent field is not `0xFF` (00_scope R7). -/
def isFin (x : F32) : Bool := expField x != 255

/-- A NaN: exponent field `0xFF`, fraction not zero (00_scope R7). -/
def isNan (x : F32) : Bool := expField x == 255 && fracField x != 0

/-- An infinity: exponent field `0xFF`, fraction zero (00_scope R7). -/
def isInf (x : F32) : Bool := expField x == 255 && fracField x == 0

/-- The magnitude of a pattern in multiples of `2^-149`: the fraction itself when the exponent field is 0 (zero and the
subnormals), else the 24-bit significand scaled by the exponent (00_scope R7). For an infinity this is a number above
the magnitude of every finite value, as the order of the carrier has it. -/
def units (x : F32) : Nat :=
  if expField x = 0 then fracField x else (2 ^ 23 + fracField x) * 2 ^ (expField x - 1)

/-- The signed value of a pattern in multiples of `2^-149`; both zeros are 0. -/
def value (x : F32) : Int := if signBit x then -(units x : Int) else units x

/-- The 31 bits below the sign that encode infinity. -/
def infMag : Nat := 0x7F800000

/-- A pattern from its sign and the 31 bits below it. -/
def packSign (sign : Bool) (mag : Nat) : F32 := BitVec.ofNat 32 (mag + if sign then 2 ^ 31 else 0)

/-- The integer nearest to `num / den`, ties to even. -/
def divNearestEven (num den : Nat) : Nat :=
  let q := num / den
  let r := num % den
  if 2 * r < den then q else if den < 2 * r then q + 1 else q + q % 2

/-- The 31 magnitude bits of the binary32 value nearest to `num / den` multiples of `2^-149`, ties to even; a result
past the largest finite value is infinity, a subnormal result is kept (00_scope R7). The exponent is chosen so that the
significand has 24 bits, or fewer in the lowest binade: `k` is how far the unit in the last place lies above `2^-149`. -/
def roundMag (num den : Nat) : Nat :=
  let k := Nat.log2 (num / den) - 23
  min (k * 2 ^ 23 + divNearestEven num (den * 2 ^ k)) infMag

/-- The NaN with a given sign and fraction (00_scope R7, 93 U3). -/
def nanOf (p : NanBits) : F32 := packSign p.1 (infMag + (p.2.val + 1))

/-- The NaN that the `n`-th draw produces: any NaN encoding (00_scope R7, 93 U3, log 3). -/
def nanDrawn (n : Nat) : F32 := nanOf (Config.nanDraw n)

/-- The value with the opposite sign. -/
def neg32 (x : F32) : F32 := x ^^^ 0x80000000#32

/-- `fadd(a, b)` (00_scope R7); `n` numbers the draw of a NaN result. The sign of an exact zero sum is that of both
operands if they agree, else plus (93 U17). -/
def fadd32 (n : Nat) (a b : F32) : F32 :=
  if isNan a || isNan b then nanDrawn n
  else if isInf a then (if isInf b && signBit a != signBit b then nanDrawn n else a)
  else if isInf b then b
  else
    let v := value a + value b
    if v = 0 then packSign (signBit a && signBit b) 0
    else packSign (decide (v < 0)) (roundMag v.natAbs 1)

/-- `fsub(a, b)`: the sum of `a` and `b` with its sign changed (00_scope R7). -/
def fsub32 (n : Nat) (a b : F32) : F32 := fadd32 n a (neg32 b)

/-- `fmul(a, b)` (00_scope R7). `0 * inf` is invalid; the sign of the result is the exclusive-or of the signs (93 U17). -/
def fmul32 (n : Nat) (a b : F32) : F32 :=
  let sign := signBit a != signBit b
  if isNan a || isNan b then nanDrawn n
  else if isInf a || isInf b then (if units a = 0 || units b = 0 then nanDrawn n else packSign sign infMag)
  else packSign sign (roundMag (units a * units b) (2 ^ 149))

/-- `fdiv(a, b)` (00_scope R7). `0/0` and `inf/inf` are invalid; any other value over zero is an infinity (log 13). -/
def fdiv32 (n : Nat) (a b : F32) : F32 :=
  let sign := signBit a != signBit b
  if isNan a || isNan b then nanDrawn n
  else if isInf a then (if isInf b then nanDrawn n else packSign sign infMag)
  else if isInf b then packSign sign 0
  else if units b = 0 then (if units a = 0 then nanDrawn n else packSign sign infMag)
  else packSign sign (roundMag (units a * 2 ^ 149) (units b))

/-- `flt(a, b)`: ordered `a < b`; false for a NaN operand, and the zeros are equal (00_scope R7). -/
def flt32 (a b : F32) : Bool := !isNan a && !isNan b && decide (value a < value b)

/-- `fle(a, b)`: ordered `a <= b` (00_scope R7). -/
def fle32 (a b : F32) : Bool := !isNan a && !isNan b && decide (value a ≤ value b)

/-- `fge(a, b)`: ordered `a >= b` (00_scope R7). -/
def fge32 (a b : F32) : Bool := fle32 b a

/-- `fgt(a, b)`: ordered `a > b` (00_scope R7). -/
def fgt32 (a b : F32) : Bool := flt32 b a

/-- `i2f(n)`: the value nearest to the natural number `n`; exact for `n <= 2^24` (00_scope R7). -/
def i2f32 (n : Nat) : F32 := packSign false (roundMag (n * 2 ^ 149) 1)

/-- `lit(d)`: the value nearest to the decimal `d = num / den`, ties to even (00_scope R7).
DESIGN CHOICE (log 24): both zeros are nearest to a decimal that rounds to zero, and R7 does not say which one `lit`
gives. Here it is `+0.0` for the decimal 0 (a decimal `-0` is no other pair `num`, `den`) and for a tiny positive
decimal, and `-0.0` for a tiny negative one. -/
def lit32 (num : Int) (den : Nat) : F32 := packSign (decide (num < 0)) (roundMag (num.natAbs * 2 ^ 149) den)

/-- `fin_idx(p, L)`: `p` is a number and `0 <= p < L` (00_scope R6), compared exactly. For `L <= 2^24` this is
`fge(p, lit(0)) and flt(p, i2f(L))` of R7, where `i2f(L)` is exact; the one `L` above that, `RAM_DEPTH + 1` at the
largest `RAM_DEPTH`, is compared as R6 says (log 19). -/
def finIdx32 (p : F32) (L : Nat) : Bool :=
  !isNan p && decide (0 ≤ value p) && decide (value p < (L : Int) * 2 ^ 149)

/-- `ffloor(p)`: the integer part, exact; used only where `fin_idx` holds (00_scope R6, R7). -/
def ffloor32 (p : F32) : Nat := units p / 2 ^ 149

/-- `TWO_PI = 0x40C90FDB` (00_scope R7, R10). -/
def twoPi32 : F32 := 0x40C90FDB#32

/-- `fsin(x)` for a given implementation: `raw` answers for finite operands other than zero and `nan` for non-finite
ones. The four properties of 00_scope R9 hold whatever they are: a zero is its own sine (P1); an answer of `raw` that
is not a finite number in `[-1, 1]` is not used (P2); a non-finite operand gives a NaN (P3); the operand alone decides (P4). -/
def fsinOf (raw : F32 → F32) (nan : F32 → NanBits) (x : F32) : F32 :=
  if !isFin x then nanOf (nan x)
  else if units x = 0 then x
  else if isFin (raw x) && fle32 (lit32 (-1) 1) (raw x) && fle32 (raw x) (lit32 1 1) then raw x
  else lit32 0 1

/-- `fsin(x)`: the implementation's sine, which the spec leaves open (00_scope R9, 93 U1, log 4). -/
def fsin32 (x : F32) : F32 := fsinOf Config.sinRaw Config.sinNan x

end Sys2Proof.Machine
end

