-- ==== Sys2Proof/Machine/Carrier.lean ====
section
/-! DEFINITION. The numeric interface that every datapath formula is written against, its hardware instance, and the named constants (00_scope R6, R7, R10). -/

namespace Sys2Proof.Machine

/-- The interface of the carrier (00_scope R6). An arithmetic operation takes first the number of the draw that says
which NaN it produces, should it produce one (93 U3); `lit num den` is the decimal `num / den`. The payload functions
`dec32` and `enc32` stand with the operand forms. -/
structure Carrier (F : Type) where
  lit : Int → Nat → F
  fadd : Nat → F → F → F
  fsub : Nat → F → F → F
  fmul : Nat → F → F → F
  fdiv : Nat → F → F → F
  flt : F → F → Bool
  fle : F → F → Bool
  fge : F → F → Bool
  fgt : F → F → Bool
  i2f : Nat → F
  finIdx : F → Nat → Bool
  isfin : F → Bool
  ffloor : F → Nat
  fsin : F → F
  twoPi : F

/-- `NUM_F32` with a given sine (00_scope R7, R9). -/
def Carrier.f32With (sine : F32 → F32) : Carrier F32 where
  lit := lit32
  fadd := fadd32
  fsub := fsub32
  fmul := fmul32
  fdiv := fdiv32
  flt := flt32
  fle := fle32
  fge := fge32
  fgt := fgt32
  i2f := i2f32
  finIdx := finIdx32
  isfin := isFin
  ffloor := ffloor32
  fsin := sine
  twoPi := twoPi32

/-- `NUM_F32`, the hardware's carrier (00_scope R7), with the implementation's sine (R9). -/
def Carrier.f32 : Carrier F32 := Carrier.f32With fsin32

variable {F : Type} (C : Carrier F)

/-- `ONE` (00_scope R10). -/
def Carrier.one : F := C.lit 1 1

/-- `ZERO` (00_scope R10). -/
def Carrier.zero : F := C.lit 0 1

/-- `LO_IN`, the decimal -1 (00_scope R10). -/
def Carrier.loIn : F := C.lit (-1) 1

/-- `HI_IN`, the decimal 1 (00_scope R10). -/
def Carrier.hiIn : F := C.lit 1 1

/-- `RATE_MIN`, the decimal 0.1 (00_scope R10). -/
def Carrier.rateMin : F := C.lit 1 10

/-- `RATE_MAX`, the decimal 20 (00_scope R10). -/
def Carrier.rateMax : F := C.lit 20 1

end Sys2Proof.Machine
end

