-- ==== Sys2Proof/Machine/DelayBuffer.lean ====
section
/-! DEFINITION. The circular delay buffer and the fractional delay reader as functions over any carrier (41_delay_buffer R150 to R158). The RAM primitives they use stand in Ops. -/

namespace Sys2Proof.Machine

variable {F : Type} (C : Carrier F)

/-- `READPOS(d)` (41 R151): the write cursor less the delay, with one conditional addition of `LEN`. Draws `n`, `n + 1`. -/
def readPos (n : Nat) (wh len : Nat) (d : F) : F :=
  let t := C.fsub n (C.i2f wh) d
  if C.flt t C.zero then C.fadd (n + 1) t (C.i2f len) else t

/-- `RANGEOK(pos)` (41 R154): the position is a number in `[0, LEN)`. -/
def rangeOk (len : Nat) (pos : F) : Bool := C.finIdx pos len

/-- The lower index of an interpolated read, `x0 = ffloor(pos)` (41 R152). -/
def lowerIndex (pos : F) : Nat := C.ffloor pos

/-- An index moved up by one around the ring of `len` words: `x1` of INTERP, and `ADVANCE` of the write cursor
(41 R152, R153). -/
def nextIndex (len i : Nat) : Nat := if i + 1 = len then 0 else i + 1

/-- `ADVANCE()` (41 R153): the new write cursor. -/
def advance (wh len : Nat) : Nat := nextIndex len wh

/-- The blend of two neighbouring words by the fraction of the position (41 R152, the expression tree). Draws `n` to
`n + 3`. -/
def blend (n : Nat) (frac s0 s1 : F) : F :=
  let w0 := C.fsub n C.one frac
  let p0 := C.fmul (n + 1) w0 s0
  let p1 := C.fmul (n + 2) frac s1
  C.fadd (n + 3) p0 p1

/-- `INTERP(c, pos)` (41 R152), for a position that passed `RANGEOK`; `read` reads a word of the channel's RAM and
answers nothing where no word exists. Draws `n` to `n + 4`. -/
def interp (n : Nat) (len : Nat) (read : Nat → Option F) (pos : F) : Option F :=
  let x0 := lowerIndex C pos
  let x1 := nextIndex len x0
  let frac := C.fsub n pos (C.i2f x0)
  match read x0, read x1 with
  | some s0, some s1 => some (blend C (n + 1) frac s0 s1)
  | _, _ => none

/-- The outcome of `DELAYED` (41 R158). -/
inductive Delayed (F : Type) where
  /-- the position is out of range: `E_RANGE` -/
  | outOfRange
  /-- a RAM word that does not exist; never with a write cursor below `LEN` -/
  | noWord
  /-- the interpolated sample -/
  | sample (y : F)
  deriving DecidableEq, Repr

/-- `DELAYED(c, d)` (41 R158): the whole fractional delay reader of one channel. FRAME makes the range checks of both
channels first and then interpolates (45 R215), by the same functions. Draws `n` to `n + 6`. -/
def delayed (n : Nat) (wh len : Nat) (read : Nat → Option F) (d : F) : Delayed F :=
  let pos := readPos C n wh len d
  if rangeOk C len pos then
    match interp C (n + 2) len read pos with
    | some y => .sample y
    | none => .noWord
  else .outOfRange

end Sys2Proof.Machine
end

