-- ==== Sys2Proof/Machine/Lfo.lean ====
section
/-! DEFINITION. The LFO phase accumulator with stereo offset, as functions over any carrier (42_lfo R170 to R176). -/

namespace Sys2Proof.Machine

variable {F : Type} (C : Carrier F)

/-- `LFOWAVE(p)` (42 R170): the sine of `2*pi` times the phase, the product rounded first. Draw `n`. -/
def lfoWave (n : Nat) (p : F) : F := C.fsin (C.fmul n C.twoPi p)

/-- `LFO_L()` (42 R171): the left oscillator value, at the phase before it advances. Draw `n`. -/
def lfoLeft (n : Nat) (phase : F) : F := lfoWave C n phase

/-- `RPHASE(po)` (42 R172): phase plus offset, one conditional subtraction of 1 when the sum is at least 1.
Draws `n`, `n + 1`. -/
def rightPhase (n : Nat) (phase po : F) : F :=
  let s := C.fadd n phase po
  if C.fge s C.one then C.fsub (n + 1) s C.one else s

/-- `LFO_R(po)` (42 R173): the right oscillator value, from the same phase register. Draws `n` to `n + 2`. -/
def lfoRight (n : Nat) (phase po : F) : F := lfoWave C n (rightPhase C (n + 1) phase po)

/-- `PHASEADV(rt)` (42 R174): the next phase; one conditional subtraction of 1 when the sum EXCEEDS 1, so that 1 itself
is kept (90 C1). Draws `n` to `n + 2`. -/
def phaseAdv (n : Nat) (phase sr rt : F) : F :=
  let inc := C.fdiv n rt sr
  let next := C.fadd (n + 1) phase inc
  if C.fgt next C.one then C.fsub (n + 2) next C.one else next

/-- `DEPTHSCALE(x, dp)` (42 R175). Draw `n`. -/
def depthScale (n : Nat) (x dp : F) : F := C.fmul n x dp

/-- `LFOSTEP(dp, rt, po)` (42 R176): the scaled left and right values, both at the old phase, and the new phase. The
left channel draws from `nL`, the right from `nR`, the accumulator from `nP`. -/
def lfoStep (nL nR nP : Nat) (phase sr dp rt po : F) : F × F × F :=
  (depthScale C (nL + 3) (lfoLeft C nL phase) dp,
   depthScale C (nR + 3) (lfoRight C nR phase po) dp,
   phaseAdv C nP phase sr rt)

end Sys2Proof.Machine
end

