-- ==== Sys2Proof/Machine/Mapper.lean ====
section
/-! DEFINITION. The linear delay-time mapper, as functions over any carrier (43_delay_time_mapper R185 to R187). -/

namespace Sys2Proof.Machine

variable {F : Type} (C : Carrier F)

/-- `RANGE(ty)` (43 R185): the bounds of the output range in seconds, low and high. -/
def rangeOfType (ty : BitVec 2) : F × F :=
  if ty = 0 then (C.lit 5 1000, C.lit 3 100)
  else if ty = 1 then (C.lit 1 1000, C.lit 5 1000)
  else if ty = 2 then (C.lit 3 100, C.lit 1 10)
  else (C.lit 1 10, C.lit 1 1)

/-- `MAP(v, ty)` (43 R186): the linear remap from `[-1, 1]`, product first, then the division. Draws `n` to `n + 5`. -/
def mapDelay (n : Nat) (v : F) (ty : BitVec 2) : F :=
  let lo := (rangeOfType C ty).1
  let hi := (rangeOfType C ty).2
  let t1 := C.fsub n v C.loIn
  let t2 := C.fsub (n + 1) hi lo
  let t3 := C.fmul (n + 2) t1 t2
  let t4 := C.fsub (n + 3) C.hiIn C.loIn
  let t5 := C.fdiv (n + 4) t3 t4
  C.fadd (n + 5) lo t5

/-- `DELAYSAMPLES(v, ty)` (43 R187): the delay in samples, not rounded to an integer. Draws `n` to `n + 6`. -/
def delaySamples (n : Nat) (v : F) (ty : BitVec 2) (sr : F) : F := C.fmul (n + 6) (mapDelay C n v ty) sr

end Sys2Proof.Machine
end

