-- ==== Sys2Proof/Machine/Mix.lean ====
section
/-! DEFINITION. The feedback mixer and the dry/wet blender, as functions over any carrier (44_feedback_mix R200 to R202). -/

namespace Sys2Proof.Machine

variable {F : Type} (C : Carrier F)

/-- `WRITEVAL(c, in)` (44 R200): input plus the channel's stored feedback. Draw `n`. -/
def writeVal (n : Nat) (inp fb : F) : F := C.fadd n inp fb

/-- `MIX(in, delayed, dw)` (44 R201): the output sample. Draws `n` to `n + 3`. -/
def mix (n : Nat) (inp delayed dw : F) : F :=
  let g := C.fsub n C.one dw
  let p0 := C.fmul (n + 1) inp g
  let p1 := C.fmul (n + 2) delayed dw
  C.fadd (n + 3) p0 p1

/-- `FBUPDATE(c, delayed, fb)` (44 R202): the new feedback value of the channel. Draw `n`. -/
def fbUpdate (n : Nat) (delayed fb : F) : F := C.fmul n delayed fb

end Sys2Proof.Machine
end

