-- ==== Sys2Proof/WellFormed.lean ====
section
/-! DEFINITION. Which raw commands are commands of ACC v1 (30_encoding R91, R95, R96, R98). -/

namespace Sys2Proof

/-- Whether an opcode byte is one of the fifteen, by its group `op[7:4]` and number `op[3:0]` (30_encoding R96). -/
def opcodeKnown (op : BitVec 8) : Bool :=
  let group := op.extractLsb' 4 4
  let num := op.extractLsb' 0 4
  if group = 0x0 then num = 1 || num = 2
  else if group = 0x1 || group = 0x2 then num ≤ 5
  else if group = 0x3 then num = 0
  else false

/-- Field `a` must be zero in the groups GET and GETST (30_encoding R95, R91). -/
def mustBeZeroA (op : BitVec 8) : Bool :=
  op.extractLsb' 4 4 = 0x2 || op.extractLsb' 4 4 = 0x3

/-- Field `b` must be zero in the groups SET, GET and GETST (30_encoding R95, R91). -/
def mustBeZeroB (op : BitVec 8) : Bool :=
  op.extractLsb' 4 4 = 0x1 || mustBeZeroA op

/-- A raw command is well formed when its opcode is one of the fifteen and its `MBZ` fields are zero.
Everything else is illegal (30_encoding R98); an operand VALUE out of range is not. -/
def Command.wellFormed (c : Command) : Bool :=
  opcodeKnown c.op && (!mustBeZeroA c.op || c.a = 0#32) && (!mustBeZeroB c.op || c.b = 0#32)

end Sys2Proof
end

