-- ==== Sys2Proof/Decode.lean ====
section
/-! DEFINITION. Decoding and encoding of command words, and the opcode table as masks and matches (30_encoding R90, R95 to R100). -/

namespace Sys2Proof

/-- `op = CW[71:64]` (30_encoding R90). -/
def opField (cw : Word72) : BitVec 8 := cw.extractLsb' 64 8

/-- `a = CW[63:32]` (30_encoding R90). -/
def aField (cw : Word72) : Word32 := cw.extractLsb' 32 32

/-- `b = CW[31:0]` (30_encoding R90). -/
def bField (cw : Word72) : Word32 := cw.extractLsb' 0 32

/-- A command word split into its fields (30_encoding R90). -/
def splitWord (cw : Word72) : Command := ⟨opField cw, aField cw, bField cw⟩

/-- Why a word is illegal (30_encoding R98). All three are answered alike, with `E_ILLEGAL` (60 R253). -/
inductive DecodeError where
  /-- the opcode byte is none of the fifteen -/
  | unknownOpcode
  /-- the field `a` must be zero and is not -/
  | nonZeroA
  /-- the field `b` must be zero and is not -/
  | nonZeroB
  deriving DecidableEq, Repr

/-- A command whose `MBZ` field `b` is checked (30_encoding R100, the SET arm). -/
def checkB (b : Word32) (i : Instr) : Except DecodeError Instr :=
  if b = 0#32 then .ok i else .error .nonZeroB

/-- A command whose two fields are both `MBZ` (30_encoding R100, the GET and GETST arms). -/
def checkAB (a b : Word32) (i : Instr) : Except DecodeError Instr :=
  if a = 0#32 then checkB b i else .error .nonZeroA

/-- The opcode byte of `SET` of a parameter, `0x10 + i` (30_encoding R95). -/
def opSet : Param → BitVec 8
  | .dryWet => 0x10
  | .feedback => 0x11
  | .depth => 0x12
  | .rate => 0x13
  | .phase => 0x14
  | .type => 0x15

/-- The opcode byte of `PREPARE` (30_encoding R95). -/
def opPrepare : BitVec 8 := 0x01

/-- The opcode byte of `FRAME` (30_encoding R95). -/
def opFrame : BitVec 8 := 0x02

/-- The decode procedure on the fields of a word, total (30_encoding R100). -/
def decodeFields (op : BitVec 8) (a b : Word32) : Except DecodeError Instr :=
  match op.toNat with
  | 0x01 => .ok (.prepare a b)
  | 0x02 => .ok (.frame a b)
  | 0x10 => checkB b (.setDryWet a)
  | 0x11 => checkB b (.setFeedback a)
  | 0x12 => checkB b (.setDepth a)
  | 0x13 => checkB b (.setRate a)
  | 0x14 => checkB b (.setPhase a)
  | 0x15 => checkB b (.setType a)
  | 0x20 => checkAB a b .getDryWet
  | 0x21 => checkAB a b .getFeedback
  | 0x22 => checkAB a b .getDepth
  | 0x23 => checkAB a b .getRate
  | 0x24 => checkAB a b .getPhase
  | 0x25 => checkAB a b .getType
  | 0x30 => checkAB a b .getst
  | _ => .error .unknownOpcode

/-- `decode(CW)`, total on all `2^72` words (30_encoding R100). -/
def decode (cw : Word72) : Except DecodeError Instr :=
  decodeFields (opField cw) (aField cw) (bField cw)

/-- What the decoder reads from a word numbered as the opcode table numbers it: one 72-bit parallel word, bit 0 least
significant, with no byte order to apply (20_memory R64, 30_encoding R90). -/
def decodeTableWord (nbits w : Nat) : Option Instr :=
  match decode (BitVec.ofNat 72 (w % 2 ^ nbits)) with
  | .ok i => some i
  | .error _ => none

/-- The fields a command assembles to; `MBZ` fields are zero (30_encoding R95, R101). -/
def encodeFields : Instr → Command
  | .prepare sampleRate blockSize => ⟨0x01, sampleRate, blockSize⟩
  | .frame inL inR => ⟨0x02, inL, inR⟩
  | .setDryWet v => ⟨0x10, v, 0⟩
  | .setFeedback v => ⟨0x11, v, 0⟩
  | .setDepth v => ⟨0x12, v, 0⟩
  | .setRate v => ⟨0x13, v, 0⟩
  | .setPhase v => ⟨0x14, v, 0⟩
  | .setType n => ⟨0x15, n, 0⟩
  | .getDryWet => ⟨0x20, 0, 0⟩
  | .getFeedback => ⟨0x21, 0, 0⟩
  | .getDepth => ⟨0x22, 0, 0⟩
  | .getRate => ⟨0x23, 0, 0⟩
  | .getPhase => ⟨0x24, 0, 0⟩
  | .getType => ⟨0x25, 0, 0⟩
  | .getst => ⟨0x30, 0, 0⟩

/-- The command word of a command (30_encoding R90, R95). -/
def encode (i : Instr) : Word72 :=
  packWord (encodeFields i).op (encodeFields i).a (encodeFields i).b

/-- A row of the opcode table: a word is the row's command when `CW and mask = match` (30_encoding R97). -/
structure TableRow where
  mnemonic : String
  value : Word72
  mask : Word72
  deriving DecidableEq, Repr

/-- The row of the opcode table that a command belongs to, with its mask and match (30_encoding R97). -/
def rowOf : Instr → TableRow
  | .prepare _ _ => ⟨"PREPARE", 0x010000000000000000, 0xFF0000000000000000⟩
  | .frame _ _ => ⟨"FRAME", 0x020000000000000000, 0xFF0000000000000000⟩
  | .setDryWet _ => ⟨"SET.DRYWET", 0x100000000000000000, 0xFF00000000FFFFFFFF⟩
  | .setFeedback _ => ⟨"SET.FEEDBACK", 0x110000000000000000, 0xFF00000000FFFFFFFF⟩
  | .setDepth _ => ⟨"SET.DEPTH", 0x120000000000000000, 0xFF00000000FFFFFFFF⟩
  | .setRate _ => ⟨"SET.RATE", 0x130000000000000000, 0xFF00000000FFFFFFFF⟩
  | .setPhase _ => ⟨"SET.PHASE", 0x140000000000000000, 0xFF00000000FFFFFFFF⟩
  | .setType _ => ⟨"SET.TYPE", 0x150000000000000000, 0xFF00000000FFFFFFFF⟩
  | .getDryWet => ⟨"GET.DRYWET", 0x200000000000000000, 0xFFFFFFFFFFFFFFFFFF⟩
  | .getFeedback => ⟨"GET.FEEDBACK", 0x210000000000000000, 0xFFFFFFFFFFFFFFFFFF⟩
  | .getDepth => ⟨"GET.DEPTH", 0x220000000000000000, 0xFFFFFFFFFFFFFFFFFF⟩
  | .getRate => ⟨"GET.RATE", 0x230000000000000000, 0xFFFFFFFFFFFFFFFFFF⟩
  | .getPhase => ⟨"GET.PHASE", 0x240000000000000000, 0xFFFFFFFFFFFFFFFFFF⟩
  | .getType => ⟨"GET.TYPE", 0x250000000000000000, 0xFFFFFFFFFFFFFFFFFF⟩
  | .getst => ⟨"GETST", 0x300000000000000000, 0xFFFFFFFFFFFFFFFFFF⟩

/-- The opcode table, its fifteen rows in order (30_encoding R95, R97). -/
def opcodeTable : List TableRow :=
  [rowOf (.prepare 0 0), rowOf (.frame 0 0), rowOf (.setDryWet 0), rowOf (.setFeedback 0), rowOf (.setDepth 0),
   rowOf (.setRate 0), rowOf (.setPhase 0), rowOf (.setType 0), rowOf .getDryWet, rowOf .getFeedback, rowOf .getDepth,
   rowOf .getRate, rowOf .getPhase, rowOf .getType, rowOf .getst]

/-- `CW` is the command of a row (30_encoding R97). -/
def TableRow.matches (r : TableRow) (cw : Word72) : Bool := cw &&& r.mask = r.value

end Sys2Proof
end

