-- ==== Sys2Proof/Machine/State.lean ====
section
/-! DEFINITION. The state of the CORE, all of it (10_state R20), the ports and the reset pin around it (00_scope R14, 70 R290), the model's free-value counters, and the state after hardware reset (10_state R45). -/

namespace Sys2Proof.Machine

/-- Why a step of the model can stop. None of the spec's own faults is here: each of those is a refusal, which leaves
the CORE ready for the next command (60_exceptions R250), so it is a next state. -/
inductive Fault where
  /-- A RAM word that does not exist was accessed (index `LEN` or above, 20_memory R61). Raised by FRAME alone, and only
  in a state with `WH` at or above `LEN` while `ST` is not `UNPREPARED`, which no run reaches (10_state R46 I-b).
  SAFE: the model stops where the spec defines nothing. -/
  | noSuchWord
  deriving DecidableEq, Repr

/-- Why the model has no meaning for a command. -/
inductive Refusal where
  /-- The command has no meaning in the model yet. Raised by an arm of `exec` alone; no arm raises it now. SAFE. -/
  | notModelled (mnemonic : String)
  deriving DecidableEq, Repr

/-- The lifecycle state `ST` (10_state R26); its fourth code is never taken (93 U15). -/
inductive Lifecycle where
  | unprepared
  | prepared
  | processing
  deriving DecidableEq, Repr

/-- The five faults of the spec, each the cause of a refusal (60_exceptions R251). -/
inductive ErrorCode where
  /-- `E_ILLEGAL` -/
  | illegal
  /-- `E_UNPREP` -/
  | unprep
  /-- `E_PARAM` -/
  | param
  /-- `E_RANGE` -/
  | range
  /-- `E_CAPACITY` -/
  | capacity
  deriving DecidableEq, Repr

/-- `FLAGS`, the five sticky fault flags, bits 4 to 8 of `STATUS` (10_state R27, R39). -/
structure Flags where
  /-- `F_ILLEGAL`, bit 4 -/
  illegal : Bool
  /-- `F_UNPREP`, bit 5 -/
  unprep : Bool
  /-- `F_PARAM`, bit 6 -/
  param : Bool
  /-- `F_RANGE`, bit 7 -/
  range : Bool
  /-- `F_CAPACITY`, bit 8 -/
  capacity : Bool
  deriving DecidableEq, Repr

/-- A delay RAM: pairs of an index and the word there, indices strictly rising, listing only words that differ from
`+0.0`. A word below `LEN` that is not listed reads `+0.0`, which is what the PREPARE that made it reachable left there
(41_delay_buffer R157); a word at `LEN` or above is unreachable and is not represented (10_state R40, 70 R292, log 2). -/
abbrev Memory := List (Nat × F32)

/-- The state: the tuple of 10_state R20, the configuration (00_scope R5), and the model's own fields for the ports,
the reset pin and the free values. -/
structure State where
  /-- the open parameters; constant while the machine runs (00_scope R5) -/
  cfg : Config
  /-- `PHASE`, the LFO phase of the left channel, in turns (10_state R21) -/
  phase : F32
  /-- `FBL`, feedback of the left channel (10_state R22) -/
  fbL : F32
  /-- `FBR`, feedback of the right channel (10_state R22) -/
  fbR : F32
  /-- `WH`, the write cursor both channels share (10_state R23) -/
  wh : Nat
  /-- `ST`, the lifecycle state (10_state R26) -/
  st : Lifecycle
  /-- `P_DRYWET`, parameter register 0 (10_state R31) -/
  pDryWet : F32
  /-- `P_FEEDBACK`, parameter register 1 (10_state R32) -/
  pFeedback : F32
  /-- `P_DEPTH`, parameter register 2 (10_state R33) -/
  pDepth : F32
  /-- `P_RATE`, parameter register 3 (10_state R34) -/
  pRate : F32
  /-- `P_PHASE`, parameter register 4 (10_state R35) -/
  pPhase : F32
  /-- `P_TYPE`, parameter register 5 (10_state R36) -/
  pType : BitVec 2
  /-- `SR`, the sample rate of the latest PREPARE (10_state R37) -/
  sr : F32
  /-- `LEN`, the buffer length in words; 0 means not yet fixed (10_state R38) -/
  len : Nat
  /-- `FLAGS` (10_state R27) -/
  flags : Flags
  /-- `BUFL`, the left delay RAM (10_state R40) -/
  bufL : Memory
  /-- `BUFR`, the right delay RAM (10_state R40) -/
  bufR : Memory
  /-- commands waiting on the `AUDIO` port, oldest first (00_scope R14) -/
  audioIn : List Word72
  /-- commands waiting on the `CTRL` port, oldest first (00_scope R14) -/
  ctrlIn : List Word72
  /-- responses sent on the `AUDIO` port, oldest first (30_encoding R93) -/
  audioOut : List Word72
  /-- responses sent on the `CTRL` port, oldest first (30_encoding R93) -/
  ctrlOut : List Word72
  /-- the port served next when both have a command waiting (20_memory R69 c, log 6) -/
  turn : Port
  /-- how many times `turn` was drawn (log 6) -/
  grants : Nat
  /-- the port the command in execution came from (00_scope R13) -/
  port : Port
  /-- hardware reset is requested (70 R290, log 9) -/
  resetPin : Bool
  /-- where the draws of NaN patterns of the next command begin (93 U3, log 3) -/
  nanDraws : Nat
  deriving DecidableEq, Repr

/-- No flag set (10_state R45). -/
def Flags.none : Flags := ⟨false, false, false, false, false⟩

/-- The state after hardware reset, the column of 10_state R45 (70 R290), in the default configuration (00_scope R5),
with nothing waiting on a port and nothing sent. With `LEN = 0` no RAM word is represented (70 R292). -/
def State.reset : State where
  cfg := Config.default
  phase := 0
  fbL := 0
  fbR := 0
  wh := 0
  st := .unprepared
  pDryWet := 0x3F000000
  pFeedback := 0x3F000000
  pDepth := 0x3F000000
  pRate := 0x41200000
  pPhase := 0
  pType := 0
  sr := 0
  len := 0
  flags := Flags.none
  bufL := []
  bufR := []
  audioIn := []
  ctrlIn := []
  audioOut := []
  ctrlOut := []
  turn := .audio
  grants := 0
  port := .audio
  resetPin := false
  nanDraws := 0

end Sys2Proof.Machine
end

