-- ==== Sys2Proof/Machine/Flags.lean ====
section
/-! DEFINITION. The sticky fault flags, the fault codes and the `STATUS` view (10_state R27, R39; 30_encoding R94; 60_exceptions R251). The datapath has no condition codes (R27), so this is every flag there is. -/

namespace Sys2Proof.Machine

/-- The response code of a fault (30_encoding R94, 60_exceptions R251). -/
def ErrorCode.code : ErrorCode → BitVec 8
  | .illegal => 0x01
  | .unprep => 0x02
  | .param => 0x03
  | .range => 0x04
  | .capacity => 0x05

/-- The sticky flag of a fault (10_state R39). -/
def Flags.get (f : Flags) : ErrorCode → Bool
  | .illegal => f.illegal
  | .unprep => f.unprep
  | .param => f.param
  | .range => f.range
  | .capacity => f.capacity

/-- The flags with the flag of one fault set to 1 (60_exceptions R250 b). -/
def Flags.set (f : Flags) : ErrorCode → Flags
  | .illegal => { f with illegal := true }
  | .unprep => { f with unprep := true }
  | .param => { f with param := true }
  | .range => { f with range := true }
  | .capacity => { f with capacity := true }

/-- The two bits that encode `ST` (10_state R26). -/
def Lifecycle.code : Lifecycle → BitVec 2
  | .unprepared => 0
  | .prepared => 1
  | .processing => 2

/-- `STATUS`: 23 zero bits, `F_CAPACITY`, `F_RANGE`, `F_PARAM`, `F_UNPREP`, `F_ILLEGAL`, 2 zero bits, `ST`
(10_state R39, 40 R134). -/
def statusWord (f : Flags) (st : Lifecycle) : Word32 :=
  0#23 ++ BitVec.ofBool f.capacity ++ BitVec.ofBool f.range ++ BitVec.ofBool f.param ++ BitVec.ofBool f.unprep
    ++ BitVec.ofBool f.illegal ++ 0#2 ++ st.code

end Sys2Proof.Machine
end

