-- ==== Sys2Proof/Machine/Operands.lean ====
section
/-! DEFINITION. The operand and result forms of commands: `F32`, `U32`, `I32` and `MBZ` (30_encoding R91, 00_scope R7). -/

namespace Sys2Proof.Machine

/-- `dec32`: the carrier value of a payload field; the identity on the 32 bits (00_scope R7, 30_encoding R91 form `F32`). -/
def dec32 (w : Word32) : F32 := w

/-- `enc32`: the payload field of a carrier value; the identity on the 32 bits (00_scope R7). -/
def enc32 (v : F32) : Word32 := v

/-- Form `U32`: the field as an unsigned integer (30_encoding R91); used for `type`. -/
def asU32 (w : Word32) : Nat := w.toNat

/-- Form `I32`: the field as a two's-complement integer (30_encoding R91); used for `blockSize`, which no rule reads. -/
def asI32 (w : Word32) : Int := w.toInt

/-- Form `MBZ`: the field must be zero (30_encoding R91). -/
def mbzOk (w : Word32) : Bool := w = 0

/-- `zext_32` of a narrower field or of a number below `2^32` (00_scope R11). -/
def zext32 (n : Nat) : Word32 := BitVec.ofNat 32 n

end Sys2Proof.Machine
end

