-- ==== Sys2Proof/Machine/Ops.lean ====
section
/-! DEFINITION. The named operations over RAM, registers and ports: memory access (20_memory R62), parameter registers (10_state R30), responses (30_encoding R93), the refusal of a command (60_exceptions R250), the choice of the next command (00_scope R14) and hardware reset (70 R290).

There is no return from a refusal: the next command is simply taken (60_exceptions R262). -/

namespace Sys2Proof.Machine

/-! ### The delay RAMs -/

/-- The word a RAM holds at an index; an index that is not listed holds `+0.0` (41 R157, log 2). -/
def Memory.get (i : Nat) : Memory → F32
  | [] => 0#32
  | (j, v) :: rest => if j = i then v else Memory.get i rest

/-- The RAM with one word replaced, in canonical form: writing `+0.0` removes the entry. -/
def Memory.put (i : Nat) (v : F32) : Memory → Memory
  | [] => if v = 0#32 then [] else [(i, v)]
  | (j, w) :: rest =>
    if i < j then (if v = 0#32 then (j, w) :: rest else (i, v) :: (j, w) :: rest)
    else if i = j then (if v = 0#32 then rest else (i, v) :: rest)
    else (j, w) :: Memory.put i v rest

/-- The canonical form of a RAM of `len` words: indices strictly rising and below `len`, no listed word `+0.0`. -/
def Memory.wf (len : Nat) : Memory → Bool
  | [] => true
  | (i, v) :: rest => decide (i < len) && decide (v ≠ 0#32) && rest.all (fun p => decide (i < p.1)) && Memory.wf len rest

/-- `BUFc`, the delay RAM of a channel (10_state R40). -/
def State.buf (s : State) : Channel → Memory
  | .left => s.bufL
  | .right => s.bufR

/-- The state with the RAM of one channel replaced. -/
def State.setBuf (s : State) (c : Channel) (m : Memory) : State :=
  match c with
  | .left => { s with bufL := m }
  | .right => { s with bufR := m }

/-- `FBc`, the feedback register of a channel (10_state R22). -/
def State.fb (s : State) : Channel → F32
  | .left => s.fbL
  | .right => s.fbR

/-- `MemRead(BUFc + i, 1)` (20_memory R62): the word at index `i`, for `i` below `LEN`; no other word exists to be
read (20_memory R61). A read changes nothing. -/
def memRead (c : Channel) (i : Nat) (s : State) : Option F32 :=
  if i < s.len then some (Memory.get i (s.buf c)) else none

/-- `MemWrite(BUFc + i, 1, v)` (20_memory R62), for `i` below `LEN`; no other word exists to be written (R61). -/
def memWrite (c : Channel) (i : Nat) (v : F32) (s : State) : Option State :=
  if i < s.len then some (s.setBuf c (Memory.put i v (s.buf c))) else none

/-! ### The parameter registers -/

/-- `P[i]` as a 32-bit field: `enc32` of registers 0 to 4, `zext_32` of register 5 (10_state R30, 40 R127). -/
def readParam (p : Param) (s : State) : Word32 :=
  match p with
  | .dryWet => enc32 s.pDryWet
  | .feedback => enc32 s.pFeedback
  | .depth => enc32 s.pDepth
  | .rate => enc32 s.pRate
  | .phase => enc32 s.pPhase
  | .type => zext32 s.pType.toNat

/-- `P[i] <- a`: the register takes the operand's 32 bits, and `P_TYPE` its bits 1:0 (40 R120, R126). -/
def writeParam (p : Param) (a : Word32) (s : State) : State :=
  match p with
  | .dryWet => { s with pDryWet := dec32 a }
  | .feedback => { s with pFeedback := dec32 a }
  | .depth => { s with pDepth := dec32 a }
  | .rate => { s with pRate := dec32 a }
  | .phase => { s with pPhase := dec32 a }
  | .type => { s with pType := a.extractLsb' 0 2 }

/-! ### Responses and refusals -/

/-- A response word is sent on the port the command in execution came from, after the earlier ones (30_encoding R93). -/
def sendWord (rw : Word72) (s : State) : State :=
  match s.port with
  | .audio => { s with audioOut := s.audioOut ++ [rw] }
  | .ctrl => { s with ctrlOut := s.ctrlOut ++ [rw] }

/-- `respond(rc, ra, rb)` (00_scope R12, 30_encoding R93). -/
def respond (rc : BitVec 8) (ra rb : Word32) (s : State) : State := sendWord (packWord rc ra rb) s

/-- TAKING A FAULT: the command with opcode `op` is refused (60_exceptions R250, R258). From the state BEFORE the
command, one sticky flag is set and the response `{code, zext_32(op), info}` is sent; nothing else changes, nothing is
saved and the CORE is ready for the next command. -/
def refuse (e : ErrorCode) (op : BitVec 8) (info : Word32) (s : State) : State :=
  respond e.code (zext32 op.toNat) info { s with flags := s.flags.set e }

/-- An illegal word is refused with `E_ILLEGAL`; its operand fields are not echoed (60_exceptions R253). -/
def refuseIllegal (cw : Word72) (s : State) : State := refuse .illegal (opField cw) 0 s

/-! ### The ports and the reset pin -/

/-- The CORE takes the oldest command of a port; the port it came from is remembered for the response, and whose turn
it is at the next choice is drawn (00_scope R14, 20_memory R69, log 6). -/
def grant (p : Port) (cw : Word72) (s : State) : Word72 × State :=
  (cw, { s with port := p, turn := Config.arbiter s.grants, grants := s.grants + 1 })

/-- The next command the CORE executes (00_scope R14, 20_memory R69): the oldest of the one port that has any, or, when
both have one waiting, the oldest of the port whose turn it is. None when no command waits. -/
def takeCommand (s : State) : Option (Word72 × State) :=
  match s.audioIn, s.ctrlIn with
  | [], [] => none
  | cw :: rest, [] => some (grant .audio cw { s with audioIn := rest })
  | [], cw :: rest => some (grant .ctrl cw { s with ctrlIn := rest })
  | a :: as, c :: cs =>
    match s.turn with
    | .audio => some (grant .audio a { s with audioIn := as })
    | .ctrl => some (grant .ctrl c { s with ctrlIn := cs })

/-- A client presents a command word on a port, after those it presented before (00_scope R14). -/
def submit (p : Port) (cw : Word72) (s : State) : State :=
  match p with
  | .audio => { s with audioIn := s.audioIn ++ [cw] }
  | .ctrl => { s with ctrlIn := s.ctrlIn ++ [cw] }

/-- HARDWARE RESET (70 R290, R291; 10_state R45): every register of the CORE takes its reset value, and no RAM word is
represented until the next PREPARE. The configuration stays, the queues are the environment's and are left alone, and
the request is answered (log 9). -/
def hardwareReset (s : State) : State :=
  { s with
    phase := 0
    fbL := 0
    fbR := 0
    wh := 0
    st := .unprepared
    pDryWet := 0x3F000000
    pFeedback := 0x3F000000
    pDepth := 0x3F000000
    pRate := 0x41200000
    pPhase := 0
    pType := 0
    sr := 0
    len := 0
    flags := Flags.none
    bufL := []
    bufR := []
    resetPin := false }

end Sys2Proof.Machine
end

