-- ==== Sys2Proof/Machine/Frame.lean ====
section
/-! DEFINITION. FRAME: one stereo sample pair through the datapath (45_frame_and_prepare R215 to R219, 20_memory R68). -/

namespace Sys2Proof.Machine

/-- The parameter latch: the six parameter registers, each read once at the start of the frame (45 R215 step 1,
10_state R41). It never outlives its frame, so it is no state. -/
structure Latch where
  dw : F32
  fb : F32
  dp : F32
  rt : F32
  po : F32
  ty : BitVec 2
  deriving DecidableEq, Repr

/-- Step 1 of FRAME (45 R215). -/
def latch (s : State) : Latch := ⟨s.pDryWet, s.pFeedback, s.pDepth, s.pRate, s.pPhase, s.pType⟩

/-- How many NaN draws a frame sets aside: 32 for each channel (log 3). -/
def drawsPerFrame : Nat := 64

/-- Where the draws of a channel begin in a frame (log 3). -/
def drawBase (c : Channel) (s : State) : Nat :=
  match c with
  | .left => s.nanDraws
  | .right => s.nanDraws + 32

/-- The operand of FRAME that is a channel's input sample: `a` for left, `b` for right (45 R215). -/
def inputOf (c : Channel) (inL inR : F32) : F32 :=
  match c with
  | .left => inL
  | .right => inR

/-- Step 2: the value a channel writes into its delay line (44 R200). -/
def frameWritten (C : Carrier F32) (c : Channel) (inL inR : F32) (s : State) : F32 :=
  writeVal C (drawBase c s) (inputOf c inL inR) (s.fb c)

/-- Step 3: `BUFWRITE` of a channel at the shared cursor (41 R150). -/
def bufWrite (c : Channel) (v : F32) (s : State) : Option State := memWrite c s.wh v s

/-- Step 3: both RAMs written at `WH` (45 R215, 20_memory R66). -/
def frameWrites (C : Carrier F32) (inL inR : F32) (s : State) : Option State :=
  match bufWrite .left (frameWritten C .left inL inR s) s with
  | some t => bufWrite .right (frameWritten C .right inL inR s) t
  | none => none

/-- Step 4: the whole modulator for one frame, from the phase before it advances (42 R176). -/
def frameLfo (C : Carrier F32) (s : State) : F32 × F32 × F32 :=
  lfoStep C (s.nanDraws + 1) (s.nanDraws + 33) (s.nanDraws + 24) s.phase s.sr (latch s).dp (latch s).rt (latch s).po

/-- Step 4: the depth-scaled oscillator value of a channel (42 R175, R176). -/
def frameLfoValue (C : Carrier F32) (c : Channel) (s : State) : F32 :=
  match c with
  | .left => (frameLfo C s).1
  | .right => (frameLfo C s).2.1

/-- Step 5: a channel's delay in samples (43 R187). -/
def frameDelay (C : Carrier F32) (c : Channel) (s : State) : F32 :=
  delaySamples C (drawBase c s + 5) (frameLfoValue C c s) (latch s).ty s.sr

/-- Step 5: a channel's read position, behind the cursor before it advances (41 R151). -/
def framePos (C : Carrier F32) (c : Channel) (s : State) : F32 :=
  readPos C (drawBase c s + 12) s.wh s.len (frameDelay C c s)

/-- Whether a channel's read position is in range (41 R154). -/
def frameRangeOk (C : Carrier F32) (c : Channel) (s : State) : Bool := rangeOk C s.len (framePos C c s)

/-- Step 5: the information word of `E_RANGE`, bit 0 for the left channel and bit 1 for the right (60 R251, R255). -/
def frameBad (C : Carrier F32) (s : State) : Word32 :=
  (if frameRangeOk C .left s then 0 else 1) + (if frameRangeOk C .right s then 0 else 2)

/-- Step 6: a channel's delayed sample, read from the RAM after step 3 (41 R152, 20_memory R68). -/
def frameDelayed (C : Carrier F32) (c : Channel) (s : State) : Option F32 :=
  interp C (drawBase c s + 14) s.len (fun i => memRead c i s) (framePos C c s)

/-- Step 7: the feedback register of a channel after the frame (44 R202). -/
def frameFeedback (C : Carrier F32) (c : Channel) (y : F32) (s : State) : F32 :=
  fbUpdate C (drawBase c s + 19) y (latch s).fb

/-- Step 9: a channel's output sample (44 R201). -/
def frameOut (C : Carrier F32) (c : Channel) (inp y : F32) (s : State) : F32 :=
  mix C (drawBase c s + 20) inp y (latch s).dw

/-- Steps 7 to 9: feedback, phase, cursor, lifecycle and response, from the state after the writes of step 3 and the
two delayed samples (45 R215). -/
def frameFinish (C : Carrier F32) (inL inR yL yR : F32) (s : State) : State :=
  respond 0x00 (enc32 (frameOut C .left inL yL s)) (enc32 (frameOut C .right inR yR s))
    { s with
      fbL := frameFeedback C .left yL s
      fbR := frameFeedback C .right yR s
      phase := (frameLfo C s).2.2
      wh := advance s.wh s.len
      st := .processing
      nanDraws := s.nanDraws + drawsPerFrame }

/-- `FRAME` over a carrier of binary32 values (45 R215). A refusal answers from the state before the frame, so nothing
of it is kept (45 R216); that is why the range check stands before the writes here, which R216 allows. -/
def frame (C : Carrier F32) (inL inR : F32) (s : State) : Host.Outcome State Fault Refusal :=
  if s.st = .unprepared then .next (refuse .unprep opFrame 0 s)
  else if frameBad C s ≠ 0 then .next (refuse .range opFrame (frameBad C s) s)
  else
    match frameWrites C inL inR s with
    | none => .fault .noSuchWord
    | some w =>
      match frameDelayed C .left w, frameDelayed C .right w with
      | some yL, some yR => .next (frameFinish C inL inR yL yR w)
      | _, _ => .fault .noSuchWord

/-- `FRAME inL, inR` (45 R215). -/
def execFrame (inL inR : F32) (s : State) : Host.Outcome State Fault Refusal :=
  frame Carrier.f32 (dec32 inL) (dec32 inR) s

end Sys2Proof.Machine
end

