-- ==== Sys2Proof/Machine/Lifecycle.lean ====
section
/-! DEFINITION. PREPARE and what it is made of (45_frame_and_prepare R220 to R223, 41_delay_buffer R157). -/

namespace Sys2Proof.Machine

/-- `SRLEGAL(sr)` (45 R222): greater than zero and finite. -/
def srLegal (C : Carrier F32) (sr : F32) : Bool := C.fgt sr C.zero && C.isfin sr

/-- `NEWLEN(sr)` (45 R221): the length in words, `sr * MAXD` truncated; a product that is no number in
`[0, RAM_DEPTH + 1)` gives the out-of-range length `RAM_DEPTH + 1`. Draw `n` (of a product that is not kept). -/
def newLen (C : Carrier F32) (n : Nat) (cfg : Config) (sr : F32) : Nat :=
  let x := C.fmul n sr cfg.maxd
  if C.finIdx x (cfg.ramDepth + 1) then C.ffloor x else cfg.ramDepth + 1

/-- Whether a length fits the RAMs (45 R220). -/
def lenFits (cfg : Config) (len : Nat) : Bool := decide (1 ≤ len) && decide (len ≤ cfg.ramDepth)

/-- `CLEAR()` (41 R157): every word below `LEN` of both RAMs becomes `+0.0`. -/
def clearRams (s : State) : State := { s with bufL := [], bufR := [] }

/-- The datapath reset of a PREPARE that completes, with the length it found (45 R220). -/
def prepareWith (C : Carrier F32) (len : Nat) (sr : F32) (s : State) : State :=
  { clearRams { s with len := len, sr := sr } with
    wh := 0
    phase := C.zero
    fbL := C.zero
    fbR := C.zero
    st := .prepared }

/-- `PREPARE` over a carrier of binary32 values (45 R220): the rate is checked, then, on the first PREPARE alone, the
capacity; `LEN` is fixed by the first PREPARE and kept by every later one (45 R223). The parameter registers and the
flags are not written. -/
def prepare (C : Carrier F32) (sr : F32) (s : State) : Host.Outcome State Fault Refusal :=
  if srLegal C sr then
    let len := if s.st = .unprepared then newLen C s.nanDraws s.cfg sr else s.len
    if s.st = .unprepared ∧ lenFits s.cfg len = false then .next (refuse .capacity opPrepare 0 s)
    else .next (respond 0x00 (zext32 len) 0 (prepareWith C len sr s))
  else .next (refuse .param opPrepare 0 s)

/-- `PREPARE sampleRate, blockSize` (45 R220); `blockSize` is accepted and ignored (10_state R42 b). -/
def execPrepare (sampleRate : F32) (_blockSize : Word32) (s : State) : Host.Outcome State Fault Refusal :=
  prepare Carrier.f32 (dec32 sampleRate) s

end Sys2Proof.Machine
end

