-- ==== Sys2Proof/Machine/Params.lean ====
section
/-! DEFINITION. The parameter and status commands: six SET, six GET, GETST (40_parameter_commands R120 to R134). -/

namespace Sys2Proof.Machine

/-- `SETF(i, lo, hi, a)` (40 R120): the register takes the operand's 32 bits if the value lies in `[lo, hi]` by the
carrier's ordered comparison (so a NaN does not); otherwise `E_PARAM`, and the register keeps its value. -/
def setF (p : Param) (lo hi : F32) (a : Word32) (s : State) : Host.Outcome State Fault Refusal :=
  let v := dec32 a
  if Carrier.f32.fle lo v && Carrier.f32.fle v hi then .next (respond 0x00 0 0 (writeParam p a s))
  else .next (refuse .param (opSet p) 0 s)

/-- `GETP(i)` (40 R127): the register's value as a response; nothing is written. -/
def getP (p : Param) (s : State) : Host.Outcome State Fault Refusal :=
  .next (respond 0x00 (readParam p s) 0 s)

/-- `SET.DRYWET v` (40 R121). -/
def execSetDryWet (v : F32) (s : State) : Host.Outcome State Fault Refusal :=
  setF .dryWet Carrier.f32.zero Carrier.f32.one v s

/-- `SET.FEEDBACK v` (40 R122). -/
def execSetFeedback (v : F32) (s : State) : Host.Outcome State Fault Refusal :=
  setF .feedback Carrier.f32.zero Carrier.f32.one v s

/-- `SET.DEPTH v` (40 R123). -/
def execSetDepth (v : F32) (s : State) : Host.Outcome State Fault Refusal :=
  setF .depth Carrier.f32.zero Carrier.f32.one v s

/-- `SET.RATE v` (40 R124). -/
def execSetRate (v : F32) (s : State) : Host.Outcome State Fault Refusal :=
  setF .rate Carrier.f32.rateMin Carrier.f32.rateMax v s

/-- `SET.PHASE v` (40 R125): the stereo phase offset, not the state register `PHASE`. -/
def execSetPhase (v : F32) (s : State) : Host.Outcome State Fault Refusal :=
  setF .phase Carrier.f32.zero Carrier.f32.one v s

/-- `SET.TYPE n` (40 R126): an unsigned integer, refused above 3. -/
def execSetType (n : Word32) (s : State) : Host.Outcome State Fault Refusal :=
  if 3 < asU32 n then .next (refuse .param (opSet .type) 0 s)
  else .next (respond 0x00 0 0 (writeParam .type n s))

/-- `GET.DRYWET` (40 R128). -/
def execGetDryWet (s : State) : Host.Outcome State Fault Refusal := getP .dryWet s

/-- `GET.FEEDBACK` (40 R129). -/
def execGetFeedback (s : State) : Host.Outcome State Fault Refusal := getP .feedback s

/-- `GET.DEPTH` (40 R130). -/
def execGetDepth (s : State) : Host.Outcome State Fault Refusal := getP .depth s

/-- `GET.RATE` (40 R131). -/
def execGetRate (s : State) : Host.Outcome State Fault Refusal := getP .rate s

/-- `GET.PHASE` (40 R132): the parameter `P_PHASE`, never the running phase. -/
def execGetPhase (s : State) : Host.Outcome State Fault Refusal := getP .phase s

/-- `GET.TYPE` (40 R133). -/
def execGetType (s : State) : Host.Outcome State Fault Refusal := getP .type s

/-- `GETST` (40 R134): the `STATUS` view; it clears nothing. -/
def execGetst (s : State) : Host.Outcome State Fault Refusal :=
  .next (respond 0x00 (statusWord s.flags s.st) 0 s)

end Sys2Proof.Machine
end

