-- ==== Sys2Proof/Machine/Dispatch.lean ====
section
/-! DEFINITION. The meaning of every command, one arm per constructor of Instr (30_encoding R95). -/

namespace Sys2Proof.Machine

/-- One command executed atomically (00_scope R13); the port it came from stands in the state. -/
def exec (i : Instr) (s : State) : Host.Outcome State Fault Refusal :=
  match i with
  | .prepare sampleRate blockSize => Sys2Proof.Machine.execPrepare sampleRate blockSize s
  | .frame inL inR => Sys2Proof.Machine.execFrame inL inR s
  | .setDryWet v => Sys2Proof.Machine.execSetDryWet v s
  | .setFeedback v => Sys2Proof.Machine.execSetFeedback v s
  | .setDepth v => Sys2Proof.Machine.execSetDepth v s
  | .setRate v => Sys2Proof.Machine.execSetRate v s
  | .setPhase v => Sys2Proof.Machine.execSetPhase v s
  | .setType n => Sys2Proof.Machine.execSetType n s
  | .getDryWet => Sys2Proof.Machine.execGetDryWet s
  | .getFeedback => Sys2Proof.Machine.execGetFeedback s
  | .getDepth => Sys2Proof.Machine.execGetDepth s
  | .getRate => Sys2Proof.Machine.execGetRate s
  | .getPhase => Sys2Proof.Machine.execGetPhase s
  | .getType => Sys2Proof.Machine.execGetType s
  | .getst => Sys2Proof.Machine.execGetst s

end Sys2Proof.Machine
end

