-- ==== Sys2Proof/Machine/Step.lean ====
section
/-! DEFINITION. One step of the machine: hardware reset if it is requested, else the next command of a port, else nothing (00_scope R13, R14; 70 R290). -/

namespace Sys2Proof.Machine

/-- A command word executed: the command it decodes to, or the refusal of an illegal word (30_encoding R100, 60 R253). -/
def runWord (cw : Word72) (s : State) : Host.Outcome State Fault Refusal :=
  match decode cw with
  | .ok i => exec i s
  | .error _ => .next (refuseIllegal cw s)

/-- One step: the reset pin first (70 R290); else one command, executed whole (00_scope R13); with no command waiting
the CORE is idle and holds its state (60 R275). -/
def step (s : State) : Host.Outcome State Fault Refusal :=
  if s.resetPin then .next (hardwareReset s)
  else
    match takeCommand s with
    | none => .next s
    | some (cw, t) => runWord cw t

/-- The state in which the next step runs the command word `w` (numbered as the opcode table numbers it): the word is
presented first on the `AUDIO` port, that port is served next, and no reset is requested (log 16). -/
def State.withFetchWord (s : State) (nbits w : Nat) : State :=
  { s with
    audioIn := BitVec.ofNat 72 (w % 2 ^ nbits) :: s.audioIn
    turn := .audio
    resetPin := false }

end Sys2Proof.Machine
end

