-- ==== Sys2Proof/Machine/Assembly.lean ====
section
/-! DEFINITION. The text form of commands as abstract syntax, its assembly, and the pseudo-instructions (30_encoding R101, R102; 45_frame_and_prepare R230). -/

namespace Sys2Proof.Machine

/-- An `F32` operand of an assembler line (30_encoding R101). -/
inductive AsmF32 where
  /-- a decimal literal `num / den`, assembled as `lit`; a denominator of 0 is no decimal (log 25) -/
  | dec (num : Int) (den : Nat)
  /-- a raw pattern of eight hexadecimal digits -/
  | raw (w : Word32)
  deriving DecidableEq, Repr

/-- The field an `F32` operand assembles to (30_encoding R101). -/
def AsmF32.word : AsmF32 → Word32
  | .dec num den => enc32 (Carrier.f32.lit num den)
  | .raw w => w

/-- The mnemonic of a command (30_encoding R95). -/
def mnemonicOf (i : Instr) : String := (rowOf i).mnemonic

/-- The port a line without a port is on: `PREPARE` and `FRAME` on `AUDIO`, every other command on `CTRL`; a convention
of the text form alone (30_encoding R101, 60 R270). -/
def defaultPort : Instr → Port
  | .prepare _ _ => .audio
  | .frame _ _ => .audio
  | .setDryWet _ => .ctrl
  | .setFeedback _ => .ctrl
  | .setDepth _ => .ctrl
  | .setRate _ => .ctrl
  | .setPhase _ => .ctrl
  | .setType _ => .ctrl
  | .getDryWet => .ctrl
  | .getFeedback => .ctrl
  | .getDepth => .ctrl
  | .getRate => .ctrl
  | .getPhase => .ctrl
  | .getType => .ctrl
  | .getst => .ctrl

/-- An assembler line: an optional port and a command whose operands are written out (30_encoding R101). Its terms hold
more than R101's text: a `set` of the parameter `type` is no line of R101, which gives SET.TYPE an integer (log 25). -/
inductive AsmLine where
  | prepare (port : Option Port) (sampleRate : AsmF32) (blockSize : Int)
  | frame (port : Option Port) (inL inR : AsmF32)
  | set (port : Option Port) (p : Param) (v : AsmF32)
  | setType (port : Option Port) (n : Nat)
  | get (port : Option Port) (p : Param)
  | getst (port : Option Port)
  deriving DecidableEq, Repr

/-- The SET command of a parameter, the operand as a field (30_encoding R95). -/
def setInstr (p : Param) (w : Word32) : Instr :=
  match p with
  | .dryWet => .setDryWet w
  | .feedback => .setFeedback w
  | .depth => .setDepth w
  | .rate => .setRate w
  | .phase => .setPhase w
  | .type => .setType w

/-- The GET command of a parameter (30_encoding R95). -/
def getInstr (p : Param) : Instr :=
  match p with
  | .dryWet => .getDryWet
  | .feedback => .getFeedback
  | .depth => .getDepth
  | .rate => .getRate
  | .phase => .getPhase
  | .type => .getType

/-- The command of an assembler line (30_encoding R101).
DESIGN CHOICE (log 25): R101 gives an integer operand as a decimal integer and does not say what becomes of one that does
not fit its 32-bit field. Here it is taken modulo `2^32`: `n` of SET.TYPE at or above `2^32`, and a `blockSize` outside
the signed 32-bit range. -/
def AsmLine.instr : AsmLine → Instr
  | .prepare _ sampleRate blockSize => .prepare sampleRate.word (BitVec.ofInt 32 blockSize)
  | .frame _ inL inR => .frame inL.word inR.word
  | .set _ p v => setInstr p v.word
  | .setType _ n => .setType (zext32 n)
  | .get _ p => getInstr p
  | .getst _ => .getst

/-- The port an assembler line names, or the default one (30_encoding R101). -/
def AsmLine.port (l : AsmLine) : Port :=
  let named : Option Port := match l with
    | .prepare p _ _ => p
    | .frame p _ _ => p
    | .set p _ _ => p
    | .setType p _ => p
    | .get p _ => p
    | .getst p => p
  named.getD (defaultPort l.instr)

/-- What an assembler line presents to the CORE: a port and a command word (30_encoding R101). -/
def AsmLine.assemble (l : AsmLine) : Port × Word72 := (l.port, encode l.instr)

/-- `BLOCK n`: that many consecutive FRAME commands, sample by sample (30_encoding R102, 45 R230). -/
def expandBlock (samples : List (F32 × F32)) : List Instr := samples.map (fun x => .frame x.1 x.2)

/-- `SETALL`: the six SET commands in register-number order (30_encoding R102). -/
def expandSetAll (dw fb dp rt po : F32) (ty : Word32) : List Instr :=
  [.setDryWet dw, .setFeedback fb, .setDepth dp, .setRate rt, .setPhase po, .setType ty]

/-- `GETALL`: the six GET commands in register-number order (30_encoding R102). -/
def expandGetAll : List Instr := [.getDryWet, .getFeedback, .getDepth, .getRate, .getPhase, .getType]

/-- A list of commands presented on one port in order (00_scope R14, 30_encoding R102). -/
def submitAll (p : Port) : List Instr → State → State
  | [], s => s
  | i :: rest, s => submitAll p rest (submit p (encode i) s)

end Sys2Proof.Machine
end

