-- ==== Sys2Proof/Machine/Exact.lean ====
section
/-! DEFINITION. `NUM_EXACT`, the reference carrier: the real numbers (00_scope R8). It is not the hardware; no step uses it. It is what the formulas of files 41 to 44 mean when read as mathematics. -/

namespace Sys2Proof.Machine

/-- `NUM_EXACT` (00_scope R8). No operation produces a NaN, so the draw numbers are not read.
DESIGN CHOICE (log 21): the quotient of a real by zero, which does not exist and of which R8 says nothing, is 0 here, as
Lean's `a / 0` has it; and `ffloor` of a negative real, which no rule uses, is 0. Neither says anything of the hardware. -/
noncomputable def Carrier.exact : Carrier ℝ where
  lit num den := num / den
  fadd _ a b := a + b
  fsub _ a b := a - b
  fmul _ a b := a * b
  fdiv _ a b := a / b
  flt a b := decide (a < b)
  fle a b := decide (a ≤ b)
  fge a b := decide (b ≤ a)
  fgt a b := decide (b < a)
  i2f n := n
  finIdx p L := decide (0 ≤ p ∧ p < L)
  isfin _ := true
  ffloor p := ⌊p⌋₊
  fsin := Real.sin
  twoPi := 2 * Real.pi

/-- `dec32` of `NUM_EXACT`: the real a finite pattern denotes; a non-finite pattern has none (00_scope R8). -/
noncomputable def dec32Exact (w : Word32) : Option ℝ :=
  if isFin w then some (value w / 2 ^ 149) else none

end Sys2Proof.Machine
end

