-- ==== Sys2Proof/Safety.lean ====
section
/-! DEFINITION. What claims about the machine are stated with: the legal values, the invariant of every reachable state (10_state R46), and the state after an answer, written out without the machine's own operations. -/

namespace Sys2Proof.Machine

/-- The configuration meets the constraints of 00_scope R5: `MAXD` is finite and positive, `RAM_DEPTH` is at least 1 and at
most `2^24`. -/
structure ConfigOk (cfg : Config) : Prop where
  maxd_finite : isFin cfg.maxd = true
  maxd_positive : flt32 0#32 cfg.maxd = true
  depth_pos : 1 ≤ cfg.ramDepth
  depth_le : cfg.ramDepth ≤ 2 ^ 24

/-- A legal value of `P_DRYWET`, `P_FEEDBACK`, `P_DEPTH` and `P_PHASE` (10_state R31 to R33, R35): `ZERO <= v <= ONE` by
the ordered comparison. -/
def unitLegal (v : F32) : Bool := fle32 0x00000000#32 v && fle32 v 0x3F800000#32

/-- A legal value of `P_RATE` (10_state R34): `RATE_MIN <= v <= RATE_MAX`. -/
def rateLegal (v : F32) : Bool := fle32 0x3DCCCCCD#32 v && fle32 v 0x41A00000#32

/-- A legal sample rate (10_state R37, 45 R222): greater than zero and finite. -/
def rateOfSampleLegal (v : F32) : Bool := flt32 0x00000000#32 v && isFin v

/-- Every parameter register holds a legal value (10_state R46 I-c); `P_TYPE` has no other values. -/
structure ParamsLegal (s : State) : Prop where
  dryWet : unitLegal s.pDryWet = true
  feedback : unitLegal s.pFeedback = true
  depth : unitLegal s.pDepth = true
  rate : rateLegal s.pRate = true
  phase : unitLegal s.pPhase = true

/-- The lifecycle facts of 10_state R46: I-a, and I-b for a prepared or processing CORE. -/
structure LifecycleOk (s : State) : Prop where
  unprepared_iff : s.st = .unprepared ↔ s.len = 0
  len_fits : s.len ≤ s.cfg.ramDepth
  cursor_inside : s.st ≠ .unprepared → s.wh < s.len
  rate_legal : s.st ≠ .unprepared → rateOfSampleLegal s.sr = true

/-- Both delay RAMs are in canonical form for the current `LEN` (log 1, log 2). -/
structure RamsOk (s : State) : Prop where
  left : Memory.wf s.len s.bufL = true
  right : Memory.wf s.len s.bufR = true

/-- The invariant of every reachable state (10_state R46). I-d holds of every state by the type of `ST`; I-e is about two
states and is stated of the step. -/
structure Inv (s : State) : Prop where
  config : ConfigOk s.cfg
  params : ParamsLegal s
  lifecycle : LifecycleOk s
  rams : RamsOk s

/-- Where a result becomes an infinity, in multiples of `2^-149`: halfway between the largest finite magnitude,
`(2^24 - 1) * 2^253`, and the next power of two, a tie that rounds to the even one (00_scope R7, log 13). -/
def overflowAt : Nat := (2 ^ 25 - 1) * 2 ^ 252

/-- The pattern `r` is the magnitude `num / den`, in multiples of `2^-149`, rounded to nearest with ties to even, under
the given sign (00_scope R7). It is said of `r` by comparison with every other finite pattern `y`, not by a computation. -/
structure RoundsTo (sign : Bool) (num den : Nat) (r : F32) : Prop where
  sign_eq : signBit r = sign
  not_nan : isNan r = false
  infinite_iff : isInf r = true ↔ overflowAt * den ≤ num
  nearest : isFin r = true → ∀ y : F32, isFin y = true →
    |(units r : ℤ) * den - num| ≤ |(units y : ℤ) * den - num|
  even_at_tie : isFin r = true → ∀ y : F32, isFin y = true → units y ≠ units r →
    |(units r : ℤ) * den - num| = |(units y : ℤ) * den - num| → r.toNat % 2 = 0

/-- `PHASE` lies in `[0, 1]` (10_state R21, 70 R315). -/
def phaseInUnit (s : State) : Bool := unitLegal s.phase

/-- The responses sent on `AUDIO` once the command in execution is answered with `rw` (30_encoding R93). -/
def audioAfter (s : State) (rw : Word72) : List Word72 := if s.port = .audio then s.audioOut ++ [rw] else s.audioOut

/-- The responses sent on `CTRL` once the command in execution is answered with `rw` (30_encoding R93). -/
def ctrlAfter (s : State) (rw : Word72) : List Word72 := if s.port = .audio then s.ctrlOut else s.ctrlOut ++ [rw]

/-- The state that differs from `s` in nothing but the one response `rw`, sent on the port of the command. -/
def answered (s : State) (rw : Word72) : State := { s with audioOut := audioAfter s rw, ctrlOut := ctrlAfter s rw }

/-- A word that the decoder accepts as no command (30_encoding R98). -/
def isIllegal (cw : Word72) : Prop := ∀ i, decode cw ≠ .ok i

/-- The last response on the port of the command that took `s` to `t` (30_encoding R93). -/
def lastAnswer (s t : State) : Option Word72 :=
  match s.port with
  | .audio => t.audioOut.getLast?
  | .ctrl => t.ctrlOut.getLast?

/-- The rule of a SET command of an `F` parameter, as 40 R120 to R125 give it: the opcode `op` with `b = 0` is the
command, and with `b` not zero is refused with `E_ILLEGAL` whatever the value; a legal value is stored bit for bit and
answered with zeros; any other value is refused with `E_PARAM`, which sets `F_PARAM` and changes nothing else. -/
structure SetRule (op : BitVec 8) (mk : F32 → Instr) (legal : F32 → Bool) (store : F32 → State → State) : Prop where
  encoded : ∀ v : F32, decode (packWord op v 0) = .ok (mk v)
  mbz : ∀ (v b : Word32) (s : State), b ≠ 0 → runWord (packWord op v b) s
    = .next (answered { s with flags := { s.flags with illegal := true } } (packWord 0x01 (op.setWidth 32) 0))
  stores : ∀ v s, legal v = true → exec (mk v) s = .next (store v (answered s 0))
  refuses : ∀ v s, legal v = false →
    exec (mk v) s = .next (answered { s with flags := { s.flags with param := true } } (packWord 0x03 (op.setWidth 32) 0))

/-- The rule of a GET command, as 40 R127 to R133 give it: the opcode `op` with both fields zero is the command, and with
either not zero is refused with `E_ILLEGAL`; it answers the register's field and changes nothing else. -/
structure GetRule (op : BitVec 8) (i : Instr) (field : State → Word32) : Prop where
  encoded : decode (packWord op 0 0) = .ok i
  mbz : ∀ (a b : Word32) (s : State), a ≠ 0 ∨ b ≠ 0 → runWord (packWord op a b) s
    = .next (answered { s with flags := { s.flags with illegal := true } } (packWord 0x01 (op.setWidth 32) 0))
  answers : ∀ s, exec i s = .next (answered s (packWord 0x00 (field s) 0))

end Sys2Proof.Machine
end

