-- ==== Sys2Proof/Certificates/Slice0/Obligations.lean ====
section
/-! DEFINITION. The statements for the provers, one definition each; OBLIGATIONS.json says what each is for and which rules it rests on. -/

open Sys2Proof Sys2Proof.Machine

/-! ### Encoding -/

/-- Decoding the word of any command gives the command back, with every operand at every value (30_encoding R90, R95, R100).
Every term of `Instr` is well formed: its operands are whole 32-bit fields, and an `MBZ` field carries nothing. -/
def Obligations.DecodeEncodeGivesCommand : Prop := ∀ i : Instr, decode (encode i) = .ok i

/-- A word that decodes is the word its command encodes to: no bit of an accepted word is dropped (30_encoding R98, R100). -/
def Obligations.AcceptedWordIsItsEncoding : Prop :=
  ∀ (cw : Word72) (i : Instr), decode cw = .ok i → encode i = cw

/-- The decode procedure and the opcode table agree: an accepted word matches the row of its command and no other row, and
an illegal word matches none (30_encoding R97). -/
def Obligations.DecoderAgreesWithOpcodeTable : Prop :=
  (∀ cw i, decode cw = .ok i →
    rowOf i ∈ opcodeTable ∧ ∀ r ∈ opcodeTable, r.matches cw = true ↔ r = rowOf i) ∧
  (∀ cw, isIllegal cw → ∀ r ∈ opcodeTable, r.matches cw = false)

/-- Which words are illegal, listed, and what becomes of each: it is refused with `E_ILLEGAL`, which changes nothing but
`F_ILLEGAL` and answers the opcode alone (30_encoding R98, 60_exceptions R253). -/
def Obligations.IllegalWordsAreRefused : Prop :=
  (∀ (op : BitVec 8) (a b : Word32),
    isIllegal (packWord op a b) ↔
      op = 0x00 ∨ (0x03 ≤ op ∧ op ≤ 0x0F) ∨ (0x16 ≤ op ∧ op ≤ 0x1F) ∨ (0x26 ≤ op ∧ op ≤ 0x2F) ∨ 0x31 ≤ op ∨
      ((0x10 ≤ op ∧ op ≤ 0x15) ∧ b ≠ 0) ∨ (((0x20 ≤ op ∧ op ≤ 0x25) ∨ op = 0x30) ∧ (a ≠ 0 ∨ b ≠ 0))) ∧
  (∀ (op : BitVec 8) (a b : Word32) (s : State), isIllegal (packWord op a b) →
    runWord (packWord op a b) s
      = .next (answered { s with flags := { s.flags with illegal := true } } (packWord 0x01 (op.setWidth 32) 0)))

/-- Six words written out from the encoding table decode to the commands they stand for (30_encoding R95, R101). -/
def Obligations.SampleWordsDecode : Prop :=
  decode 0x01472C440000000200 = .ok (.prepare 0x472C4400 0x200) ∧
  decode 0x023F800000BECCCCCD = .ok (.frame 0x3F800000 0xBECCCCCD) ∧
  decode 0x103E80000000000000 = .ok (.setDryWet 0x3E800000) ∧
  decode 0x150000000300000000 = .ok (.setType 3) ∧
  decode 0x230000000000000000 = .ok .getRate ∧
  decode 0x300000000000000000 = .ok .getst

/-! ### Steps and ports -/

/-- A STEP RUNS THE GRANTED WORD: with no reset requested, the oldest word of a port runs when the other port has none
or the turn is the port's own; the word leaves its queue, the response port is set and the next turn is drawn. A word that
decodes runs as its command; an illegal one is refused with `E_ILLEGAL`, which sets that flag and answers the opcode. The
drawing of the turn is the model's choice (log 6). -/
def Obligations.StepRunsGrantedCommand : Prop :=
  ∀ (s t : State) (cw : Word72) (rest : List Word72), s.resetPin = false →
    ((s.audioIn = cw :: rest ∧ (s.ctrlIn = [] ∨ s.turn = .audio) ∧
        t = { s with audioIn := rest, port := .audio, turn := Config.arbiter s.grants, grants := s.grants + 1 }) ∨
      (s.ctrlIn = cw :: rest ∧ (s.audioIn = [] ∨ s.turn = .ctrl) ∧
        t = { s with ctrlIn := rest, port := .ctrl, turn := Config.arbiter s.grants, grants := s.grants + 1 })) →
    step s = runWord cw t ∧
    (∀ i, decode cw = .ok i → step s = exec i t) ∧
    (isIllegal cw → step s = .next (answered { t with flags := { t.flags with illegal := true } }
      (packWord 0x01 ((opField cw).setWidth 32) 0)))

/-- With no reset requested and no command waiting, a step holds the state (60_exceptions R275; that the step is a next
state and no stop is the model's choice, log 8). -/
def Obligations.IdleStepHoldsState : Prop :=
  ∀ s : State, s.resetPin = false → s.audioIn = [] → s.ctrlIn = [] → step s = .next s

/-- A requested hardware reset is the next step, whatever waits on the ports: every register takes its reset value, the
parameter defaults are restored, the flags are cleared, and no RAM word is readable until the next PREPARE (70 R290, R291;
10_state R45). The queues, the configuration and the free-value counters stay (log 9). -/
def Obligations.HardwareResetRestoresResetValues : Prop :=
  ∀ s : State, s.resetPin = true →
    step s = .next { State.reset with
      cfg := s.cfg, audioIn := s.audioIn, ctrlIn := s.ctrlIn, audioOut := s.audioOut, ctrlOut := s.ctrlOut,
      turn := s.turn, grants := s.grants, port := s.port, nanDraws := s.nanDraws } ∧
    ∀ c i, memRead c i (hardwareReset s) = none

/-- The values the spec gives for the state after hardware reset (10_state R45, 70 R290; 00_scope R5, R10 for the
configuration's defaults). -/
def Obligations.ResetStateHasSpecValues : Prop :=
  State.reset.st = .unprepared ∧ State.reset.phase = 0x00000000 ∧ State.reset.fbL = 0x00000000 ∧
  State.reset.fbR = 0x00000000 ∧ State.reset.wh = 0 ∧ State.reset.len = 0 ∧ State.reset.sr = 0x00000000 ∧
  State.reset.pDryWet = 0x3F000000 ∧ State.reset.pFeedback = 0x3F000000 ∧ State.reset.pDepth = 0x3F000000 ∧
  State.reset.pRate = 0x41200000 ∧ State.reset.pPhase = 0x00000000 ∧ State.reset.pType = 0 ∧
  State.reset.flags = ⟨false, false, false, false, false⟩ ∧
  State.reset.cfg.maxd = 0x40000000 ∧ State.reset.cfg.ramDepth = 524288

/-- Every command word that is answered by a next state sends exactly one response, on the port it came from; its code is
one of 0 to 5; and a code other than 0 means that nothing changed but that fault's flag, that `ra` is the opcode, and that
`rb` is 0 except for `E_RANGE`, where it is 1, 2 or 3 (30_encoding R93, R94; 60_exceptions R250, R251, R258). -/
def Obligations.EveryWordGetsOneResponse : Prop :=
  ∀ (cw : Word72) (s t : State), runWord cw s = .next t →
    ∃ (rc : BitVec 8) (ra rb : Word32),
      t.audioOut = (if s.port = .audio then s.audioOut ++ [packWord rc ra rb] else s.audioOut) ∧
      t.ctrlOut = (if s.port = .audio then s.ctrlOut else s.ctrlOut ++ [packWord rc ra rb]) ∧
      (rc = 0 ∨ ra = (opField cw).setWidth 32 ∧
        ((rc = 1 ∧ rb = 0 ∧ t = answered { s with flags := { s.flags with illegal := true } } (packWord rc ra rb)) ∨
         (rc = 2 ∧ rb = 0 ∧ t = answered { s with flags := { s.flags with unprep := true } } (packWord rc ra rb)) ∨
         (rc = 3 ∧ rb = 0 ∧ t = answered { s with flags := { s.flags with param := true } } (packWord rc ra rb)) ∨
         (rc = 4 ∧ (rb = 1 ∨ rb = 2 ∨ rb = 3) ∧
           t = answered { s with flags := { s.flags with range := true } } (packWord rc ra rb)) ∨
         (rc = 5 ∧ rb = 0 ∧ t = answered { s with flags := { s.flags with capacity := true } } (packWord rc ra rb))))

/-- A command's effect does not depend on the port it came from: on the other port the outcome is the same next state but
for the two response streams and the port itself (60_exceptions R270). Both runs take the same draws of NaN patterns, which
is the model's choice (log 3): hardware might draw other patterns in the second run. -/
def Obligations.PortOnlyRoutesTheResponse : Prop :=
  ∀ (i : Instr) (s t : State) (p : Port), exec i s = .next t →
    ∃ rw : Word72, t = { t with
        audioOut := (if s.port = .audio then s.audioOut ++ [rw] else s.audioOut),
        ctrlOut := (if s.port = .audio then s.ctrlOut else s.ctrlOut ++ [rw]) } ∧
      exec i { s with port := p } = .next { t with
        port := p
        audioOut := (if p = .audio then s.audioOut ++ [rw] else s.audioOut)
        ctrlOut := (if p = .audio then s.ctrlOut else s.ctrlOut ++ [rw]) }

/-! ### The parameter and status commands -/

/-- The five SET commands of `F` parameters, each whole: encoding, the legal value stored bit for bit, `E_PARAM` for any
other value, `E_ILLEGAL` for a non-zero `b` (40 R121 to R125). -/
def Obligations.FloatParameterSets : Prop :=
  SetRule 0x10 .setDryWet unitLegal (fun v s => { s with pDryWet := v }) ∧
  SetRule 0x11 .setFeedback unitLegal (fun v s => { s with pFeedback := v }) ∧
  SetRule 0x12 .setDepth unitLegal (fun v s => { s with pDepth := v }) ∧
  SetRule 0x13 .setRate rateLegal (fun v s => { s with pRate := v }) ∧
  SetRule 0x14 .setPhase unitLegal (fun v s => { s with pPhase := v })

/-- SET.TYPE whole: the operand is an unsigned integer, bits 1:0 are stored when it is at most 3, and it is refused with
`E_PARAM` above 3 (40 R126). -/
def Obligations.TypeParameterSet : Prop :=
  SetRule 0x15 .setType (fun n => decide (n.toNat ≤ 3)) (fun n s => { s with pType := n.setWidth 2 })

/-- The six GET commands whole: encoding, the register's field answered, nothing written, `E_ILLEGAL` for a non-zero
field; and the answers after reset (40 R128 to R133). -/
def Obligations.ParameterGets : Prop :=
  GetRule 0x20 .getDryWet (fun s => s.pDryWet) ∧
  GetRule 0x21 .getFeedback (fun s => s.pFeedback) ∧
  GetRule 0x22 .getDepth (fun s => s.pDepth) ∧
  GetRule 0x23 .getRate (fun s => s.pRate) ∧
  GetRule 0x24 .getPhase (fun s => s.pPhase) ∧
  GetRule 0x25 .getType (fun s => s.pType.setWidth 32) ∧
  exec .getDryWet State.reset = .next (answered State.reset 0x003F00000000000000) ∧
  exec .getFeedback State.reset = .next (answered State.reset 0x003F00000000000000) ∧
  exec .getDepth State.reset = .next (answered State.reset 0x003F00000000000000) ∧
  exec .getRate State.reset = .next (answered State.reset 0x004120000000000000) ∧
  exec .getPhase State.reset = .next (answered State.reset 0x000000000000000000)

/-- GETST whole: the encoding; `ST` in bits 1:0, the five flags in bits 4 to 8, every other bit 0; nothing is written, the
flags included (40 R134, 10_state R39). -/
def Obligations.StatusRead : Prop :=
  GetRule 0x30 .getst (fun s => BitVec.ofNat 32
    ((match s.st with | .unprepared => 0 | .prepared => 1 | .processing => 2)
      + 16 * s.flags.illegal.toNat + 32 * s.flags.unprep.toNat + 64 * s.flags.param.toNat + 128 * s.flags.range.toNat
      + 256 * s.flags.capacity.toNat))

/-- A parameter register changes only by an accepted SET of its own number; no other command, PREPARE included, touches it
(10_state R30, 40 R120). -/
def Obligations.ParametersChangeOnlyByTheirSet : Prop :=
  ∀ (i : Instr) (s t : State), exec i s = .next t →
    (t.pDryWet = s.pDryWet ∨ i = .setDryWet t.pDryWet) ∧
    (t.pFeedback = s.pFeedback ∨ i = .setFeedback t.pFeedback) ∧
    (t.pDepth = s.pDepth ∨ i = .setDepth t.pDepth) ∧
    (t.pRate = s.pRate ∨ i = .setRate t.pRate) ∧
    (t.pPhase = s.pPhase ∨ i = .setPhase t.pPhase) ∧
    (t.pType = s.pType ∨ i = .setType (t.pType.setWidth 32))

/-- Which patterns the ordered comparisons let through, bit for bit: `[0, 1]` is 0x00000000 to 0x3F800000 and `-0`; the
rate range is 0x3DCCCCCD to 0x41A00000; a legal sample rate is a positive finite pattern, subnormals included (10_state R31
to R35, R37; 00_scope R7). -/
def Obligations.LegalValuesBitForBit : Prop :=
  (∀ v : F32, unitLegal v = true ↔ v.toNat ≤ 0x3F800000 ∨ v = 0x80000000) ∧
  (∀ v : F32, rateLegal v = true ↔ 0x3DCCCCCD ≤ v.toNat ∧ v.toNat ≤ 0x41A00000) ∧
  (∀ v : F32, rateOfSampleLegal v = true ↔ 0 < v.toNat ∧ v.toNat < 0x7F800000)

/-! ### PREPARE -/

/-- The first PREPARE that completes: the product of rate and `MAXD` is finite and its integer part is a length from 1 to
`RAM_DEPTH`. `LEN` takes that length, `SR` the rate, every word below `LEN` of both RAMs reads `+0.0`, the datapath is
reset, the response carries `LEN`, and nothing else changes (45 R220, R221; 41 R157). -/
def Obligations.FirstPrepareFixesLength : Prop :=
  ∀ (s : State) (sr : F32) (bs : Word32), ConfigOk s.cfg → s.st = .unprepared → rateOfSampleLegal sr = true →
    ∀ x n, x = fmul32 s.nanDraws sr s.cfg.maxd → isFin x = true → n = ffloor32 x → 1 ≤ n → n ≤ s.cfg.ramDepth →
    ∃ t, exec (.prepare sr bs) s = .next t ∧
      t = { answered s (packWord 0x00 (BitVec.ofNat 32 n) 0) with
        len := n, sr := sr, wh := 0, phase := 0x00000000, fbL := 0x00000000, fbR := 0x00000000,
        st := .prepared, bufL := t.bufL, bufR := t.bufR } ∧
      (∀ c i, i < n → memRead c i t = some 0x00000000) ∧ (∀ c i, n ≤ i → memRead c i t = none)

/-- A PREPARE that finds `ST` other than `UNPREPARED`: any legal rate is accepted, `LEN` keeps its value, `SR` takes the new
rate, the RAMs read `+0.0`, the datapath is reset, the response carries the old `LEN`, and nothing else changes (45 R220,
R223). -/
def Obligations.LaterPrepareKeepsLength : Prop :=
  ∀ (s : State) (sr : F32) (bs : Word32), s.st ≠ .unprepared → rateOfSampleLegal sr = true →
    ∃ t, exec (.prepare sr bs) s = .next t ∧
      t = { answered s (packWord 0x00 (BitVec.ofNat 32 s.len) 0) with
        sr := sr, wh := 0, phase := 0x00000000, fbL := 0x00000000, fbR := 0x00000000,
        st := .prepared, bufL := t.bufL, bufR := t.bufR } ∧
      (∀ c i, i < s.len → memRead c i t = some 0x00000000) ∧ (∀ c i, s.len ≤ i → memRead c i t = none)

/-- A PREPARE with an illegal rate is refused with `E_PARAM` in every lifecycle state, the datapath untouched (45 R222, 60
R254); the legal rates are the positive finite numbers. -/
def Obligations.IllegalSampleRateIsRefused : Prop :=
  (∀ sr : F32, srLegal Carrier.f32 sr = (flt32 0x00000000 sr && isFin sr)) ∧
  (∀ (s : State) (sr : F32) (bs : Word32), ¬ (0 < sr.toNat ∧ sr.toNat < 0x7F800000) →
    exec (.prepare sr bs) s
      = .next (answered { s with flags := { s.flags with param := true } } (packWord 0x03 0x01 0)))

/-- A first PREPARE whose product is infinite, or has the integer part 0, or one above `RAM_DEPTH`, is refused with
`E_CAPACITY`: `ST` and `LEN` stay; and nothing else sets that flag: a command that newly sets it is a PREPARE in
`UNPREPARED` with a legal rate whose `NEWLEN` is outside `[1, RAM_DEPTH]`, and its product is one of those
(60_exceptions R256, 45 R221). -/
def Obligations.CapacityFailureIsRefused : Prop :=
  (∀ (s : State) (sr : F32) (bs : Word32), ConfigOk s.cfg → s.st = .unprepared → rateOfSampleLegal sr = true →
    ∀ x, x = fmul32 s.nanDraws sr s.cfg.maxd →
      isInf x = true ∨ (isFin x = true ∧ (ffloor32 x = 0 ∨ s.cfg.ramDepth < ffloor32 x)) →
      exec (.prepare sr bs) s
        = .next (answered { s with flags := { s.flags with capacity := true } } (packWord 0x05 0x01 0))) ∧
  (∀ (i : Instr) (s t : State), exec i s = .next t → s.flags.capacity = false → t.flags.capacity = true →
    s.st = .unprepared ∧ ∃ sr bs, i = .prepare sr bs ∧ rateOfSampleLegal sr = true ∧
      (newLen Carrier.f32 s.nanDraws s.cfg sr < 1 ∨ s.cfg.ramDepth < newLen Carrier.f32 s.nanDraws s.cfg sr) ∧
      (ConfigOk s.cfg → ∀ x, x = fmul32 s.nanDraws sr s.cfg.maxd →
        isInf x = true ∨ (isFin x = true ∧ (ffloor32 x = 0 ∨ s.cfg.ramDepth < ffloor32 x))))

/-! ### FRAME -/

/-- FRAME in `UNPREPARED` is refused with `E_UNPREP`, and no other command in no other state sets that flag (60 R252). -/
def Obligations.FrameBeforePrepareIsRefused : Prop :=
  (∀ (s : State) (inL inR : F32), s.st = .unprepared →
    exec (.frame inL inR) s
      = .next (answered { s with flags := { s.flags with unprep := true } } (packWord 0x02 0x02 0))) ∧
  (∀ (i : Instr) (s t : State), exec i s = .next t → s.flags.unprep = false → t.flags.unprep = true →
    s.st = .unprepared ∧ ∃ inL inR, i = .frame inL inR)

/-- FRAME completes when both read positions are in range, and does what 45 R215 says: each RAM takes input plus feedback at
`WH` and keeps every other word; the delayed samples are interpolated from the RAMs after those writes, at the positions
behind the old cursor; the feedback registers, the phase and the cursor take their next values; the outputs are the blends;
`ST` becomes `PROCESSING`; nothing else changes but the counter of NaN draws (log 3). -/
def Obligations.FrameCompletes : Prop :=
  ∀ (s : State) (inL inR : F32), Inv s → s.st ≠ .unprepared →
    ∀ (n : Nat) (vL vR posL posR : F32), n = s.nanDraws →
    vL = fmul32 (n + 4) (fsin32 (fmul32 (n + 1) twoPi32 s.phase)) s.pDepth →
    vR = fmul32 (n + 36) (fsin32 (fmul32 (n + 33) twoPi32 (rightPhase Carrier.f32 (n + 34) s.phase s.pPhase))) s.pDepth →
    posL = readPos Carrier.f32 (n + 12) s.wh s.len (delaySamples Carrier.f32 (n + 5) vL s.pType s.sr) →
    posR = readPos Carrier.f32 (n + 44) s.wh s.len (delaySamples Carrier.f32 (n + 37) vR s.pType s.sr) →
    rangeOk Carrier.f32 s.len posL = true → rangeOk Carrier.f32 s.len posR = true →
    ∃ (t : State) (yL yR : F32), exec (.frame inL inR) s = .next t ∧
      memRead .left s.wh t = some (fadd32 n inL s.fbL) ∧
      memRead .right s.wh t = some (fadd32 (n + 32) inR s.fbR) ∧
      (∀ c i, i ≠ s.wh → memRead c i t = memRead c i s) ∧
      interp Carrier.f32 (n + 14) s.len (fun i => memRead .left i t) posL = some yL ∧
      interp Carrier.f32 (n + 46) s.len (fun i => memRead .right i t) posR = some yR ∧
      t = { answered s (packWord 0x00 (mix Carrier.f32 (n + 20) inL yL s.pDryWet)
              (mix Carrier.f32 (n + 52) inR yR s.pDryWet)) with
        fbL := fmul32 (n + 19) yL s.pFeedback
        fbR := fmul32 (n + 51) yR s.pFeedback
        phase := phaseAdv Carrier.f32 (n + 24) s.phase s.sr s.pRate
        wh := if s.wh + 1 = s.len then 0 else s.wh + 1
        st := .processing
        nanDraws := n + 64
        bufL := t.bufL
        bufR := t.bufR }

/-- FRAME with a read position out of range, in a state that is not `UNPREPARED`, is refused with `E_RANGE`; bit 0 of the
information word says that the left position failed, bit 1 that the right one did; nothing of the frame is kept (60 R255, 45
R216). Whether it is refused does not depend on the samples, the RAMs or the feedback registers (70 R318 b). -/
def Obligations.FrameOutOfRangeIsRefused : Prop :=
  ∀ (s : State) (inL inR : F32), s.st ≠ .unprepared →
    (frameRangeOk Carrier.f32 .left s = false ∨ frameRangeOk Carrier.f32 .right s = false) →
    ∀ (x y : F32) (m k : Memory),
      exec (.frame inL inR) { s with fbL := x, fbR := y, bufL := m, bufR := k }
        = .next (answered { s with fbL := x, fbR := y, bufL := m, bufR := k, flags := { s.flags with range := true } }
            (packWord 0x04 0x02 ((if frameRangeOk Carrier.f32 .left s = true then 0 else 1)
              + (if frameRangeOk Carrier.f32 .right s = true then 0 else 2))))

/-- The frame of FRAME: in a next state no RAM word other than the one at `WH` has changed, and no parameter, no sample
rate, no length, no configuration, no waiting command (45 R215, 20_memory R66). The word at `WH` is below `LEN`, or nothing
was stored at all. -/
def Obligations.FrameLeavesTheRestAlone : Prop :=
  ∀ (s t : State) (inL inR : F32), exec (.frame inL inR) s = .next t →
    (∀ c i, i ≠ s.wh → memRead c i t = memRead c i s) ∧
    (s.wh < s.len ∨ (t.bufL = s.bufL ∧ t.bufR = s.bufR)) ∧
    t = { s with
      bufL := t.bufL, bufR := t.bufR, fbL := t.fbL, fbR := t.fbR, phase := t.phase, wh := t.wh, st := t.st,
      flags := t.flags, audioOut := t.audioOut, ctrlOut := t.ctrlOut, nanDraws := t.nanDraws }

/-- No data path from the right channel to the left, nor back: two frames that differ only in one channel's input, RAM and
feedback register leave the other channel's RAM and feedback equal and answer the same output sample for it (45 R217). The
two frames are compared under the same draws of NaN patterns (log 3). -/
def Obligations.ChannelsDoNotMix : Prop :=
  (∀ (s t t' : State) (l r r' x : F32) (m : Memory), exec (.frame l r) s = .next t →
    exec (.frame l r') { s with fbR := x, bufR := m } = .next t' →
    t'.bufL = t.bufL ∧ t'.fbL = t.fbL ∧
      (lastAnswer { s with fbR := x, bufR := m } t').map aField = (lastAnswer s t).map aField) ∧
  (∀ (s t t' : State) (l l' r x : F32) (m : Memory), exec (.frame l r) s = .next t →
    exec (.frame l' r) { s with fbL := x, bufL := m } = .next t' →
    t'.bufR = t.bufR ∧ t'.fbR = t.fbR ∧
      (lastAnswer { s with fbL := x, bufL := m } t').map bField = (lastAnswer s t).map bField)

/-- The delay line does not depend on the dry/wet parameter: a frame with another `P_DRYWET` leaves the same state but for
that parameter and the response (44 R203 c), under the same draws of NaN patterns (log 3). -/
def Obligations.DryWetStaysOutOfTheDelayLine : Prop :=
  ∀ (s t : State) (l r x : F32), exec (.frame l r) s = .next t →
    ∃ t', exec (.frame l r) { s with pDryWet := x } = .next t' ∧
      t' = { t with pDryWet := x, audioOut := t'.audioOut, ctrlOut := t'.ctrlOut }

/-! ### The datapath functions -/

/-- The expression trees of the datapath in binary32, one rounding per node, in the spec's order: READPOS, RPHASE, PHASEADV,
RANGE, DELAYSAMPLES, MIX and INTERP (41 R151, R152; 42 R172, R174; 43 R185 to R187; 44 R201). INTERP is written out whole:
the word at the integer part of the position, weighted by one less the fraction, plus the next word around the ring,
weighted by the fraction. The first argument of an operation numbers the NaN it would produce (log 3). -/
def Obligations.DatapathTreesAreTheSpecs : Prop :=
  (∀ (n wh len : Nat) (d : F32), readPos Carrier.f32 n wh len d =
    if flt32 (fsub32 n (i2f32 wh) d) 0x00000000 then fadd32 (n + 1) (fsub32 n (i2f32 wh) d) (i2f32 len)
    else fsub32 n (i2f32 wh) d) ∧
  (∀ (n : Nat) (ph po : F32), rightPhase Carrier.f32 n ph po =
    if fge32 (fadd32 n ph po) 0x3F800000 then fsub32 (n + 1) (fadd32 n ph po) 0x3F800000 else fadd32 n ph po) ∧
  (∀ (n : Nat) (ph sr rt : F32), phaseAdv Carrier.f32 n ph sr rt =
    if fgt32 (fadd32 (n + 1) ph (fdiv32 n rt sr)) 0x3F800000
    then fsub32 (n + 2) (fadd32 (n + 1) ph (fdiv32 n rt sr)) 0x3F800000
    else fadd32 (n + 1) ph (fdiv32 n rt sr)) ∧
  (∀ (n : Nat) (v sr : F32) (ty : BitVec 2), delaySamples Carrier.f32 n v ty sr =
    fmul32 (n + 6) (fadd32 (n + 5) (rangeOfType Carrier.f32 ty).1
      (fdiv32 (n + 4) (fmul32 (n + 2) (fsub32 n v 0xBF800000)
        (fsub32 (n + 1) (rangeOfType Carrier.f32 ty).2 (rangeOfType Carrier.f32 ty).1))
        (fsub32 (n + 3) 0x3F800000 0xBF800000))) sr) ∧
  (∀ (n : Nat) (x y dw : F32), mix Carrier.f32 n x y dw =
    fadd32 (n + 3) (fmul32 (n + 1) x (fsub32 n 0x3F800000 dw)) (fmul32 (n + 2) y dw)) ∧
  (∀ (n : Nat) (f a b : F32), blend Carrier.f32 n f a b =
    fadd32 (n + 3) (fmul32 (n + 1) (fsub32 n 0x3F800000 f) a) (fmul32 (n + 2) f b)) ∧
  (rangeOfType Carrier.f32 0 = (0x3BA3D70A, 0x3CF5C28F) ∧ rangeOfType Carrier.f32 1 = (0x3A83126F, 0x3BA3D70A) ∧
    rangeOfType Carrier.f32 2 = (0x3CF5C28F, 0x3DCCCCCD) ∧ rangeOfType Carrier.f32 3 = (0x3DCCCCCD, 0x3F800000)) ∧
  (∀ (n len : Nat) (read : Nat → Option F32) (pos frac : F32) (x0 x1 : Nat), x0 = ffloor32 pos →
    x1 = (if x0 + 1 = len then 0 else x0 + 1) → frac = fsub32 n pos (i2f32 x0) →
    (∀ s0 s1, read x0 = some s0 → read x1 = some s1 → interp Carrier.f32 n len read pos
      = some (fadd32 (n + 4) (fmul32 (n + 2) (fsub32 (n + 1) 0x3F800000 frac) s0) (fmul32 (n + 3) frac s1))) ∧
    (read x0 = none ∨ read x1 = none → interp Carrier.f32 n len read pos = none)) ∧
  (∀ (len : Nat) (pos : F32), rangeOk Carrier.f32 len pos = true →
    (ffloor32 pos : ℤ) * 2 ^ 149 ≤ value pos ∧ value pos < ((ffloor32 pos : ℤ) + 1) * 2 ^ 149)

/-- `ADVANCE` is the successor modulo `LEN`, and keeps the cursor inside the buffer (41 R153). -/
def Obligations.AdvanceIsModular : Prop :=
  ∀ wh len : Nat, wh < len → advance wh len = (wh + 1) % len ∧ advance wh len < len

/-- A read position that passes the range check gives two legal indices, the second the successor of the first around the
ring (41 R152, 20_memory R61). -/
def Obligations.CheckedPositionGivesLegalIndices : Prop :=
  ∀ (len : Nat) (pos : F32), rangeOk Carrier.f32 len pos = true →
    lowerIndex Carrier.f32 pos < len ∧
    nextIndex len (lowerIndex Carrier.f32 pos) = (lowerIndex Carrier.f32 pos + 1) % len ∧
    nextIndex len (lowerIndex Carrier.f32 pos) < len

/-- Which positions the range check lets through, bit for bit, for every length a RAM can have: `-0` and the patterns from
`+0` up to, not including, that of `LEN`. So it refuses every NaN, both infinities, every negative number other than `-0`,
and `LEN` itself, and accepts both zeros (41 R154, 00_scope R7). -/
def Obligations.RangeCheckRefusesBadPositions : Prop :=
  ∀ len : Nat, 1 ≤ len → len ≤ 2 ^ 24 →
    (∀ pos : F32, rangeOk Carrier.f32 len pos = true ↔ pos = 0x80000000 ∨ pos.toNat < (i2f32 len).toNat) ∧
    (∀ pos : F32, isFin pos = false → rangeOk Carrier.f32 len pos = false) ∧
    (∀ pos : F32, 0x80000000 < pos.toNat → rangeOk Carrier.f32 len pos = false) ∧
    rangeOk Carrier.f32 len (i2f32 len) = false ∧
    rangeOk Carrier.f32 len 0x00000000 = true ∧ rangeOk Carrier.f32 len 0x80000000 = true

/-- One wrap suffices, in exact arithmetic, for a delay between 0 and `LEN`; a delay of exactly `LEN` reads the slot just
written; and a longer one can leave the buffer (70 R312, 41 R151, R156, `NUM_EXACT`). -/
def Obligations.SingleWrapSufficesExactly : Prop :=
  ∀ (n wh len : Nat) (d : ℝ), wh < len →
    (0 < d → d < len → 0 ≤ readPos Carrier.exact n wh len d ∧ readPos Carrier.exact n wh len d < len) ∧
    (d = len → readPos Carrier.exact n wh len d = wh) ∧
    (wh + len < d → readPos Carrier.exact n wh len d < 0)

/-- In exact arithmetic the mapper reaches both ends of its range and the midpoint in between (43 R186, R188 a, `NUM_EXACT`). -/
def Obligations.MapperReachesItsBoundsExactly : Prop :=
  ∀ (n : Nat) (ty : BitVec 2),
    mapDelay Carrier.exact n (-1) ty = (rangeOfType Carrier.exact ty).1 ∧
    mapDelay Carrier.exact n 1 ty = (rangeOfType Carrier.exact ty).2 ∧
    mapDelay Carrier.exact n 0 ty = ((rangeOfType Carrier.exact ty).1 + (rangeOfType Carrier.exact ty).2) / 2

/-- In binary32 the mapper gives these patterns at -1, 0 and +1: the low bound exactly, the midpoint, and the high bound, one
unit in the last place low for type 0 (43 R186 corners a to c, 90 C8). -/
def Obligations.MapperPatternsAtItsCorners : Prop :=
  ∀ n : Nat,
    (mapDelay Carrier.f32 n 0xBF800000 0 = 0x3BA3D70A ∧ mapDelay Carrier.f32 n 0x00000000 0 = 0x3C8F5C28 ∧
      mapDelay Carrier.f32 n 0x3F800000 0 = 0x3CF5C28E) ∧
    (mapDelay Carrier.f32 n 0xBF800000 1 = 0x3A83126F ∧ mapDelay Carrier.f32 n 0x00000000 1 = 0x3B449BA6 ∧
      mapDelay Carrier.f32 n 0x3F800000 1 = 0x3BA3D70A) ∧
    (mapDelay Carrier.f32 n 0xBF800000 2 = 0x3CF5C28F ∧ mapDelay Carrier.f32 n 0x00000000 2 = 0x3D851EB8 ∧
      mapDelay Carrier.f32 n 0x3F800000 2 = 0x3DCCCCCD) ∧
    (mapDelay Carrier.f32 n 0xBF800000 3 = 0x3DCCCCCD ∧ mapDelay Carrier.f32 n 0x00000000 3 = 0x3F0CCCCD ∧
      mapDelay Carrier.f32 n 0x3F800000 3 = 0x3F800000)

/-- The binary32 mapper is monotone over its domain, for every type (43 R186 corner f). -/
def Obligations.MapperIsMonotone : Prop :=
  ∀ (n m : Nat) (ty : BitVec 2) (v w : F32), fle32 0xBF800000 v = true → fle32 v w = true → fle32 w 0x3F800000 = true →
    fle32 (mapDelay Carrier.f32 n v ty) (mapDelay Carrier.f32 m w ty) = true

/-- The sine, whatever the implementation: a zero is its own sine; a finite operand gives a finite number in `[-1, 1]`; a
non-finite one gives a NaN (00_scope R9 P1 to P3; the form that leaves it free is log 4). -/
def Obligations.SineKeepsItsProperties : Prop :=
  fsin32 0x00000000 = 0x00000000 ∧ fsin32 0x80000000 = 0x80000000 ∧
  (∀ x : F32, isFin x = true → isFin (fsin32 x) = true ∧ fle32 0xBF800000 (fsin32 x) = true ∧
    fle32 (fsin32 x) 0x3F800000 = true) ∧
  (∀ x : F32, isFin x = false → isNan (fsin32 x) = true)

/-- With depth zero the LFO has no say: the delay of a channel is the midpoint delay of the type, whatever the sine and
whatever the phase, as long as the operand of that channel's sine (`TWO_PI` times its phase, rounded) is finite; the sine
of any other operand is a NaN, and a NaN times zero is no zero. A phase and an offset in `[0, 1]` make both operands finite
(42 R175, 43 R188 c). The draws are numbered as log 3 says. -/
def Obligations.ZeroDepthGivesStaticDelay : Prop :=
  ∀ s : State, (s.pDepth = 0x00000000 ∨ s.pDepth = 0x80000000) →
    (isFin (fmul32 (s.nanDraws + 1) twoPi32 s.phase) = true →
      frameDelay Carrier.f32 .left s = delaySamples Carrier.f32 (s.nanDraws + 5) 0x00000000 s.pType s.sr) ∧
    (isFin (fmul32 (s.nanDraws + 33) twoPi32 (rightPhase Carrier.f32 (s.nanDraws + 34) s.phase s.pPhase)) = true →
      frameDelay Carrier.f32 .right s = delaySamples Carrier.f32 (s.nanDraws + 37) 0x00000000 s.pType s.sr) ∧
    (unitLegal s.phase = true → unitLegal s.pPhase = true → ∀ c : Channel,
      frameDelay Carrier.f32 c s = delaySamples Carrier.f32 (drawBase c s + 5) 0x00000000 s.pType s.sr)

/-- Pass-through and full-wet in exact arithmetic (44 R203 a, b, `NUM_EXACT`). -/
def Obligations.BlendEndpointsExactly : Prop :=
  ∀ (n : Nat) (x y : ℝ), mix Carrier.exact n x y 0 = x ∧ mix Carrier.exact n x y 1 = y

/-- Pass-through and full-wet in binary32, bit for bit up to the sign of zero: a finite input other than `-0` comes through
at dry/wet 0 whatever the finite delayed sample, and a finite delayed sample other than `-0` at dry/wet 1 whatever the
finite input (44 R203 a, b). -/
def Obligations.BlendEndpointsBitForBit : Prop :=
  ∀ (n : Nat) (x y : F32), isFin x = true → isFin y = true →
    (x ≠ 0x80000000 → mix Carrier.f32 n x y 0x00000000 = x) ∧
    (y ≠ 0x80000000 → mix Carrier.f32 n x y 0x3F800000 = y)

/-- The four operations on finite operands, the integer conversion and the decimal literal are the exact result rounded to
nearest, ties to even, infinities past the threshold included (00_scope R7; that the threshold and the signs are IEEE 754's
is log 13). An exact zero sum is minus zero only for two negative operands, a difference being the sum with the second
operand's sign changed (93 U17, log 13); the sign of a literal that
rounds to zero is the model's choice (log 24). -/
def Obligations.RoundingIsNearestTiesToEven : Prop :=
  (∀ (sign : Bool) (num den : Nat), 0 < den → RoundsTo sign num den (packSign sign (roundMag num den))) ∧
  (∀ (n : Nat) (a b : F32), isFin a = true → isFin b = true →
    (value a + value b ≠ 0 →
      RoundsTo (decide (value a + value b < 0)) (value a + value b).natAbs 1 (fadd32 n a b)) ∧
    (value a + value b = 0 → fadd32 n a b = packSign (signBit a && signBit b) 0) ∧
    (value a - value b ≠ 0 →
      RoundsTo (decide (value a - value b < 0)) (value a - value b).natAbs 1 (fsub32 n a b)) ∧
    (value a - value b = 0 → fsub32 n a b = packSign (signBit a && !signBit b) 0) ∧
    RoundsTo (signBit a != signBit b) (units a * units b) (2 ^ 149) (fmul32 n a b) ∧
    (units b ≠ 0 → RoundsTo (signBit a != signBit b) (units a * 2 ^ 149) (units b) (fdiv32 n a b))) ∧
  (∀ n : Nat, RoundsTo false (n * 2 ^ 149) 1 (i2f32 n)) ∧
  (∀ (num : Int) (den : Nat), 0 < den →
    RoundsTo (decide (num < 0)) (num.natAbs * 2 ^ 149) den (lit32 num den))

/-! ### Invariants and whole-machine rules -/

/-- The reset state meets the invariant (10_state R46). -/
def Obligations.ResetMeetsInvariant : Prop := Inv State.reset

/-- EVERY STEP KEEPS THE INVARIANT, from every state that meets it (10_state R46): `LEN` is 0 exactly in `UNPREPARED`, the
cursor is inside the buffer, `SR` is legal, every parameter is legal, both RAMs are in canonical form. -/
def Obligations.StepKeepsInvariant : Prop := ∀ s t : State, Inv s → step s = .next t → Inv t

/-- No state that meets the invariant stops: every step answers a next state, so no RAM access ever falls outside the
buffer (00_scope R13, 20_memory R61). -/
def Obligations.InvariantStatesNeverStop : Prop := ∀ s : State, Inv s → ∃ t, step s = .next t

/-- The sticky flags: without a hardware reset no step clears one; and a refused command sets the flag of its fault, so that
a flag at 0 means that no command was refused with that fault (60 R263, 10_state R46 I-e). -/
def Obligations.FlagsAreSticky : Prop :=
  (∀ s t : State, s.resetPin = false → step s = .next t → ∀ e, s.flags.get e = true → t.flags.get e = true) ∧
  (∀ (cw : Word72) (s t : State) (e : ErrorCode) (rw : Word72), runWord cw s = .next t →
    lastAnswer s t = some rw → opField rw = e.code → t.flags.get e = true)

/-- The lifecycle table, row by row (45 R225): what `ST` is after any command word that is answered by a next state. -/
def Obligations.LifecycleTransitions : Prop :=
  ∀ (cw : Word72) (s t : State), runWord cw s = .next t →
    (t.st = s.st ∨
      (∃ sr bs, decode cw = .ok (.prepare sr bs) ∧ t.st = .prepared) ∨
      (∃ l r, decode cw = .ok (.frame l r) ∧ s.st ≠ .unprepared ∧ t.st = .processing)) ∧
    (∀ rw, lastAnswer s t = some rw →
      (opField rw ≠ 0 → t.st = s.st) ∧
      (∀ sr bs, decode cw = .ok (.prepare sr bs) → opField rw = 0 → t.st = .prepared) ∧
      (∀ l r, decode cw = .ok (.frame l r) → opField rw = 0 → s.st ≠ .unprepared ∧ t.st = .processing))

/-- `LEN` is written only by a PREPARE that finds `ST = UNPREPARED` (10_state R38), and the configuration by nothing. -/
def Obligations.LengthIsFixedOnce : Prop :=
  ∀ (i : Instr) (s t : State), exec i s = .next t →
    t.cfg = s.cfg ∧ (t.len = s.len ∨ (s.st = .unprepared ∧ t.st = .prepared ∧ ∃ sr bs, i = .prepare sr bs))

/-- The registers fit their widths: under the invariant, in a prepared or processing CORE, `WH` fits `AW` bits and `LEN`
fits `AW + 1` (10_state R23, R38; 00_scope R5). -/
def Obligations.CursorAndLengthFitTheirWidths : Prop :=
  ∀ s : State, Inv s → s.st ≠ .unprepared → s.wh < 2 ^ s.cfg.addrBits ∧ s.len < 2 ^ (s.cfg.addrBits + 1)

/-- PHASE STAYS IN `[0, 1]` while the LFO rate does not exceed the sample rate, in binary32, rounding included, and over any
command (70 R315, 10_state R21). -/
def Obligations.PhaseStaysInUnitInterval : Prop :=
  ∀ (i : Instr) (s t : State), Inv s → phaseInUnit s = true → (s.st ≠ .unprepared → fle32 s.pRate s.sr = true) →
    exec i s = .next t → phaseInUnit t = true
end

