-- ==== Sys2Proof/Laws/Float.lean ====
section
/-! SUPPORT. Binary32 arithmetic: the fields of a pattern, exactness of a representable result, and monotonicity of rounding (00_scope R7). -/

namespace Sys2Proof.Machine

/-! ### Rounding an integer quotient -/

/-- What rounding to the nearest integer does: the result is within half a unit, and even at a tie. -/
theorem divNearestEven_spec (num : Nat) {den : Nat} (hd : 0 < den) :
    2 * (divNearestEven num den * den) ≤ 2 * num + den ∧ 2 * num ≤ 2 * (divNearestEven num den * den) + den ∧
    (2 * (divNearestEven num den * den) = 2 * num + den → divNearestEven num den % 2 = 0) ∧
    (2 * num = 2 * (divNearestEven num den * den) + den → divNearestEven num den % 2 = 0) := by
  have hq : num / den * den + num % den = num := Nat.div_add_mod' num den
  have hr : num % den < den := Nat.mod_lt _ hd
  unfold divNearestEven
  simp only
  split
  · refine ⟨by omega, by omega, by omega, by omega⟩
  · split
    · simp only [Nat.add_mul, Nat.one_mul]
      refine ⟨by omega, by omega, by omega, by omega⟩
    · rcases Nat.mod_two_eq_zero_or_one (num / den) with h | h
      · simp only [h, Nat.add_zero, implies_true, and_true]
        refine ⟨by omega, by omega⟩
      · simp only [h, Nat.add_mul, Nat.one_mul]
        refine ⟨by omega, by omega, by omega, by omega⟩

/-- Rounding to the nearest integer is monotone in the quotient. -/
theorem divNearestEven_mono {a b c d : Nat} (hb : 0 < b) (hd : 0 < d) (h : a * d ≤ c * b) :
    divNearestEven a b ≤ divNearestEven c d := by
  obtain ⟨h1, -, h1e, -⟩ := divNearestEven_spec a hb
  obtain ⟨-, h2, -, h2e⟩ := divNearestEven_spec c hd
  generalize divNearestEven a b = m at *
  generalize divNearestEven c d = n at *
  by_contra hlt
  have hmn : n + 1 ≤ m := by omega
  have hbd : 0 < b * d := Nat.mul_pos hb hd
  have e1 : 2 * (m * b) * d ≤ (2 * a + b) * d := Nat.mul_le_mul_right d h1
  have e2 : 2 * c * b ≤ (2 * (n * d) + d) * b := Nat.mul_le_mul_right b h2
  have e3 : (n + 1) * (b * d) ≤ m * (b * d) := Nat.mul_le_mul_right _ hmn
  have key : m * (b * d) = (n + 1) * (b * d) ∧ 2 * (m * b) * d = (2 * a + b) * d ∧ 2 * c * b = (2 * (n * d) + d) * b := by
    have f1 : 2 * (m * b) * d = 2 * (m * (b * d)) := by ring
    have f2 : (2 * a + b) * d = 2 * (a * d) + b * d := by ring
    have f3 : 2 * c * b = 2 * (c * b) := by ring
    have f4 : (2 * (n * d) + d) * b = 2 * (n * (b * d)) + b * d := by ring
    have f5 : (n + 1) * (b * d) = n * (b * d) + b * d := by ring
    omega
  obtain ⟨k1, k2, k3⟩ := key
  have hm : m = n + 1 := Nat.eq_of_mul_eq_mul_right hbd k1
  have t1 := h1e (Nat.eq_of_mul_eq_mul_right hd k2)
  have t2 := h2e (Nat.eq_of_mul_eq_mul_right hb k3)
  omega

/-- An exact quotient is not changed by rounding. -/
theorem divNearestEven_mul (n : Nat) {den : Nat} (hd : 0 < den) : divNearestEven (n * den) den = n := by
  simp [divNearestEven, Nat.mul_div_cancel n hd, hd]

/-! ### The magnitude of a result -/

/-- How far the unit in the last place of a result lies above `2^-149`. -/
def ulpShift (q : Nat) : Nat := Nat.log2 q - 23

/-- A quotient below `2^24` of its own unit in the last place. -/
theorem lt_ulpShift (q : Nat) : q < 2 ^ 24 * 2 ^ ulpShift q := by
  have h : q < 2 ^ (Nat.log2 q + 1) := Nat.lt_log2_self
  refine Nat.lt_of_lt_of_le h ?_
  rw [← Nat.pow_add]
  exact Nat.pow_le_pow_right (by decide) (by unfold ulpShift; omega)

/-- A quotient whose unit in the last place lies above `2^-149` fills 24 bits. -/
theorem ulpShift_le {q : Nat} (h : 0 < ulpShift q) : 2 ^ 23 * 2 ^ ulpShift q ≤ q := by
  have hq : q ≠ 0 := by
    rintro rfl
    simp [ulpShift] at h
  have := Nat.log2_self_le hq
  rw [← Nat.pow_add, show 23 + ulpShift q = Nat.log2 q by unfold ulpShift at *; omega]
  exact this

/-- The unit in the last place grows with the quotient. -/
theorem ulpShift_mono {p q : Nat} (h : p ≤ q) : ulpShift p ≤ ulpShift q := by
  unfold ulpShift
  rcases Nat.eq_zero_or_pos p with rfl | hp
  · simp
  · have h2 : 2 ^ Nat.log2 p ≤ q := Nat.le_trans (Nat.log2_self_le (by omega)) h
    have h3 : q < 2 ^ (Nat.log2 q + 1) := Nat.lt_log2_self
    have h4 : Nat.log2 p < Nat.log2 q + 1 := (Nat.pow_lt_pow_iff_right (by decide)).mp (Nat.lt_of_le_of_lt h2 h3)
    omega

theorem roundMag_eq (num den : Nat) :
    roundMag num den = min (ulpShift (num / den) * 2 ^ 23 + divNearestEven num (den * 2 ^ ulpShift (num / den))) infMag :=
  rfl

/-- The rounded significand never exceeds `2^24`. -/
theorem divNearestEven_ulp_le (num : Nat) {den : Nat} (hd : 0 < den) :
    divNearestEven num (den * 2 ^ ulpShift (num / den)) ≤ 2 ^ 24 := by
  have hk : 0 < 2 ^ ulpShift (num / den) := Nat.pow_pos (by decide)
  have h : num ≤ (2 ^ 24 * 2 ^ ulpShift (num / den)) * den :=
    Nat.le_of_lt ((Nat.div_lt_iff_lt_mul hd).mp (lt_ulpShift (num / den)))
  calc divNearestEven num (den * 2 ^ ulpShift (num / den))
      ≤ divNearestEven (2 ^ 24 * (den * 2 ^ ulpShift (num / den))) (den * 2 ^ ulpShift (num / den)) := by
        apply divNearestEven_mono (Nat.mul_pos hd hk) (Nat.mul_pos hd hk)
        apply Nat.mul_le_mul_right
        calc num ≤ 2 ^ 24 * 2 ^ ulpShift (num / den) * den := h
          _ = 2 ^ 24 * (den * 2 ^ ulpShift (num / den)) := by ring
    _ = 2 ^ 24 := divNearestEven_mul _ (Nat.mul_pos hd hk)

/-- Above the lowest binade the rounded significand is at least `2^23`. -/
theorem le_divNearestEven_ulp (num : Nat) {den : Nat} (hd : 0 < den) (h : 0 < ulpShift (num / den)) :
    2 ^ 23 ≤ divNearestEven num (den * 2 ^ ulpShift (num / den)) := by
  have hk : 0 < 2 ^ ulpShift (num / den) := Nat.pow_pos (by decide)
  have hn : (2 ^ 23 * 2 ^ ulpShift (num / den)) * den ≤ num := (Nat.le_div_iff_mul_le hd).mp (ulpShift_le h)
  calc 2 ^ 23 = divNearestEven (2 ^ 23 * (den * 2 ^ ulpShift (num / den))) (den * 2 ^ ulpShift (num / den)) :=
        (divNearestEven_mul _ (Nat.mul_pos hd hk)).symm
    _ ≤ divNearestEven num (den * 2 ^ ulpShift (num / den)) := by
        apply divNearestEven_mono (Nat.mul_pos hd hk) (Nat.mul_pos hd hk)
        apply Nat.mul_le_mul_right
        calc 2 ^ 23 * (den * 2 ^ ulpShift (num / den)) = 2 ^ 23 * 2 ^ ulpShift (num / den) * den := by ring
          _ ≤ num := hn

/-- ROUNDING IS MONOTONE: a larger quotient has no smaller rounded magnitude. -/
theorem roundMag_mono {a b c d : Nat} (hb : 0 < b) (hd : 0 < d) (h : a * d ≤ c * b) : roundMag a b ≤ roundMag c d := by
  rw [roundMag_eq, roundMag_eq]
  have hq : a / b ≤ c / d := by
    rw [Nat.le_div_iff_mul_le hd]
    have : a / b * d * b ≤ c * b := by
      calc a / b * d * b = a / b * b * d := by ring
        _ ≤ a * d := Nat.mul_le_mul_right d (Nat.div_mul_le_self a b)
        _ ≤ c * b := h
    exact Nat.le_of_mul_le_mul_right this hb
  have hs := ulpShift_mono hq
  have hmain : ulpShift (a / b) * 2 ^ 23 + divNearestEven a (b * 2 ^ ulpShift (a / b))
      ≤ ulpShift (c / d) * 2 ^ 23 + divNearestEven c (d * 2 ^ ulpShift (c / d)) := by
    rcases Nat.eq_or_lt_of_le hs with he | hl
    · rw [he]
      apply Nat.add_le_add_left
      have hk : 0 < 2 ^ ulpShift (c / d) := Nat.pow_pos (by decide)
      apply divNearestEven_mono (Nat.mul_pos hb hk) (Nat.mul_pos hd hk)
      calc a * (d * 2 ^ ulpShift (c / d)) = a * d * 2 ^ ulpShift (c / d) := by ring
        _ ≤ c * b * 2 ^ ulpShift (c / d) := Nat.mul_le_mul_right _ h
        _ = c * (b * 2 ^ ulpShift (c / d)) := by ring
    · have h1 := divNearestEven_ulp_le a hb
      have h2 := le_divNearestEven_ulp c hd (by omega)
      omega
  exact min_le_min_right _ hmain

theorem roundMag_le_inf (a b : Nat) : roundMag a b ≤ infMag := by
  rw [roundMag_eq]; omega

/-- Zero rounds to zero. -/
@[simp] theorem roundMag_zero (den : Nat) : roundMag 0 den = 0 := by
  simp [roundMag_eq, divNearestEven, ulpShift, infMag]

/-! ### The fields of a pattern -/

theorem expField_le (x : F32) : expField x ≤ 255 := by unfold expField; omega

theorem fracField_lt (x : F32) : fracField x < 2 ^ 23 := by unfold fracField; omega

/-- The 31 bits below the sign. -/
def magBits (x : F32) : Nat := x.toNat % 2 ^ 31

theorem magBits_eq (x : F32) : magBits x = expField x * 2 ^ 23 + fracField x := by
  unfold magBits expField fracField; omega

theorem magBits_lt (x : F32) : magBits x < 2 ^ 31 := by unfold magBits; omega

/-- A pattern is its sign and the 31 bits below it. -/
theorem packSign_magBits (x : F32) : packSign (signBit x) (magBits x) = x := by
  apply BitVec.eq_of_toNat_eq
  have hx := x.isLt
  simp only [packSign, signBit, magBits, BitVec.toNat_ofNat, BitVec.msb_eq_decide]
  split <;> (simp_all; omega)

theorem packSign_toNat (b : Bool) {m : Nat} (h : m < 2 ^ 31) :
    (packSign b m).toNat = m + if b then 2 ^ 31 else 0 := by
  cases b <;> simp [packSign] <;> omega

@[simp] theorem signBit_packSign (b : Bool) {m : Nat} (h : m < 2 ^ 31) : signBit (packSign b m) = b := by
  simp only [signBit, BitVec.msb_eq_decide, packSign_toNat b h]
  cases b
  · simp; omega
  · simp

@[simp] theorem magBits_packSign (b : Bool) {m : Nat} (h : m < 2 ^ 31) : magBits (packSign b m) = m := by
  simp only [magBits, packSign_toNat b h]
  cases b <;> simp <;> omega

/-- The magnitude, in multiples of `2^-149`, that 31 magnitude bits stand for. -/
def unitsOf (m : Nat) : Nat := if m < 2 ^ 23 then m else (2 ^ 23 + m % 2 ^ 23) * 2 ^ (m / 2 ^ 23 - 1)

theorem units_eq_unitsOf (x : F32) : units x = unitsOf (magBits x) := by
  have h1 := magBits_eq x
  have h2 := fracField_lt x
  unfold units unitsOf
  by_cases h : expField x = 0
  · have : magBits x = fracField x := by rw [h1, h]; omega
    rw [if_pos h, if_pos (by omega), this]
  · have e1 : magBits x % 2 ^ 23 = fracField x := by omega
    have e2 : magBits x / 2 ^ 23 = expField x := by omega
    rw [if_neg h, if_neg (by omega), e1, e2]

/-- Classification by the magnitude bits. -/
theorem isFin_iff (x : F32) : isFin x = true ↔ magBits x < infMag := by
  have h1 := magBits_eq x
  have h2 := fracField_lt x
  have h3 := expField_le x
  simp only [isFin, infMag, bne_iff_ne]
  omega

theorem isNan_iff (x : F32) : isNan x = true ↔ infMag < magBits x := by
  have h1 := magBits_eq x
  have h2 := fracField_lt x
  have h3 := expField_le x
  simp only [isNan, infMag, Bool.and_eq_true, beq_iff_eq, bne_iff_ne]
  omega

theorem isInf_iff (x : F32) : isInf x = true ↔ magBits x = infMag := by
  have h1 := magBits_eq x
  have h2 := fracField_lt x
  have h3 := expField_le x
  simp only [isInf, infMag, Bool.and_eq_true, beq_iff_eq]
  omega

/-- The magnitude of a positive significand times a power of two. -/
theorem unitsOf_add (k n : Nat) (h1 : 2 ^ 23 ≤ n ∨ k = 0) (h2 : n < 2 ^ 24) :
    unitsOf (k * 2 ^ 23 + n) = n * 2 ^ k := by
  unfold unitsOf
  by_cases hk : k = 0
  · subst hk
    by_cases hn : n < 2 ^ 23
    · simp only [Nat.zero_mul, Nat.zero_add, if_pos hn, Nat.pow_zero, Nat.mul_one]
    · have e1 : (0 * 2 ^ 23 + n) % 2 ^ 23 = n - 2 ^ 23 := by omega
      have e2 : (0 * 2 ^ 23 + n) / 2 ^ 23 = 1 := by omega
      rw [if_neg (by omega), e1, e2]
      simp only [Nat.sub_self, Nat.pow_zero, Nat.mul_one]
      omega
  · have hn : 2 ^ 23 ≤ n := by omega
    have e1 : (k * 2 ^ 23 + n) % 2 ^ 23 = n - 2 ^ 23 := by omega
    have e2 : (k * 2 ^ 23 + n) / 2 ^ 23 = k + 1 := by omega
    have e3 : 2 ^ 23 + (n - 2 ^ 23) = n := by omega
    rw [if_neg (by omega), e1, e2, Nat.add_sub_cancel, e3]

/-- Every magnitude is a significand below `2^24` times a power of two, the significand full unless the power is 1. -/
theorem exists_sig (m : Nat) : ∃ k n, m = k * 2 ^ 23 + n ∧ (2 ^ 23 ≤ n ∨ k = 0) ∧ n < 2 ^ 24 := by
  by_cases h : m < 2 ^ 24
  · exact ⟨0, m, by omega, .inr rfl, h⟩
  · exact ⟨m / 2 ^ 23 - 1, m % 2 ^ 23 + 2 ^ 23, by omega, .inl (by omega), by omega⟩

/-- The magnitude grows strictly with the magnitude bits. -/
theorem unitsOf_lt {m n : Nat} (h : m < n) : unitsOf m < unitsOf n := by
  obtain ⟨k, a, rfl, ha, ha'⟩ := exists_sig m
  obtain ⟨l, b, rfl, hb, hb'⟩ := exists_sig n
  rw [unitsOf_add k a ha ha', unitsOf_add l b hb hb']
  rcases Nat.lt_trichotomy k l with hk | hk | hk
  · have hb2 : 2 ^ 23 ≤ b := by omega
    obtain ⟨d, rfl⟩ : ∃ d, l = k + 1 + d := ⟨l - (k + 1), by omega⟩
    calc a * 2 ^ k < 2 ^ 24 * 2 ^ k := Nat.mul_lt_mul_of_pos_right ha' (Nat.pow_pos (by decide))
      _ = 2 ^ 23 * 2 ^ (k + 1) := by ring
      _ ≤ b * 2 ^ (k + 1 + d) := Nat.mul_le_mul hb2 (Nat.pow_le_pow_right (by decide) (by omega))
  · subst hk
    exact Nat.mul_lt_mul_of_pos_right (by omega) (Nat.pow_pos (by decide))
  · exfalso
    have ha2 : 2 ^ 23 ≤ a := by omega
    omega

theorem unitsOf_lt_iff {m n : Nat} : unitsOf m < unitsOf n ↔ m < n := by
  refine ⟨fun h => ?_, unitsOf_lt⟩
  by_contra hn
  rcases Nat.eq_or_lt_of_le (Nat.not_lt.mp hn) with rfl | hl
  · omega
  · have := unitsOf_lt hl; omega

theorem unitsOf_le_iff {m n : Nat} : unitsOf m ≤ unitsOf n ↔ m ≤ n := by
  rw [← Nat.not_lt, ← Nat.not_lt, unitsOf_lt_iff]

@[simp] theorem unitsOf_zero : unitsOf 0 = 0 := rfl

theorem unitsOf_eq_zero {m : Nat} : unitsOf m = 0 ↔ m = 0 := by
  constructor
  · intro h
    by_contra hm
    have := unitsOf_lt (Nat.pos_of_ne_zero hm)
    simp at this
    omega
  · rintro rfl; rfl

/-- A REPRESENTABLE RESULT IS EXACT: rounding the magnitude of a finite pattern gives its bits back. -/
theorem roundMag_unitsOf {m d : Nat} (hm : m < infMag) (hd : 0 < d) : roundMag (unitsOf m * d) d = m := by
  obtain ⟨k, n, rfl, h1, h2⟩ := exists_sig m
  rw [unitsOf_add k n h1 h2, roundMag_eq, Nat.mul_div_cancel _ hd]
  have hk : ulpShift (n * 2 ^ k) = k := by
    unfold ulpShift
    rcases h1 with h1 | rfl
    · have hlog : Nat.log2 (n * 2 ^ k) = 23 + k := by
        rw [Nat.log2_eq_iff (by have : 0 < 2 ^ k := Nat.pow_pos (by decide); positivity)]
        constructor
        · rw [Nat.pow_add]; exact Nat.mul_le_mul_right _ h1
        · rw [show 23 + k + 1 = 24 + k by omega, Nat.pow_add]
          exact Nat.mul_lt_mul_of_pos_right h2 (Nat.pow_pos (by decide))
      omega
    · rw [Nat.pow_zero, Nat.mul_one]
      rcases Nat.eq_zero_or_pos n with rfl | hn
      · simp
      · have : Nat.log2 n < 24 := (Nat.log2_lt (by omega)).mpr h2
        omega
  rw [hk, show n * 2 ^ k * d = n * (d * 2 ^ k) by ring,
    divNearestEven_mul _ (Nat.mul_pos hd (Nat.pow_pos (by decide)))]
  omega

/-- A magnitude no larger than that of a finite pattern rounds to no more than it. -/
theorem roundMag_le_of_le {num den m : Nat} (hd : 0 < den) (hm : m < infMag) (h : num ≤ unitsOf m * den) :
    roundMag num den ≤ m := by
  calc roundMag num den ≤ roundMag (unitsOf m * den) den := roundMag_mono hd hd (Nat.mul_le_mul_right _ h)
    _ = m := roundMag_unitsOf hm hd

/-- A magnitude no smaller than that of a finite pattern rounds to no less than it. -/
theorem le_roundMag_of_le {num den m : Nat} (hd : 0 < den) (hm : m < infMag) (h : unitsOf m * den ≤ num) :
    m ≤ roundMag num den := by
  calc m = roundMag (unitsOf m * den) den := (roundMag_unitsOf hm hd).symm
    _ ≤ roundMag num den := roundMag_mono hd hd (Nat.mul_le_mul_right _ h)

theorem infMag_lt : infMag < 2 ^ 31 := by decide

theorem roundMag_lt (a b : Nat) : roundMag a b < 2 ^ 31 := Nat.lt_of_le_of_lt (roundMag_le_inf a b) infMag_lt

/-! ### Comparisons and small integers -/

/-- The value of a pattern from its sign and magnitude. -/
theorem value_eq (x : F32) : value x = if signBit x then -(unitsOf (magBits x) : Int) else unitsOf (magBits x) := by
  unfold value; rw [units_eq_unitsOf]

theorem value_packSign (b : Bool) {m : Nat} (h : m < 2 ^ 31) :
    value (packSign b m) = if b then -(unitsOf m : Int) else unitsOf m := by
  rw [value_eq, signBit_packSign b h, magBits_packSign b h]

/-- `i2f` is exact up to `2^24` (00_scope R7). -/
theorem unitsOf_i2f {n : Nat} (h : n ≤ 2 ^ 24) : unitsOf (roundMag (n * 2 ^ 149) 1) = n * 2 ^ 149 ∧
    roundMag (n * 2 ^ 149) 1 < infMag := by
  rcases Nat.eq_zero_or_pos n with rfl | hn
  · exact ⟨by simp, by simp [infMag]⟩
  -- `n` is a significand of 24 bits times a power of two
  · obtain ⟨m, hm, hu⟩ : ∃ m, m < infMag ∧ unitsOf m = n * 2 ^ 149 := by
      rcases Nat.eq_or_lt_of_le h with rfl | hlt
      · refine ⟨150 * 2 ^ 23 + 2 ^ 23, by decide, ?_⟩
        rw [unitsOf_add 150 (2 ^ 23) (.inl le_rfl) (by decide), ← Nat.pow_add, ← Nat.pow_add]
      · have hl : Nat.log2 n ≤ 23 := by
          have := (Nat.log2_lt (by omega)).mpr hlt; omega
        have hlo := Nat.log2_self_le (n := n) (by omega)
        have hhi : n < 2 ^ (Nat.log2 n + 1) := Nat.lt_log2_self
        generalize Nat.log2 n = l at *
        obtain ⟨j, hj⟩ : ∃ j, l + j = 23 := ⟨23 - l, by omega⟩
        refine ⟨(149 - j) * 2 ^ 23 + n * 2 ^ j, ?_, ?_⟩
        · have : n * 2 ^ j < 2 ^ 24 := by
            calc n * 2 ^ j < 2 ^ (l + 1) * 2 ^ j := Nat.mul_lt_mul_of_pos_right hhi (Nat.pow_pos (by decide))
              _ = 2 ^ 24 := by rw [← Nat.pow_add]; congr 1; omega
          simp only [infMag]; omega
        · rw [unitsOf_add]
          · rw [Nat.mul_assoc, ← Nat.pow_add]; congr 2; omega
          · left
            calc 2 ^ 23 = 2 ^ l * 2 ^ j := by rw [← Nat.pow_add, hj]
              _ ≤ n * 2 ^ j := Nat.mul_le_mul_right _ hlo
          · calc n * 2 ^ j < 2 ^ (l + 1) * 2 ^ j := Nat.mul_lt_mul_of_pos_right hhi (Nat.pow_pos (by decide))
              _ = 2 ^ 24 := by rw [← Nat.pow_add]; congr 1; omega
    rw [← hu]
    have := roundMag_unitsOf hm (d := 1) Nat.one_pos
    rw [Nat.mul_one] at this
    rw [this]
    exact ⟨rfl, hm⟩

/-- The value of a small integer (00_scope R7). -/
theorem value_i2f {n : Nat} (h : n ≤ 2 ^ 24) : value (i2f32 n) = (n : Int) * 2 ^ 149 := by
  unfold i2f32
  rw [value_packSign false (roundMag_lt _ _), (unitsOf_i2f h).1]
  simp

/-- `fin_idx` is the two ordered comparisons of 00_scope R7 wherever `i2f` is exact. -/
theorem finIdx_eq_comparisons (p : F32) {L : Nat} (h : L ≤ 2 ^ 24) :
    finIdx32 p L = (fge32 p (lit32 0 1) && flt32 p (i2f32 L)) := by
  have h0 : value (lit32 0 1) = 0 := by decide
  have h1 : isNan (lit32 0 1) = false := by decide
  have h2 : isNan (i2f32 L) = false := by
    rw [Bool.eq_false_iff, ne_eq, isNan_iff, i2f32, magBits_packSign false (roundMag_lt _ _)]
    have := roundMag_le_inf (L * 2 ^ 149) 1
    omega
  unfold finIdx32 fge32 fle32 flt32
  rw [h0, h1, h2, value_i2f h]
  cases isNan p <;> simp

/-! ### Finite operands -/

/-- A finite number is no NaN. -/
theorem isNan_of_isFin {x : F32} (h : isFin x = true) : isNan x = false := by
  rw [Bool.eq_false_iff, ne_eq, isNan_iff]
  have := (isFin_iff x).mp h
  omega

/-- A finite number is no infinity. -/
theorem isInf_of_isFin {x : F32} (h : isFin x = true) : isInf x = false := by
  rw [Bool.eq_false_iff, ne_eq, isInf_iff]
  have := (isFin_iff x).mp h
  omega

/-- The sum of finite numbers: no NaN is drawn (00_scope R7). -/
theorem fadd32_of_isFin (n : Nat) {a b : F32} (ha : isFin a = true) (hb : isFin b = true) :
    fadd32 n a b = if value a + value b = 0 then packSign (signBit a && signBit b) 0
      else packSign (decide (value a + value b < 0)) (roundMag (value a + value b).natAbs 1) := by
  unfold fadd32
  simp only [isNan_of_isFin ha, isNan_of_isFin hb, isInf_of_isFin ha, isInf_of_isFin hb, Bool.or_false, Bool.false_eq_true,
    if_false]

/-- The product of finite numbers: no NaN is drawn (00_scope R7). -/
theorem fmul32_of_isFin (n : Nat) {a b : F32} (ha : isFin a = true) (hb : isFin b = true) :
    fmul32 n a b = packSign (signBit a != signBit b) (roundMag (units a * units b) (2 ^ 149)) := by
  unfold fmul32
  simp only [isNan_of_isFin ha, isNan_of_isFin hb, isInf_of_isFin ha, isInf_of_isFin hb, Bool.or_false, Bool.false_eq_true,
    if_false]

/-- The quotient of finite numbers, the divisor not zero: no NaN is drawn (00_scope R7). -/
theorem fdiv32_of_isFin (n : Nat) {a b : F32} (ha : isFin a = true) (hb : isFin b = true) (h0 : units b ≠ 0) :
    fdiv32 n a b = packSign (signBit a != signBit b) (roundMag (units a * 2 ^ 149) (units b)) := by
  unfold fdiv32
  simp only [isNan_of_isFin ha, isNan_of_isFin hb, isInf_of_isFin ha, isInf_of_isFin hb, Bool.or_false, Bool.false_eq_true,
    if_false, h0]

/-- The value a signed multiple of `2^-149` rounds to. -/
def roundedValue (v : Int) : Int :=
  if v < 0 then -(unitsOf (roundMag v.natAbs 1) : Int) else unitsOf (roundMag v.natAbs 1)

/-- The value of a sum of finite numbers: the exact sum, rounded once (00_scope R7). -/
theorem value_fadd32 (n : Nat) {a b : F32} (ha : isFin a = true) (hb : isFin b = true) :
    value (fadd32 n a b) = roundedValue (value a + value b) := by
  rw [fadd32_of_isFin n ha hb]
  generalize value a + value b = v
  unfold roundedValue
  split
  · rename_i h
    subst h
    rw [value_packSign _ (by decide)]
    simp
  · rw [value_packSign _ (roundMag_lt _ _)]
    simp

/-- Rounding a signed sum is monotone. -/
theorem roundedValue_mono {v w : Int} (h : v ≤ w) : roundedValue v ≤ roundedValue w := by
  unfold roundedValue
  split <;> split
  · have := unitsOf_le_iff.mpr (roundMag_mono (a := w.natAbs) (c := v.natAbs) Nat.one_pos Nat.one_pos (by omega))
    omega
  · omega
  · omega
  · have := unitsOf_le_iff.mpr (roundMag_mono (a := v.natAbs) (c := w.natAbs) Nat.one_pos Nat.one_pos (by omega))
    omega

/-- The value of a finite number rounds to itself. -/
theorem roundedValue_value {c : F32} (hc : isFin c = true) : roundedValue (value c) = value c := by
  have h := roundMag_unitsOf ((isFin_iff c).mp hc) (d := 1) Nat.one_pos
  rw [Nat.mul_one] at h
  unfold roundedValue
  rw [value_eq]
  cases signBit c
  · simp only [Bool.false_eq_true, if_false, Int.natAbs_natCast, h]
    split <;> omega
  · simp only [if_true, Int.natAbs_neg, Int.natAbs_natCast, h]
    split <;> omega

/-- The order of numbers is the order of their values (00_scope R7). -/
theorem fle32_iff {a b : F32} (ha : isNan a = false) (hb : isNan b = false) :
    fle32 a b = true ↔ value a ≤ value b := by
  simp [fle32, ha, hb]

theorem lit_zero : lit32 0 1 = 0#32 := by simp [lit32, packSign]

end Sys2Proof.Machine
end

