-- ==== Sys2Proof/Laws/State.lean ====
section
/-! SUPPORT. The fields of a state after each named update of it, one small lemma each. -/

namespace Sys2Proof.Machine

/-! ### An answered state -/

@[simp] theorem answered_cfg (rw : Word72) (s : State) : (answered s rw).cfg = s.cfg := rfl
@[simp] theorem answered_phase (rw : Word72) (s : State) : (answered s rw).phase = s.phase := rfl
@[simp] theorem answered_fbL (rw : Word72) (s : State) : (answered s rw).fbL = s.fbL := rfl
@[simp] theorem answered_fbR (rw : Word72) (s : State) : (answered s rw).fbR = s.fbR := rfl
@[simp] theorem answered_wh (rw : Word72) (s : State) : (answered s rw).wh = s.wh := rfl
@[simp] theorem answered_st (rw : Word72) (s : State) : (answered s rw).st = s.st := rfl
@[simp] theorem answered_pDryWet (rw : Word72) (s : State) : (answered s rw).pDryWet = s.pDryWet := rfl
@[simp] theorem answered_pFeedback (rw : Word72) (s : State) : (answered s rw).pFeedback = s.pFeedback := rfl
@[simp] theorem answered_pDepth (rw : Word72) (s : State) : (answered s rw).pDepth = s.pDepth := rfl
@[simp] theorem answered_pRate (rw : Word72) (s : State) : (answered s rw).pRate = s.pRate := rfl
@[simp] theorem answered_pPhase (rw : Word72) (s : State) : (answered s rw).pPhase = s.pPhase := rfl
@[simp] theorem answered_pType (rw : Word72) (s : State) : (answered s rw).pType = s.pType := rfl
@[simp] theorem answered_sr (rw : Word72) (s : State) : (answered s rw).sr = s.sr := rfl
@[simp] theorem answered_len (rw : Word72) (s : State) : (answered s rw).len = s.len := rfl
@[simp] theorem answered_flags (rw : Word72) (s : State) : (answered s rw).flags = s.flags := rfl
@[simp] theorem answered_bufL (rw : Word72) (s : State) : (answered s rw).bufL = s.bufL := rfl
@[simp] theorem answered_bufR (rw : Word72) (s : State) : (answered s rw).bufR = s.bufR := rfl
@[simp] theorem answered_audioIn (rw : Word72) (s : State) : (answered s rw).audioIn = s.audioIn := rfl
@[simp] theorem answered_ctrlIn (rw : Word72) (s : State) : (answered s rw).ctrlIn = s.ctrlIn := rfl
@[simp] theorem answered_audioOut (rw : Word72) (s : State) : (answered s rw).audioOut = audioAfter s rw := rfl
@[simp] theorem answered_ctrlOut (rw : Word72) (s : State) : (answered s rw).ctrlOut = ctrlAfter s rw := rfl
@[simp] theorem answered_turn (rw : Word72) (s : State) : (answered s rw).turn = s.turn := rfl
@[simp] theorem answered_grants (rw : Word72) (s : State) : (answered s rw).grants = s.grants := rfl
@[simp] theorem answered_port (rw : Word72) (s : State) : (answered s rw).port = s.port := rfl
@[simp] theorem answered_resetPin (rw : Word72) (s : State) : (answered s rw).resetPin = s.resetPin := rfl
@[simp] theorem answered_nanDraws (rw : Word72) (s : State) : (answered s rw).nanDraws = s.nanDraws := rfl

/-! ### A response -/

/-- A response changes nothing but the stream of the port of the command (30_encoding R93). -/
theorem respond_eq (rc : BitVec 8) (ra rb : Word32) (s : State) :
    respond rc ra rb s = answered s (packWord rc ra rb) := by
  cases h : s.port <;> simp [respond, sendWord, answered, audioAfter, ctrlAfter, h]

/-- A refusal changes one flag and the stream of the port of the command, nothing else (60_exceptions R250). -/
theorem refuse_eq (e : ErrorCode) (op : BitVec 8) (info : Word32) (s : State) :
    refuse e op info s
      = answered { s with flags := s.flags.set e } (packWord e.code (zext32 op.toNat) info) :=
  respond_eq _ _ _ _

@[simp] theorem respond_cfg (rc : BitVec 8) (ra rb : Word32) (s : State) : (respond rc ra rb s).cfg = s.cfg := by
  rw [respond_eq]; rfl
@[simp] theorem respond_phase (rc : BitVec 8) (ra rb : Word32) (s : State) : (respond rc ra rb s).phase = s.phase := by
  rw [respond_eq]; rfl
@[simp] theorem respond_fbL (rc : BitVec 8) (ra rb : Word32) (s : State) : (respond rc ra rb s).fbL = s.fbL := by
  rw [respond_eq]; rfl
@[simp] theorem respond_fbR (rc : BitVec 8) (ra rb : Word32) (s : State) : (respond rc ra rb s).fbR = s.fbR := by
  rw [respond_eq]; rfl
@[simp] theorem respond_wh (rc : BitVec 8) (ra rb : Word32) (s : State) : (respond rc ra rb s).wh = s.wh := by
  rw [respond_eq]; rfl
@[simp] theorem respond_st (rc : BitVec 8) (ra rb : Word32) (s : State) : (respond rc ra rb s).st = s.st := by
  rw [respond_eq]; rfl
@[simp] theorem respond_pDryWet (rc : BitVec 8) (ra rb : Word32) (s : State) : (respond rc ra rb s).pDryWet = s.pDryWet := by
  rw [respond_eq]; rfl
@[simp] theorem respond_pFeedback (rc : BitVec 8) (ra rb : Word32) (s : State) : (respond rc ra rb s).pFeedback = s.pFeedback := by
  rw [respond_eq]; rfl
@[simp] theorem respond_pDepth (rc : BitVec 8) (ra rb : Word32) (s : State) : (respond rc ra rb s).pDepth = s.pDepth := by
  rw [respond_eq]; rfl
@[simp] theorem respond_pRate (rc : BitVec 8) (ra rb : Word32) (s : State) : (respond rc ra rb s).pRate = s.pRate := by
  rw [respond_eq]; rfl
@[simp] theorem respond_pPhase (rc : BitVec 8) (ra rb : Word32) (s : State) : (respond rc ra rb s).pPhase = s.pPhase := by
  rw [respond_eq]; rfl
@[simp] theorem respond_pType (rc : BitVec 8) (ra rb : Word32) (s : State) : (respond rc ra rb s).pType = s.pType := by
  rw [respond_eq]; rfl
@[simp] theorem respond_sr (rc : BitVec 8) (ra rb : Word32) (s : State) : (respond rc ra rb s).sr = s.sr := by
  rw [respond_eq]; rfl
@[simp] theorem respond_len (rc : BitVec 8) (ra rb : Word32) (s : State) : (respond rc ra rb s).len = s.len := by
  rw [respond_eq]; rfl
@[simp] theorem respond_flags (rc : BitVec 8) (ra rb : Word32) (s : State) : (respond rc ra rb s).flags = s.flags := by
  rw [respond_eq]; rfl
@[simp] theorem respond_bufL (rc : BitVec 8) (ra rb : Word32) (s : State) : (respond rc ra rb s).bufL = s.bufL := by
  rw [respond_eq]; rfl
@[simp] theorem respond_bufR (rc : BitVec 8) (ra rb : Word32) (s : State) : (respond rc ra rb s).bufR = s.bufR := by
  rw [respond_eq]; rfl
@[simp] theorem respond_audioIn (rc : BitVec 8) (ra rb : Word32) (s : State) : (respond rc ra rb s).audioIn = s.audioIn := by
  rw [respond_eq]; rfl
@[simp] theorem respond_ctrlIn (rc : BitVec 8) (ra rb : Word32) (s : State) : (respond rc ra rb s).ctrlIn = s.ctrlIn := by
  rw [respond_eq]; rfl
@[simp] theorem respond_audioOut (rc : BitVec 8) (ra rb : Word32) (s : State) : (respond rc ra rb s).audioOut = audioAfter s (packWord rc ra rb) := by
  rw [respond_eq]; rfl
@[simp] theorem respond_ctrlOut (rc : BitVec 8) (ra rb : Word32) (s : State) : (respond rc ra rb s).ctrlOut = ctrlAfter s (packWord rc ra rb) := by
  rw [respond_eq]; rfl
@[simp] theorem respond_turn (rc : BitVec 8) (ra rb : Word32) (s : State) : (respond rc ra rb s).turn = s.turn := by
  rw [respond_eq]; rfl
@[simp] theorem respond_grants (rc : BitVec 8) (ra rb : Word32) (s : State) : (respond rc ra rb s).grants = s.grants := by
  rw [respond_eq]; rfl
@[simp] theorem respond_port (rc : BitVec 8) (ra rb : Word32) (s : State) : (respond rc ra rb s).port = s.port := by
  rw [respond_eq]; rfl
@[simp] theorem respond_resetPin (rc : BitVec 8) (ra rb : Word32) (s : State) : (respond rc ra rb s).resetPin = s.resetPin := by
  rw [respond_eq]; rfl
@[simp] theorem respond_nanDraws (rc : BitVec 8) (ra rb : Word32) (s : State) : (respond rc ra rb s).nanDraws = s.nanDraws := by
  rw [respond_eq]; rfl

/-! ### A refusal -/

@[simp] theorem refuse_cfg (e : ErrorCode) (op : BitVec 8) (info : Word32) (s : State) : (refuse e op info s).cfg = s.cfg := by
  rw [refuse_eq]; rfl
@[simp] theorem refuse_phase (e : ErrorCode) (op : BitVec 8) (info : Word32) (s : State) : (refuse e op info s).phase = s.phase := by
  rw [refuse_eq]; rfl
@[simp] theorem refuse_fbL (e : ErrorCode) (op : BitVec 8) (info : Word32) (s : State) : (refuse e op info s).fbL = s.fbL := by
  rw [refuse_eq]; rfl
@[simp] theorem refuse_fbR (e : ErrorCode) (op : BitVec 8) (info : Word32) (s : State) : (refuse e op info s).fbR = s.fbR := by
  rw [refuse_eq]; rfl
@[simp] theorem refuse_wh (e : ErrorCode) (op : BitVec 8) (info : Word32) (s : State) : (refuse e op info s).wh = s.wh := by
  rw [refuse_eq]; rfl
@[simp] theorem refuse_st (e : ErrorCode) (op : BitVec 8) (info : Word32) (s : State) : (refuse e op info s).st = s.st := by
  rw [refuse_eq]; rfl
@[simp] theorem refuse_pDryWet (e : ErrorCode) (op : BitVec 8) (info : Word32) (s : State) : (refuse e op info s).pDryWet = s.pDryWet := by
  rw [refuse_eq]; rfl
@[simp] theorem refuse_pFeedback (e : ErrorCode) (op : BitVec 8) (info : Word32) (s : State) : (refuse e op info s).pFeedback = s.pFeedback := by
  rw [refuse_eq]; rfl
@[simp] theorem refuse_pDepth (e : ErrorCode) (op : BitVec 8) (info : Word32) (s : State) : (refuse e op info s).pDepth = s.pDepth := by
  rw [refuse_eq]; rfl
@[simp] theorem refuse_pRate (e : ErrorCode) (op : BitVec 8) (info : Word32) (s : State) : (refuse e op info s).pRate = s.pRate := by
  rw [refuse_eq]; rfl
@[simp] theorem refuse_pPhase (e : ErrorCode) (op : BitVec 8) (info : Word32) (s : State) : (refuse e op info s).pPhase = s.pPhase := by
  rw [refuse_eq]; rfl
@[simp] theorem refuse_pType (e : ErrorCode) (op : BitVec 8) (info : Word32) (s : State) : (refuse e op info s).pType = s.pType := by
  rw [refuse_eq]; rfl
@[simp] theorem refuse_sr (e : ErrorCode) (op : BitVec 8) (info : Word32) (s : State) : (refuse e op info s).sr = s.sr := by
  rw [refuse_eq]; rfl
@[simp] theorem refuse_len (e : ErrorCode) (op : BitVec 8) (info : Word32) (s : State) : (refuse e op info s).len = s.len := by
  rw [refuse_eq]; rfl
@[simp] theorem refuse_flags (e : ErrorCode) (op : BitVec 8) (info : Word32) (s : State) : (refuse e op info s).flags = s.flags.set e := by
  rw [refuse_eq]; rfl
@[simp] theorem refuse_bufL (e : ErrorCode) (op : BitVec 8) (info : Word32) (s : State) : (refuse e op info s).bufL = s.bufL := by
  rw [refuse_eq]; rfl
@[simp] theorem refuse_bufR (e : ErrorCode) (op : BitVec 8) (info : Word32) (s : State) : (refuse e op info s).bufR = s.bufR := by
  rw [refuse_eq]; rfl
@[simp] theorem refuse_audioIn (e : ErrorCode) (op : BitVec 8) (info : Word32) (s : State) : (refuse e op info s).audioIn = s.audioIn := by
  rw [refuse_eq]; rfl
@[simp] theorem refuse_ctrlIn (e : ErrorCode) (op : BitVec 8) (info : Word32) (s : State) : (refuse e op info s).ctrlIn = s.ctrlIn := by
  rw [refuse_eq]; rfl
@[simp] theorem refuse_audioOut (e : ErrorCode) (op : BitVec 8) (info : Word32) (s : State) : (refuse e op info s).audioOut = audioAfter s (packWord e.code (zext32 op.toNat) info) := by
  rw [refuse_eq]; rfl
@[simp] theorem refuse_ctrlOut (e : ErrorCode) (op : BitVec 8) (info : Word32) (s : State) : (refuse e op info s).ctrlOut = ctrlAfter s (packWord e.code (zext32 op.toNat) info) := by
  rw [refuse_eq]; rfl
@[simp] theorem refuse_turn (e : ErrorCode) (op : BitVec 8) (info : Word32) (s : State) : (refuse e op info s).turn = s.turn := by
  rw [refuse_eq]; rfl
@[simp] theorem refuse_grants (e : ErrorCode) (op : BitVec 8) (info : Word32) (s : State) : (refuse e op info s).grants = s.grants := by
  rw [refuse_eq]; rfl
@[simp] theorem refuse_port (e : ErrorCode) (op : BitVec 8) (info : Word32) (s : State) : (refuse e op info s).port = s.port := by
  rw [refuse_eq]; rfl
@[simp] theorem refuse_resetPin (e : ErrorCode) (op : BitVec 8) (info : Word32) (s : State) : (refuse e op info s).resetPin = s.resetPin := by
  rw [refuse_eq]; rfl
@[simp] theorem refuse_nanDraws (e : ErrorCode) (op : BitVec 8) (info : Word32) (s : State) : (refuse e op info s).nanDraws = s.nanDraws := by
  rw [refuse_eq]; rfl

/-! ### A RAM replaced -/

@[simp] theorem setBuf_cfg (c : Channel) (m : Memory) (s : State) : (s.setBuf c m).cfg = s.cfg := by cases c <;> rfl
@[simp] theorem setBuf_phase (c : Channel) (m : Memory) (s : State) : (s.setBuf c m).phase = s.phase := by cases c <;> rfl
@[simp] theorem setBuf_fbL (c : Channel) (m : Memory) (s : State) : (s.setBuf c m).fbL = s.fbL := by cases c <;> rfl
@[simp] theorem setBuf_fbR (c : Channel) (m : Memory) (s : State) : (s.setBuf c m).fbR = s.fbR := by cases c <;> rfl
@[simp] theorem setBuf_wh (c : Channel) (m : Memory) (s : State) : (s.setBuf c m).wh = s.wh := by cases c <;> rfl
@[simp] theorem setBuf_st (c : Channel) (m : Memory) (s : State) : (s.setBuf c m).st = s.st := by cases c <;> rfl
@[simp] theorem setBuf_pDryWet (c : Channel) (m : Memory) (s : State) : (s.setBuf c m).pDryWet = s.pDryWet := by cases c <;> rfl
@[simp] theorem setBuf_pFeedback (c : Channel) (m : Memory) (s : State) : (s.setBuf c m).pFeedback = s.pFeedback := by cases c <;> rfl
@[simp] theorem setBuf_pDepth (c : Channel) (m : Memory) (s : State) : (s.setBuf c m).pDepth = s.pDepth := by cases c <;> rfl
@[simp] theorem setBuf_pRate (c : Channel) (m : Memory) (s : State) : (s.setBuf c m).pRate = s.pRate := by cases c <;> rfl
@[simp] theorem setBuf_pPhase (c : Channel) (m : Memory) (s : State) : (s.setBuf c m).pPhase = s.pPhase := by cases c <;> rfl
@[simp] theorem setBuf_pType (c : Channel) (m : Memory) (s : State) : (s.setBuf c m).pType = s.pType := by cases c <;> rfl
@[simp] theorem setBuf_sr (c : Channel) (m : Memory) (s : State) : (s.setBuf c m).sr = s.sr := by cases c <;> rfl
@[simp] theorem setBuf_len (c : Channel) (m : Memory) (s : State) : (s.setBuf c m).len = s.len := by cases c <;> rfl
@[simp] theorem setBuf_flags (c : Channel) (m : Memory) (s : State) : (s.setBuf c m).flags = s.flags := by cases c <;> rfl
@[simp] theorem setBuf_audioIn (c : Channel) (m : Memory) (s : State) : (s.setBuf c m).audioIn = s.audioIn := by cases c <;> rfl
@[simp] theorem setBuf_ctrlIn (c : Channel) (m : Memory) (s : State) : (s.setBuf c m).ctrlIn = s.ctrlIn := by cases c <;> rfl
@[simp] theorem setBuf_audioOut (c : Channel) (m : Memory) (s : State) : (s.setBuf c m).audioOut = s.audioOut := by cases c <;> rfl
@[simp] theorem setBuf_ctrlOut (c : Channel) (m : Memory) (s : State) : (s.setBuf c m).ctrlOut = s.ctrlOut := by cases c <;> rfl
@[simp] theorem setBuf_turn (c : Channel) (m : Memory) (s : State) : (s.setBuf c m).turn = s.turn := by cases c <;> rfl
@[simp] theorem setBuf_grants (c : Channel) (m : Memory) (s : State) : (s.setBuf c m).grants = s.grants := by cases c <;> rfl
@[simp] theorem setBuf_port (c : Channel) (m : Memory) (s : State) : (s.setBuf c m).port = s.port := by cases c <;> rfl
@[simp] theorem setBuf_resetPin (c : Channel) (m : Memory) (s : State) : (s.setBuf c m).resetPin = s.resetPin := by cases c <;> rfl
@[simp] theorem setBuf_nanDraws (c : Channel) (m : Memory) (s : State) : (s.setBuf c m).nanDraws = s.nanDraws := by cases c <;> rfl

/-! ### A parameter register written -/

@[simp] theorem writeParam_cfg (p : Param) (a : Word32) (s : State) : (writeParam p a s).cfg = s.cfg := by cases p <;> rfl
@[simp] theorem writeParam_phase (p : Param) (a : Word32) (s : State) : (writeParam p a s).phase = s.phase := by cases p <;> rfl
@[simp] theorem writeParam_fbL (p : Param) (a : Word32) (s : State) : (writeParam p a s).fbL = s.fbL := by cases p <;> rfl
@[simp] theorem writeParam_fbR (p : Param) (a : Word32) (s : State) : (writeParam p a s).fbR = s.fbR := by cases p <;> rfl
@[simp] theorem writeParam_wh (p : Param) (a : Word32) (s : State) : (writeParam p a s).wh = s.wh := by cases p <;> rfl
@[simp] theorem writeParam_st (p : Param) (a : Word32) (s : State) : (writeParam p a s).st = s.st := by cases p <;> rfl
@[simp] theorem writeParam_sr (p : Param) (a : Word32) (s : State) : (writeParam p a s).sr = s.sr := by cases p <;> rfl
@[simp] theorem writeParam_len (p : Param) (a : Word32) (s : State) : (writeParam p a s).len = s.len := by cases p <;> rfl
@[simp] theorem writeParam_flags (p : Param) (a : Word32) (s : State) : (writeParam p a s).flags = s.flags := by cases p <;> rfl
@[simp] theorem writeParam_bufL (p : Param) (a : Word32) (s : State) : (writeParam p a s).bufL = s.bufL := by cases p <;> rfl
@[simp] theorem writeParam_bufR (p : Param) (a : Word32) (s : State) : (writeParam p a s).bufR = s.bufR := by cases p <;> rfl
@[simp] theorem writeParam_audioIn (p : Param) (a : Word32) (s : State) : (writeParam p a s).audioIn = s.audioIn := by cases p <;> rfl
@[simp] theorem writeParam_ctrlIn (p : Param) (a : Word32) (s : State) : (writeParam p a s).ctrlIn = s.ctrlIn := by cases p <;> rfl
@[simp] theorem writeParam_audioOut (p : Param) (a : Word32) (s : State) : (writeParam p a s).audioOut = s.audioOut := by cases p <;> rfl
@[simp] theorem writeParam_ctrlOut (p : Param) (a : Word32) (s : State) : (writeParam p a s).ctrlOut = s.ctrlOut := by cases p <;> rfl
@[simp] theorem writeParam_turn (p : Param) (a : Word32) (s : State) : (writeParam p a s).turn = s.turn := by cases p <;> rfl
@[simp] theorem writeParam_grants (p : Param) (a : Word32) (s : State) : (writeParam p a s).grants = s.grants := by cases p <;> rfl
@[simp] theorem writeParam_port (p : Param) (a : Word32) (s : State) : (writeParam p a s).port = s.port := by cases p <;> rfl
@[simp] theorem writeParam_resetPin (p : Param) (a : Word32) (s : State) : (writeParam p a s).resetPin = s.resetPin := by cases p <;> rfl
@[simp] theorem writeParam_nanDraws (p : Param) (a : Word32) (s : State) : (writeParam p a s).nanDraws = s.nanDraws := by cases p <;> rfl

/-! ### The datapath reset of PREPARE -/

@[simp] theorem prepareWith_cfg (C : Carrier F32) (n : Nat) (sr : F32) (s : State) : (prepareWith C n sr s).cfg = s.cfg := rfl
@[simp] theorem prepareWith_phase (C : Carrier F32) (n : Nat) (sr : F32) (s : State) : (prepareWith C n sr s).phase = C.zero := rfl
@[simp] theorem prepareWith_fbL (C : Carrier F32) (n : Nat) (sr : F32) (s : State) : (prepareWith C n sr s).fbL = C.zero := rfl
@[simp] theorem prepareWith_fbR (C : Carrier F32) (n : Nat) (sr : F32) (s : State) : (prepareWith C n sr s).fbR = C.zero := rfl
@[simp] theorem prepareWith_wh (C : Carrier F32) (n : Nat) (sr : F32) (s : State) : (prepareWith C n sr s).wh = 0 := rfl
@[simp] theorem prepareWith_st (C : Carrier F32) (n : Nat) (sr : F32) (s : State) : (prepareWith C n sr s).st = .prepared := rfl
@[simp] theorem prepareWith_pDryWet (C : Carrier F32) (n : Nat) (sr : F32) (s : State) : (prepareWith C n sr s).pDryWet = s.pDryWet := rfl
@[simp] theorem prepareWith_pFeedback (C : Carrier F32) (n : Nat) (sr : F32) (s : State) : (prepareWith C n sr s).pFeedback = s.pFeedback := rfl
@[simp] theorem prepareWith_pDepth (C : Carrier F32) (n : Nat) (sr : F32) (s : State) : (prepareWith C n sr s).pDepth = s.pDepth := rfl
@[simp] theorem prepareWith_pRate (C : Carrier F32) (n : Nat) (sr : F32) (s : State) : (prepareWith C n sr s).pRate = s.pRate := rfl
@[simp] theorem prepareWith_pPhase (C : Carrier F32) (n : Nat) (sr : F32) (s : State) : (prepareWith C n sr s).pPhase = s.pPhase := rfl
@[simp] theorem prepareWith_pType (C : Carrier F32) (n : Nat) (sr : F32) (s : State) : (prepareWith C n sr s).pType = s.pType := rfl
@[simp] theorem prepareWith_sr (C : Carrier F32) (n : Nat) (sr : F32) (s : State) : (prepareWith C n sr s).sr = sr := rfl
@[simp] theorem prepareWith_len (C : Carrier F32) (n : Nat) (sr : F32) (s : State) : (prepareWith C n sr s).len = n := rfl
@[simp] theorem prepareWith_flags (C : Carrier F32) (n : Nat) (sr : F32) (s : State) : (prepareWith C n sr s).flags = s.flags := rfl
@[simp] theorem prepareWith_bufL (C : Carrier F32) (n : Nat) (sr : F32) (s : State) : (prepareWith C n sr s).bufL = [] := rfl
@[simp] theorem prepareWith_bufR (C : Carrier F32) (n : Nat) (sr : F32) (s : State) : (prepareWith C n sr s).bufR = [] := rfl
@[simp] theorem prepareWith_audioIn (C : Carrier F32) (n : Nat) (sr : F32) (s : State) : (prepareWith C n sr s).audioIn = s.audioIn := rfl
@[simp] theorem prepareWith_ctrlIn (C : Carrier F32) (n : Nat) (sr : F32) (s : State) : (prepareWith C n sr s).ctrlIn = s.ctrlIn := rfl
@[simp] theorem prepareWith_audioOut (C : Carrier F32) (n : Nat) (sr : F32) (s : State) : (prepareWith C n sr s).audioOut = s.audioOut := rfl
@[simp] theorem prepareWith_ctrlOut (C : Carrier F32) (n : Nat) (sr : F32) (s : State) : (prepareWith C n sr s).ctrlOut = s.ctrlOut := rfl
@[simp] theorem prepareWith_turn (C : Carrier F32) (n : Nat) (sr : F32) (s : State) : (prepareWith C n sr s).turn = s.turn := rfl
@[simp] theorem prepareWith_grants (C : Carrier F32) (n : Nat) (sr : F32) (s : State) : (prepareWith C n sr s).grants = s.grants := rfl
@[simp] theorem prepareWith_port (C : Carrier F32) (n : Nat) (sr : F32) (s : State) : (prepareWith C n sr s).port = s.port := rfl
@[simp] theorem prepareWith_resetPin (C : Carrier F32) (n : Nat) (sr : F32) (s : State) : (prepareWith C n sr s).resetPin = s.resetPin := rfl
@[simp] theorem prepareWith_nanDraws (C : Carrier F32) (n : Nat) (sr : F32) (s : State) : (prepareWith C n sr s).nanDraws = s.nanDraws := rfl

/-! ### Hardware reset -/

@[simp] theorem hardwareReset_cfg (s : State) : (hardwareReset s).cfg = s.cfg := rfl
@[simp] theorem hardwareReset_phase (s : State) : (hardwareReset s).phase = 0 := rfl
@[simp] theorem hardwareReset_fbL (s : State) : (hardwareReset s).fbL = 0 := rfl
@[simp] theorem hardwareReset_fbR (s : State) : (hardwareReset s).fbR = 0 := rfl
@[simp] theorem hardwareReset_wh (s : State) : (hardwareReset s).wh = 0 := rfl
@[simp] theorem hardwareReset_st (s : State) : (hardwareReset s).st = .unprepared := rfl
@[simp] theorem hardwareReset_pDryWet (s : State) : (hardwareReset s).pDryWet = 0x3F000000 := rfl
@[simp] theorem hardwareReset_pFeedback (s : State) : (hardwareReset s).pFeedback = 0x3F000000 := rfl
@[simp] theorem hardwareReset_pDepth (s : State) : (hardwareReset s).pDepth = 0x3F000000 := rfl
@[simp] theorem hardwareReset_pRate (s : State) : (hardwareReset s).pRate = 0x41200000 := rfl
@[simp] theorem hardwareReset_pPhase (s : State) : (hardwareReset s).pPhase = 0 := rfl
@[simp] theorem hardwareReset_pType (s : State) : (hardwareReset s).pType = 0 := rfl
@[simp] theorem hardwareReset_sr (s : State) : (hardwareReset s).sr = 0 := rfl
@[simp] theorem hardwareReset_len (s : State) : (hardwareReset s).len = 0 := rfl
@[simp] theorem hardwareReset_flags (s : State) : (hardwareReset s).flags = Flags.none := rfl
@[simp] theorem hardwareReset_bufL (s : State) : (hardwareReset s).bufL = [] := rfl
@[simp] theorem hardwareReset_bufR (s : State) : (hardwareReset s).bufR = [] := rfl
@[simp] theorem hardwareReset_audioIn (s : State) : (hardwareReset s).audioIn = s.audioIn := rfl
@[simp] theorem hardwareReset_ctrlIn (s : State) : (hardwareReset s).ctrlIn = s.ctrlIn := rfl
@[simp] theorem hardwareReset_audioOut (s : State) : (hardwareReset s).audioOut = s.audioOut := rfl
@[simp] theorem hardwareReset_ctrlOut (s : State) : (hardwareReset s).ctrlOut = s.ctrlOut := rfl
@[simp] theorem hardwareReset_turn (s : State) : (hardwareReset s).turn = s.turn := rfl
@[simp] theorem hardwareReset_grants (s : State) : (hardwareReset s).grants = s.grants := rfl
@[simp] theorem hardwareReset_port (s : State) : (hardwareReset s).port = s.port := rfl
@[simp] theorem hardwareReset_resetPin (s : State) : (hardwareReset s).resetPin = false := rfl
@[simp] theorem hardwareReset_nanDraws (s : State) : (hardwareReset s).nanDraws = s.nanDraws := rfl

/-! ### A command presented for the next step -/

@[simp] theorem withFetchWord_cfg (nbits w : Nat) (s : State) : (s.withFetchWord nbits w).cfg = s.cfg := rfl
@[simp] theorem withFetchWord_phase (nbits w : Nat) (s : State) : (s.withFetchWord nbits w).phase = s.phase := rfl
@[simp] theorem withFetchWord_fbL (nbits w : Nat) (s : State) : (s.withFetchWord nbits w).fbL = s.fbL := rfl
@[simp] theorem withFetchWord_fbR (nbits w : Nat) (s : State) : (s.withFetchWord nbits w).fbR = s.fbR := rfl
@[simp] theorem withFetchWord_wh (nbits w : Nat) (s : State) : (s.withFetchWord nbits w).wh = s.wh := rfl
@[simp] theorem withFetchWord_st (nbits w : Nat) (s : State) : (s.withFetchWord nbits w).st = s.st := rfl
@[simp] theorem withFetchWord_pDryWet (nbits w : Nat) (s : State) : (s.withFetchWord nbits w).pDryWet = s.pDryWet := rfl
@[simp] theorem withFetchWord_pFeedback (nbits w : Nat) (s : State) : (s.withFetchWord nbits w).pFeedback = s.pFeedback := rfl
@[simp] theorem withFetchWord_pDepth (nbits w : Nat) (s : State) : (s.withFetchWord nbits w).pDepth = s.pDepth := rfl
@[simp] theorem withFetchWord_pRate (nbits w : Nat) (s : State) : (s.withFetchWord nbits w).pRate = s.pRate := rfl
@[simp] theorem withFetchWord_pPhase (nbits w : Nat) (s : State) : (s.withFetchWord nbits w).pPhase = s.pPhase := rfl
@[simp] theorem withFetchWord_pType (nbits w : Nat) (s : State) : (s.withFetchWord nbits w).pType = s.pType := rfl
@[simp] theorem withFetchWord_sr (nbits w : Nat) (s : State) : (s.withFetchWord nbits w).sr = s.sr := rfl
@[simp] theorem withFetchWord_len (nbits w : Nat) (s : State) : (s.withFetchWord nbits w).len = s.len := rfl
@[simp] theorem withFetchWord_flags (nbits w : Nat) (s : State) : (s.withFetchWord nbits w).flags = s.flags := rfl
@[simp] theorem withFetchWord_bufL (nbits w : Nat) (s : State) : (s.withFetchWord nbits w).bufL = s.bufL := rfl
@[simp] theorem withFetchWord_bufR (nbits w : Nat) (s : State) : (s.withFetchWord nbits w).bufR = s.bufR := rfl
@[simp] theorem withFetchWord_audioIn (nbits w : Nat) (s : State) : (s.withFetchWord nbits w).audioIn = BitVec.ofNat 72 (w % 2 ^ nbits) :: s.audioIn := rfl
@[simp] theorem withFetchWord_ctrlIn (nbits w : Nat) (s : State) : (s.withFetchWord nbits w).ctrlIn = s.ctrlIn := rfl
@[simp] theorem withFetchWord_audioOut (nbits w : Nat) (s : State) : (s.withFetchWord nbits w).audioOut = s.audioOut := rfl
@[simp] theorem withFetchWord_ctrlOut (nbits w : Nat) (s : State) : (s.withFetchWord nbits w).ctrlOut = s.ctrlOut := rfl
@[simp] theorem withFetchWord_turn (nbits w : Nat) (s : State) : (s.withFetchWord nbits w).turn = .audio := rfl
@[simp] theorem withFetchWord_grants (nbits w : Nat) (s : State) : (s.withFetchWord nbits w).grants = s.grants := rfl
@[simp] theorem withFetchWord_port (nbits w : Nat) (s : State) : (s.withFetchWord nbits w).port = s.port := rfl
@[simp] theorem withFetchWord_resetPin (nbits w : Nat) (s : State) : (s.withFetchWord nbits w).resetPin = false := rfl
@[simp] theorem withFetchWord_nanDraws (nbits w : Nat) (s : State) : (s.withFetchWord nbits w).nanDraws = s.nanDraws := rfl

/-! ### A command granted -/

@[simp] theorem grant_cfg (p : Port) (cw : Word72) (s : State) : ((grant p cw s).2).cfg = s.cfg := rfl
@[simp] theorem grant_phase (p : Port) (cw : Word72) (s : State) : ((grant p cw s).2).phase = s.phase := rfl
@[simp] theorem grant_fbL (p : Port) (cw : Word72) (s : State) : ((grant p cw s).2).fbL = s.fbL := rfl
@[simp] theorem grant_fbR (p : Port) (cw : Word72) (s : State) : ((grant p cw s).2).fbR = s.fbR := rfl
@[simp] theorem grant_wh (p : Port) (cw : Word72) (s : State) : ((grant p cw s).2).wh = s.wh := rfl
@[simp] theorem grant_st (p : Port) (cw : Word72) (s : State) : ((grant p cw s).2).st = s.st := rfl
@[simp] theorem grant_pDryWet (p : Port) (cw : Word72) (s : State) : ((grant p cw s).2).pDryWet = s.pDryWet := rfl
@[simp] theorem grant_pFeedback (p : Port) (cw : Word72) (s : State) : ((grant p cw s).2).pFeedback = s.pFeedback := rfl
@[simp] theorem grant_pDepth (p : Port) (cw : Word72) (s : State) : ((grant p cw s).2).pDepth = s.pDepth := rfl
@[simp] theorem grant_pRate (p : Port) (cw : Word72) (s : State) : ((grant p cw s).2).pRate = s.pRate := rfl
@[simp] theorem grant_pPhase (p : Port) (cw : Word72) (s : State) : ((grant p cw s).2).pPhase = s.pPhase := rfl
@[simp] theorem grant_pType (p : Port) (cw : Word72) (s : State) : ((grant p cw s).2).pType = s.pType := rfl
@[simp] theorem grant_sr (p : Port) (cw : Word72) (s : State) : ((grant p cw s).2).sr = s.sr := rfl
@[simp] theorem grant_len (p : Port) (cw : Word72) (s : State) : ((grant p cw s).2).len = s.len := rfl
@[simp] theorem grant_flags (p : Port) (cw : Word72) (s : State) : ((grant p cw s).2).flags = s.flags := rfl
@[simp] theorem grant_bufL (p : Port) (cw : Word72) (s : State) : ((grant p cw s).2).bufL = s.bufL := rfl
@[simp] theorem grant_bufR (p : Port) (cw : Word72) (s : State) : ((grant p cw s).2).bufR = s.bufR := rfl
@[simp] theorem grant_audioIn (p : Port) (cw : Word72) (s : State) : ((grant p cw s).2).audioIn = s.audioIn := rfl
@[simp] theorem grant_ctrlIn (p : Port) (cw : Word72) (s : State) : ((grant p cw s).2).ctrlIn = s.ctrlIn := rfl
@[simp] theorem grant_audioOut (p : Port) (cw : Word72) (s : State) : ((grant p cw s).2).audioOut = s.audioOut := rfl
@[simp] theorem grant_ctrlOut (p : Port) (cw : Word72) (s : State) : ((grant p cw s).2).ctrlOut = s.ctrlOut := rfl
@[simp] theorem grant_turn (p : Port) (cw : Word72) (s : State) : ((grant p cw s).2).turn = Config.arbiter s.grants := rfl
@[simp] theorem grant_grants (p : Port) (cw : Word72) (s : State) : ((grant p cw s).2).grants = s.grants + 1 := rfl
@[simp] theorem grant_port (p : Port) (cw : Word72) (s : State) : ((grant p cw s).2).port = p := rfl
@[simp] theorem grant_resetPin (p : Port) (cw : Word72) (s : State) : ((grant p cw s).2).resetPin = s.resetPin := rfl
@[simp] theorem grant_nanDraws (p : Port) (cw : Word72) (s : State) : ((grant p cw s).2).nanDraws = s.nanDraws := rfl

end Sys2Proof.Machine
end

