-- ==== Sys2Proof/Laws/Memory.lean ====
section
/-! SUPPORT. The delay RAMs: what a read sees after a write, and that every operation keeps the canonical form (20_memory R62). -/

namespace Sys2Proof.Machine

/-- Every index of a RAM in canonical form lies below its length. -/
theorem Memory.wf_index_lt {len : Nat} {m : Memory} (h : Memory.wf len m = true) : ∀ p ∈ m, p.1 < len := by
  induction m with
  | nil => simp
  | cons x rest ih =>
    obtain ⟨i, v⟩ := x
    simp only [Memory.wf, Bool.and_eq_true, decide_eq_true_eq] at h
    intro p hp
    rcases List.mem_cons.mp hp with rfl | hp
    · exact h.1.1.1
    · exact ih h.2 p hp

/-- An index below every listed index holds `+0.0`. -/
theorem Memory.get_below {i : Nat} {m : Memory} (h : ∀ p ∈ m, i < p.1) : Memory.get i m = 0#32 := by
  induction m with
  | nil => rfl
  | cons x rest ih =>
    obtain ⟨j, v⟩ := x
    have hj : i < j := h (j, v) (by simp)
    simp only [Memory.get, if_neg (Nat.ne_of_gt hj)]
    exact ih (fun p hp => h p (List.mem_cons_of_mem _ hp))

/-- A read of the word just written answers the value written. -/
theorem Memory.get_put_same {len : Nat} (i : Nat) (v : F32) {m : Memory} (h : Memory.wf len m = true) :
    Memory.get i (Memory.put i v m) = v := by
  induction m with
  | nil => by_cases hv : v = 0#32 <;> simp [Memory.put, Memory.get, hv]
  | cons x rest ih =>
    obtain ⟨j, w⟩ := x
    simp only [Memory.wf, Bool.and_eq_true, decide_eq_true_eq, List.all_eq_true] at h
    simp only [Memory.put]
    split
    · rename_i hij
      split
      · rename_i hv
        rw [hv]
        apply Memory.get_below
        intro p hp
        rcases List.mem_cons.mp hp with rfl | hp
        · exact hij
        · exact Nat.lt_trans hij (h.1.2 p hp)
      · simp [Memory.get]
    · split
      · rename_i hij
        subst hij
        split
        · rename_i hv
          rw [hv]
          exact Memory.get_below h.1.2
        · simp [Memory.get]
      · rename_i hne
        simp only [Memory.get, if_neg (Ne.symm hne)]
        exact ih h.2

/-- A write leaves every other word alone. -/
theorem Memory.get_put_other {i k : Nat} (v : F32) (m : Memory) (h : k ≠ i) :
    Memory.get k (Memory.put i v m) = Memory.get k m := by
  induction m with
  | nil => by_cases hv : v = 0#32 <;> simp [Memory.put, Memory.get, hv, Ne.symm h]
  | cons x rest ih =>
    obtain ⟨j, w⟩ := x
    simp only [Memory.put]
    split
    · split
      · rfl
      · simp [Memory.get, Ne.symm h]
    · split
      · rename_i hij
        subst hij
        split <;> simp [Memory.get, Ne.symm h]
      · simp only [Memory.get, ih]

/-- An index below every listed index and below the written one stays below every listed index. -/
theorem Memory.put_above {b i : Nat} (v : F32) {m : Memory} (hi : b < i) (h : ∀ p ∈ m, b < p.1) :
    ∀ p ∈ Memory.put i v m, b < p.1 := by
  induction m with
  | nil =>
    by_cases hv : v = 0#32 <;> simp [Memory.put, hv, hi]
  | cons x rest ih =>
    obtain ⟨j, w⟩ := x
    have hj : b < j := h (j, w) (by simp)
    have hr : ∀ p ∈ rest, b < p.1 := fun p hp => h p (List.mem_cons_of_mem _ hp)
    simp only [Memory.put]
    split
    · split
      · exact h
      · intro p hp
        rcases List.mem_cons.mp hp with rfl | hp
        · exact hi
        · exact h p hp
    · split
      · split
        · exact hr
        · intro p hp
          rcases List.mem_cons.mp hp with rfl | hp
          · exact hi
          · exact hr p hp
      · intro p hp
        rcases List.mem_cons.mp hp with rfl | hp
        · exact hj
        · exact ih hr p hp

/-- A write below the length keeps the canonical form. -/
theorem Memory.put_wf {len i : Nat} (v : F32) {m : Memory} (hi : i < len) (h : Memory.wf len m = true) :
    Memory.wf len (Memory.put i v m) = true := by
  induction m with
  | nil => by_cases hv : v = 0#32 <;> simp [Memory.put, Memory.wf, hv, hi]
  | cons x rest ih =>
    obtain ⟨j, w⟩ := x
    have hfull := h
    simp only [Memory.wf, Bool.and_eq_true, decide_eq_true_eq, List.all_eq_true] at h
    simp only [Memory.put]
    split
    · rename_i hij
      split
      · exact hfull
      · rename_i hv
        rw [Memory.wf, hfull]
        simp only [Bool.and_eq_true, decide_eq_true_eq, List.all_eq_true]
        refine ⟨⟨⟨hi, hv⟩, ?_⟩, trivial⟩
        intro p hp
        rcases List.mem_cons.mp hp with rfl | hp
        · exact hij
        · exact Nat.lt_trans hij (h.1.2 p hp)
    · split
      · rename_i hij
        subst hij
        split
        · exact h.2
        · rename_i hv
          simp only [Memory.wf, Bool.and_eq_true, decide_eq_true_eq, List.all_eq_true]
          exact ⟨⟨⟨hi, hv⟩, h.1.2⟩, h.2⟩
      · rename_i hij hne
        simp only [Memory.wf, Bool.and_eq_true, decide_eq_true_eq, List.all_eq_true]
        exact ⟨⟨h.1.1, Memory.put_above v (by omega) h.1.2⟩, ih h.2⟩

/-- An empty RAM is in canonical form at every length (the state CLEAR leaves, 41 R157). -/
theorem Memory.nil_wf (len : Nat) : Memory.wf len [] = true := rfl

/-! ### The RAM primitives on a state -/

/-- What a RAM write can do: it happens exactly below `LEN`, and then replaces the RAM of its channel by that RAM with the
one word written. -/
theorem memWrite_eq_some {c : Channel} {i : Nat} {v : F32} {s t : State} :
    memWrite c i v s = some t ↔ i < s.len ∧ t = s.setBuf c (Memory.put i v (s.buf c)) := by
  unfold memWrite
  split <;> simp_all [eq_comm]

/-- A write below `LEN` happens. -/
theorem memWrite_of_lt {c : Channel} {i : Nat} {s : State} (v : F32) (h : i < s.len) :
    memWrite c i v s = some (s.setBuf c (Memory.put i v (s.buf c))) := by
  simp [memWrite, h]

/-- A read below `LEN` answers the word. -/
theorem memRead_of_lt {c : Channel} {i : Nat} {s : State} (h : i < s.len) :
    memRead c i s = some (Memory.get i (s.buf c)) := by
  simp [memRead, h]

/-- The RAM of a channel after it is replaced. -/
@[simp] theorem setBuf_buf_same (c : Channel) (m : Memory) (s : State) : (s.setBuf c m).buf c = m := by
  cases c <;> rfl

/-- The RAM of the other channel is left alone. -/
theorem setBuf_buf_other {c d : Channel} (m : Memory) (s : State) (h : d ≠ c) : (s.setBuf c m).buf d = s.buf d := by
  cases c <;> cases d <;> first | rfl | exact absurd rfl h

/-- Replacing the RAM of the other channel leaves a word alone. -/
theorem memRead_setBuf_other {c d : Channel} {i : Nat} (m : Memory) (s : State) (h : d ≠ c) :
    memRead d i (s.setBuf c m) = memRead d i s := by
  simp [memRead, setBuf_buf_other m s h]

end Sys2Proof.Machine
end

