-- ==== Sys2Proof/Laws/Exec.lean ====
section
/-! SUPPORT. What each shared operation can do, said once: SETF, PREPARE, FRAME, one command, the choice of a command, one step. Claims about the machine are derived from these and do not unfold the operations again. -/

namespace Sys2Proof.Machine

/-! ### The parameter commands -/

/-- The bounds and the legality of an `F` parameter as SETF checks them (40 R120 to R125). -/
def paramLegal : Param → F32 → Bool
  | .dryWet, v => unitLegal v
  | .feedback, v => unitLegal v
  | .depth, v => unitLegal v
  | .rate, v => rateLegal v
  | .phase, v => unitLegal v
  | .type, v => decide (v.toNat ≤ 3)

theorem zero_eq : Carrier.f32.zero = 0x00000000#32 := by decide
theorem one_eq : Carrier.f32.one = 0x3F800000#32 := by decide
theorem rateMin_eq : Carrier.f32.rateMin = 0x3DCCCCCD#32 := by decide
theorem rateMax_eq : Carrier.f32.rateMax = 0x41A00000#32 := by decide

/-- The last response on the port of a command is the one it was just answered with (30_encoding R93). -/
theorem lastAnswer_answered (s t : State) (rw : Word72) (h : s.port = t.port) : lastAnswer s (answered t rw) = some rw := by
  unfold lastAnswer
  cases hp : t.port <;> simp [h, hp, audioAfter, ctrlAfter]

/-- The opcode echoed by an error response, as a 32-bit field (60 R251). -/
theorem zext32_opcode (op : BitVec 8) : zext32 op.toNat = op.setWidth 32 := by
  apply BitVec.eq_of_toNat_eq
  simp [zext32]

/-- SRLEGAL is the legality of a sample rate (45 R222). -/
theorem srLegal_eq (sr : F32) : srLegal Carrier.f32 sr = rateOfSampleLegal sr := by
  unfold srLegal
  rw [zero_eq]
  rfl

/-- SETF stores a value inside its bounds and refuses any other (40 R120). -/
theorem setF_eq (p : Param) (lo hi a : F32) (s : State) :
    setF p lo hi a s = if fle32 lo a && fle32 a hi then .next (respond 0x00 0 0 (writeParam p a s))
      else .next (refuse .param (opSet p) 0 s) := rfl

/-- A SET command stores a legal value and refuses any other (40 R120 to R126). -/
theorem exec_setInstr (p : Param) (a : Word32) (s : State) :
    exec (setInstr p a) s = if paramLegal p a then .next (respond 0x00 0 0 (writeParam p a s))
      else .next (refuse .param (opSet p) 0 s) := by
  cases p
  case type =>
    change (if 3 < asU32 a then _ else _) = _
    by_cases h : a.toNat ≤ 3
    · rw [if_neg (show ¬ 3 < asU32 a by unfold asU32; omega), if_pos (show paramLegal .type a = true by simp [paramLegal, h])]
    · rw [if_pos (show 3 < asU32 a by unfold asU32; omega), if_neg (show ¬ paramLegal .type a = true by simp [paramLegal, h])]
  case rate =>
    simp only [setInstr, exec, execSetRate, setF_eq, rateMin_eq, rateMax_eq, paramLegal, rateLegal]
    rfl
  all_goals
    simp only [setInstr, exec, execSetDryWet, execSetFeedback, execSetDepth, execSetPhase, setF_eq, zero_eq, one_eq,
      paramLegal, unitLegal]
    rfl

/-- A GET command answers the register and changes nothing else (40 R127). -/
theorem exec_getInstr (p : Param) (s : State) :
    exec (getInstr p) s = .next (respond 0x00 (readParam p s) 0 s) := by
  cases p <;> rfl

/-! ### PREPARE -/

/-- What PREPARE can do (45 R220): refuse the rate; on the first PREPARE refuse the capacity; or reset the datapath with
the length it found. -/
theorem prepare_cases (C : Carrier F32) (sr : F32) (s : State) :
    (srLegal C sr = false ∧ prepare C sr s = .next (refuse .param opPrepare 0 s)) ∨
    (srLegal C sr = true ∧ s.st = .unprepared ∧ lenFits s.cfg (newLen C s.nanDraws s.cfg sr) = false ∧
      prepare C sr s = .next (refuse .capacity opPrepare 0 s)) ∨
    (srLegal C sr = true ∧ s.st = .unprepared ∧ lenFits s.cfg (newLen C s.nanDraws s.cfg sr) = true ∧
      prepare C sr s = .next (respond 0x00 (zext32 (newLen C s.nanDraws s.cfg sr)) 0
        (prepareWith C (newLen C s.nanDraws s.cfg sr) sr s))) ∨
    (srLegal C sr = true ∧ s.st ≠ .unprepared ∧
      prepare C sr s = .next (respond 0x00 (zext32 s.len) 0 (prepareWith C s.len sr s))) := by
  unfold prepare
  by_cases h1 : srLegal C sr = true
  · by_cases h2 : s.st = .unprepared
    · by_cases h3 : lenFits s.cfg (newLen C s.nanDraws s.cfg sr) = true
      · simp [h1, h2, h3]
      · simp [h1, h2, h3]
    · simp [h1, h2]
  · simp [h1]

/-! ### FRAME -/

/-- The state after both RAM writes of a frame: nothing but the two RAMs differs (45 R215 step 3). -/
def framedRams (C : Carrier F32) (inL inR : F32) (s : State) : State :=
  { s with
    bufL := Memory.put s.wh (frameWritten C .left inL inR s) s.bufL
    bufR := Memory.put s.wh (frameWritten C .right inL inR s) s.bufR }

/-- Both RAM writes happen exactly when the cursor lies below `LEN` (45 R215 step 3). -/
theorem frameWrites_eq (C : Carrier F32) (inL inR : F32) (s : State) :
    frameWrites C inL inR s = if s.wh < s.len then some (framedRams C inL inR s) else none := by
  unfold frameWrites bufWrite memWrite
  by_cases h : s.wh < s.len
  · simp [h, State.setBuf, State.buf, framedRams]
  · simp [h]

/-- What FRAME can do in a next state (45 R215): refuse before the first PREPARE, refuse a read position, or complete. -/
theorem frame_next_cases {C : Carrier F32} {inL inR : F32} {s t : State} (h : frame C inL inR s = .next t) :
    (s.st = .unprepared ∧ t = refuse .unprep opFrame 0 s) ∨
    (s.st ≠ .unprepared ∧ frameBad C s ≠ 0 ∧ t = refuse .range opFrame (frameBad C s) s) ∨
    (s.st ≠ .unprepared ∧ frameBad C s = 0 ∧ s.wh < s.len ∧ ∃ yL yR,
      frameDelayed C .left (framedRams C inL inR s) = some yL ∧
      frameDelayed C .right (framedRams C inL inR s) = some yR ∧
      t = frameFinish C inL inR yL yR (framedRams C inL inR s)) := by
  unfold frame at h
  by_cases h1 : s.st = .unprepared
  · left
    simpa [h1, eq_comm] using h
  · by_cases h2 : frameBad C s ≠ 0
    · right; left
      rw [if_neg h1, if_pos h2] at h
      exact ⟨h1, h2, by simpa [eq_comm] using h⟩
    · right; right
      rw [if_neg h1, if_neg h2, frameWrites_eq] at h
      by_cases h3 : s.wh < s.len
      · rw [if_pos h3] at h
        simp only at h
        split at h
        · rename_i yL yR hL hR
          exact ⟨h1, not_not.mp h2, h3, yL, yR, hL, hR, by simpa [eq_comm] using h⟩
        · cases h
      · rw [if_neg h3] at h
        cases h

/-! ### One command -/

/-- Why a command is refused, with which code and which information word (60_exceptions R251 to R256). -/
inductive Refused (i : Instr) (s : State) : ErrorCode → Word32 → Prop where
  /-- a SET value outside its legal set (60 R254) -/
  | badValue (p : Param) (a : Word32) (hi : i = setInstr p a) (hl : paramLegal p a = false) : Refused i s .param 0
  /-- an illegal sample rate (60 R254) -/
  | badRate (sr : F32) (bs : Word32) (hi : i = .prepare sr bs) (hl : srLegal Carrier.f32 sr = false) : Refused i s .param 0
  /-- a first PREPARE whose length does not fit (60 R256) -/
  | noRoom (sr : F32) (bs : Word32) (hi : i = .prepare sr bs) (hl : srLegal Carrier.f32 sr = true)
      (hu : s.st = .unprepared) (hf : lenFits s.cfg (newLen Carrier.f32 s.nanDraws s.cfg sr) = false) :
      Refused i s .capacity 0
  /-- a frame before the first PREPARE (60 R252) -/
  | notPrepared (inL inR : F32) (hi : i = .frame inL inR) (hu : s.st = .unprepared) : Refused i s .unprep 0
  /-- a frame with a read position out of range (60 R255) -/
  | outOfRange (inL inR : F32) (hi : i = .frame inL inR) (hu : s.st ≠ .unprepared) (hb : frameBad Carrier.f32 s ≠ 0) :
      Refused i s .range (frameBad Carrier.f32 s)

/-- Everything one command can do to the state, in a next state (00_scope R13). -/
inductive Effect (i : Instr) (s t : State) : Prop where
  /-- the command is refused (60 R250) -/
  | refused (e : ErrorCode) (info : Word32) (hc : Refused i s e info) (h : t = refuse e (encodeFields i).op info s)
  /-- a SET stores a legal value (40 R120, R126) -/
  | stored (p : Param) (a : Word32) (hi : i = setInstr p a) (hl : paramLegal p a = true)
      (h : t = respond 0x00 0 0 (writeParam p a s))
  /-- a GET answers a register (40 R127) -/
  | got (p : Param) (hi : i = getInstr p) (h : t = respond 0x00 (readParam p s) 0 s)
  /-- GETST answers the status (40 R134) -/
  | gotStatus (hi : i = .getst) (h : t = respond 0x00 (statusWord s.flags s.st) 0 s)
  /-- the first PREPARE fixes the length (45 R220, R221) -/
  | preparedFirst (sr : F32) (bs : Word32) (hi : i = .prepare sr bs) (hl : srLegal Carrier.f32 sr = true)
      (hu : s.st = .unprepared) (hf : lenFits s.cfg (newLen Carrier.f32 s.nanDraws s.cfg sr) = true)
      (h : t = respond 0x00 (zext32 (newLen Carrier.f32 s.nanDraws s.cfg sr)) 0
        (prepareWith Carrier.f32 (newLen Carrier.f32 s.nanDraws s.cfg sr) sr s))
  /-- a later PREPARE keeps the length (45 R223) -/
  | preparedAgain (sr : F32) (bs : Word32) (hi : i = .prepare sr bs) (hl : srLegal Carrier.f32 sr = true)
      (hu : s.st ≠ .unprepared) (h : t = respond 0x00 (zext32 s.len) 0 (prepareWith Carrier.f32 s.len sr s))
  /-- a frame completes (45 R215) -/
  | framed (inL inR yL yR : F32) (hi : i = .frame inL inR) (hu : s.st ≠ .unprepared)
      (hb : frameBad Carrier.f32 s = 0) (hw : s.wh < s.len)
      (hL : frameDelayed Carrier.f32 .left (framedRams Carrier.f32 inL inR s) = some yL)
      (hR : frameDelayed Carrier.f32 .right (framedRams Carrier.f32 inL inR s) = some yR)
      (h : t = frameFinish Carrier.f32 inL inR yL yR (framedRams Carrier.f32 inL inR s))

/-- An effect of a SET command. -/
theorem effect_set {p : Param} {a : Word32} {s t : State} (h : exec (setInstr p a) s = .next t) :
    Effect (setInstr p a) s t := by
  rw [exec_setInstr] at h
  split at h
  · rename_i hl
    exact .stored p a rfl hl (by simpa [eq_comm] using h)
  · rename_i hl
    injection h with h
    exact .refused .param 0 (.badValue p a rfl (by simpa using hl)) (by cases p <;> exact h.symm)

/-- An effect of a GET command. -/
theorem effect_get {p : Param} {s t : State} (h : exec (getInstr p) s = .next t) : Effect (getInstr p) s t := by
  rw [exec_getInstr] at h
  exact .got p rfl (by simpa [eq_comm] using h)

/-- WHAT A COMMAND CAN DO: a next state of `exec` comes about in one of these ways alone. -/
theorem exec_cases {i : Instr} {s t : State} (h : exec i s = .next t) : Effect i s t := by
  cases i with
  | prepare sr bs =>
    have he : exec (.prepare sr bs) s = prepare Carrier.f32 sr s := rfl
    rw [he] at h
    rcases prepare_cases Carrier.f32 sr s with ⟨hl, h1⟩ | ⟨hl, hu, hf, h1⟩ | ⟨hl, hu, hf, h1⟩ | ⟨hl, hu, h1⟩ <;>
      rw [h1] at h <;> injection h with h
    · exact .refused .param 0 (.badRate sr bs rfl hl) h.symm
    · exact .refused .capacity 0 (.noRoom sr bs rfl hl hu hf) h.symm
    · exact .preparedFirst sr bs rfl hl hu hf h.symm
    · exact .preparedAgain sr bs rfl hl hu h.symm
  | frame inL inR =>
    rcases frame_next_cases (C := Carrier.f32) h with ⟨hu, h1⟩ | ⟨hu, hb, h1⟩ | ⟨hu, hb, hw, yL, yR, hL, hR, h1⟩
    · exact .refused .unprep 0 (.notPrepared inL inR rfl hu) h1
    · exact .refused .range _ (.outOfRange inL inR rfl hu hb) h1
    · exact .framed inL inR yL yR rfl hu hb hw hL hR h1
  | setDryWet v => exact effect_set (p := .dryWet) h
  | setFeedback v => exact effect_set (p := .feedback) h
  | setDepth v => exact effect_set (p := .depth) h
  | setRate v => exact effect_set (p := .rate) h
  | setPhase v => exact effect_set (p := .phase) h
  | setType n => exact effect_set (p := .type) h
  | getDryWet => exact effect_get (p := .dryWet) h
  | getFeedback => exact effect_get (p := .feedback) h
  | getDepth => exact effect_get (p := .depth) h
  | getRate => exact effect_get (p := .rate) h
  | getPhase => exact effect_get (p := .phase) h
  | getType => exact effect_get (p := .type) h
  | getst => exact .gotStatus rfl (by simpa [exec, execGetst, eq_comm] using h)

/-! ### One step -/

/-- A command is granted in one of three ways (00_scope R14): only `AUDIO` has one, only `CTRL` has one, or both have one
and the turn decides. Nothing but the queue of that port and the bookkeeping of the grant changes. -/
theorem takeCommand_cases {s t : State} {cw : Word72} (h : takeCommand s = some (cw, t)) :
    (∃ rest, s.audioIn = cw :: rest ∧ (s.ctrlIn = [] ∨ s.turn = .audio) ∧
      t = (grant .audio cw { s with audioIn := rest }).2) ∨
    (∃ rest, s.ctrlIn = cw :: rest ∧ (s.audioIn = [] ∨ s.turn = .ctrl) ∧
      t = (grant .ctrl cw { s with ctrlIn := rest }).2) := by
  unfold takeCommand at h
  split at h
  · cases h
  · rename_i c rest ha hc
    simp only [grant, Option.some.injEq, Prod.mk.injEq] at h
    obtain ⟨rfl, rfl⟩ := h
    exact .inl ⟨rest, ha, .inl hc, rfl⟩
  · rename_i c rest ha hc
    simp only [grant, Option.some.injEq, Prod.mk.injEq] at h
    obtain ⟨rfl, rfl⟩ := h
    exact .inr ⟨rest, hc, .inl ha, rfl⟩
  · rename_i a as c cs ha hc
    split at h
    · rename_i ht
      simp only [grant, Option.some.injEq, Prod.mk.injEq] at h
      obtain ⟨rfl, rfl⟩ := h
      exact .inl ⟨as, ha, .inr ht, rfl⟩
    · rename_i ht
      simp only [grant, Option.some.injEq, Prod.mk.injEq] at h
      obtain ⟨rfl, rfl⟩ := h
      exact .inr ⟨cs, hc, .inr ht, rfl⟩

/-- WHAT A STEP CAN DO: hardware reset, nothing, the refusal of an illegal word, or one command. -/
theorem step_cases {s : State} {o : Host.Outcome State Fault Refusal} (h : step s = o) :
    (s.resetPin = true ∧ o = .next (hardwareReset s)) ∨
    (s.resetPin = false ∧ takeCommand s = none ∧ o = .next s) ∨
    (s.resetPin = false ∧ ∃ cw t, takeCommand s = some (cw, t) ∧
      ((∃ e, decode cw = .error e ∧ o = .next (refuseIllegal cw t)) ∨ (∃ i, decode cw = .ok i ∧ o = exec i t))) := by
  subst h
  unfold step
  by_cases hr : s.resetPin = true
  · left; simp [hr]
  · simp only [Bool.not_eq_true] at hr
    right
    rw [hr, if_neg (by decide)]
    simp only [true_and]
    cases ht : takeCommand s with
    | none => left; simp
    | some x =>
      obtain ⟨cw, t⟩ := x
      right
      refine ⟨cw, t, rfl, ?_⟩
      cases hd : decode cw with
      | ok i => exact .inr ⟨i, rfl, by simp [runWord, hd]⟩
      | error e => exact .inl ⟨e, rfl, by simp [runWord, hd]⟩

end Sys2Proof.Machine
end

