-- ==== Sys2Proof/Laws/Frame.lean ====
section
/-! SUPPORT. The parts of FRAME written out: which draw each operation of a channel takes, which operands it reads, and when the interpolated reads exist (45_frame_and_prepare R215). -/

namespace Sys2Proof.Machine

/-! ### The parts of a frame, channel by channel -/

theorem frameWritten_left (inL inR : F32) (s : State) :
    frameWritten Carrier.f32 .left inL inR s = fadd32 s.nanDraws inL s.fbL := rfl

theorem frameWritten_right (inL inR : F32) (s : State) :
    frameWritten Carrier.f32 .right inL inR s = fadd32 (s.nanDraws + 32) inR s.fbR := rfl

theorem frameLfoValue_left (s : State) : frameLfoValue Carrier.f32 .left s
    = fmul32 (s.nanDraws + 4) (fsin32 (fmul32 (s.nanDraws + 1) twoPi32 s.phase)) s.pDepth := rfl

theorem frameLfoValue_right (s : State) : frameLfoValue Carrier.f32 .right s
    = fmul32 (s.nanDraws + 36)
        (fsin32 (fmul32 (s.nanDraws + 33) twoPi32 (rightPhase Carrier.f32 (s.nanDraws + 34) s.phase s.pPhase)))
        s.pDepth := rfl

theorem frameLfo_phase (C : Carrier F32) (s : State) :
    (frameLfo C s).2.2 = phaseAdv C (s.nanDraws + 24) s.phase s.sr s.pRate := rfl

theorem frameDelay_left (C : Carrier F32) (s : State) :
    frameDelay C .left s = delaySamples C (s.nanDraws + 5) (frameLfoValue C .left s) s.pType s.sr := rfl

theorem frameDelay_right (C : Carrier F32) (s : State) :
    frameDelay C .right s = delaySamples C (s.nanDraws + 37) (frameLfoValue C .right s) s.pType s.sr := rfl

theorem framePos_left (C : Carrier F32) (s : State) :
    framePos C .left s = readPos C (s.nanDraws + 12) s.wh s.len (frameDelay C .left s) := rfl

theorem framePos_right (C : Carrier F32) (s : State) :
    framePos C .right s = readPos C (s.nanDraws + 44) s.wh s.len (frameDelay C .right s) := rfl

theorem frameDelayed_left (C : Carrier F32) (s : State) : frameDelayed C .left s
    = interp C (s.nanDraws + 14) s.len (fun i => memRead .left i s) (framePos C .left s) := rfl

theorem frameDelayed_right (C : Carrier F32) (s : State) : frameDelayed C .right s
    = interp C (s.nanDraws + 46) s.len (fun i => memRead .right i s) (framePos C .right s) := rfl

theorem frameFeedback_left (y : F32) (s : State) :
    frameFeedback Carrier.f32 .left y s = fmul32 (s.nanDraws + 19) y s.pFeedback := rfl

theorem frameFeedback_right (y : F32) (s : State) :
    frameFeedback Carrier.f32 .right y s = fmul32 (s.nanDraws + 51) y s.pFeedback := rfl

theorem frameOut_left (C : Carrier F32) (inp y : F32) (s : State) :
    enc32 (frameOut C .left inp y s) = mix C (s.nanDraws + 20) inp y s.pDryWet := rfl

theorem frameOut_right (C : Carrier F32) (inp y : F32) (s : State) :
    enc32 (frameOut C .right inp y s) = mix C (s.nanDraws + 52) inp y s.pDryWet := rfl

/-- The RAM writes of a frame do not move its read positions. -/
theorem framePos_framedRams (c : Channel) (C : Carrier F32) (inL inR : F32) (s : State) :
    framePos C c (framedRams C inL inR s) = framePos C c s := by
  cases c <;> rfl

/-- The end of a frame, field by field: nothing else differs from the state after the RAM writes (45 R215 steps 7 to 9). -/
theorem frameFinish_eq (C : Carrier F32) (inL inR yL yR : F32) (s : State) :
    frameFinish C inL inR yL yR s
      = { answered s (packWord 0x00 (enc32 (frameOut C .left inL yL s)) (enc32 (frameOut C .right inR yR s))) with
          fbL := frameFeedback C .left yL s
          fbR := frameFeedback C .right yR s
          phase := (frameLfo C s).2.2
          wh := advance s.wh s.len
          st := .processing
          nanDraws := s.nanDraws + 64 } := by
  unfold frameFinish
  rw [respond_eq]
  rfl

/-! ### The range check -/

/-- The information word of `E_RANGE` is zero exactly when both channels are in range (60 R255). -/
theorem frameBad_eq_zero (C : Carrier F32) (s : State) :
    frameBad C s = 0 ↔ frameRangeOk C .left s = true ∧ frameRangeOk C .right s = true := by
  unfold frameBad
  cases frameRangeOk C .left s <;> cases frameRangeOk C .right s <;> decide

/-- The information word of `E_RANGE` is 0, 1, 2 or 3 (60 R251). -/
theorem frameBad_cases (C : Carrier F32) (s : State) :
    frameBad C s = 0 ∨ frameBad C s = 1 ∨ frameBad C s = 2 ∨ frameBad C s = 3 := by
  unfold frameBad
  cases frameRangeOk C .left s <;> cases frameRangeOk C .right s <;> decide

/-- The range check of the hardware's carrier (41 R154). -/
theorem rangeOk_f32 (len : Nat) (pos : F32) : rangeOk Carrier.f32 len pos = finIdx32 pos len := rfl

/-- The range check of a finite number that is not negative is a comparison of its integer part (00_scope R6). -/
theorem finIdx32_of_finite {p : F32} {L : Nat} (hp : isFin p = true) (h0 : signBit p = false) :
    finIdx32 p L = decide (ffloor32 p < L) := by
  have hn : isNan p = false := by
    rw [Bool.eq_false_iff, ne_eq, isNan_iff]
    have := (isFin_iff p).mp hp
    omega
  have hv : value p = units p := by simp [value, h0]
  have e1 : ((units p : Int) < (L : Int) * 2 ^ 149) ↔ units p < L * 2 ^ 149 := by exact_mod_cast Iff.rfl
  have e2 : (0 : Int) ≤ (units p : Int) := by positivity
  unfold finIdx32 ffloor32
  rw [hn, hv]
  simp only [Bool.not_false, Bool.true_and, Nat.div_lt_iff_lt_mul (show 0 < 2 ^ 149 by decide), e1, e2, decide_true]

/-- The integer part of an index in range is below the bound (00_scope R6). -/
theorem ffloor32_lt {p : F32} {L : Nat} (h : finIdx32 p L = true) : ffloor32 p < L := by
  simp only [finIdx32, Bool.and_eq_true, decide_eq_true_eq] at h
  obtain ⟨⟨-, h0⟩, h1⟩ := h
  rw [ffloor32, Nat.div_lt_iff_lt_mul (by decide)]
  have hu : (units p : Int) = value p := by
    unfold value at *
    split <;> simp_all
  have h2 : (units p : Int) < ((L * 2 ^ 149 : Nat) : Int) := by
    rw [hu]
    exact_mod_cast h1
  exact_mod_cast h2

/-- The lower index of a position in range (41 R152, R154). -/
theorem lowerIndex_lt {len : Nat} {pos : F32} (h : rangeOk Carrier.f32 len pos = true) :
    lowerIndex Carrier.f32 pos < len := ffloor32_lt h

/-- The next index around the ring stays in the ring (41 R152, R153). -/
theorem nextIndex_lt {len i : Nat} (h : i < len) : nextIndex len i < len := by
  unfold nextIndex
  split <;> omega

/-- An interpolated read at a position in range finds both words (41 R152). -/
theorem interp_some {n len : Nat} {read : Nat → Option F32} {pos : F32} (h : rangeOk Carrier.f32 len pos = true)
    (hr : ∀ i, i < len → ∃ v, read i = some v) : ∃ y, interp Carrier.f32 n len read pos = some y := by
  obtain ⟨v0, h0⟩ := hr _ (lowerIndex_lt h)
  obtain ⟨v1, h1⟩ := hr _ (nextIndex_lt (lowerIndex_lt h))
  unfold interp
  simp only [h0, h1]
  exact ⟨_, rfl⟩

/-- Both delayed samples exist after the writes of a frame whose positions are in range (45 R215 step 6). -/
theorem frameDelayed_some {c : Channel} {inL inR : F32} {s : State} (h : frameRangeOk Carrier.f32 c s = true) :
    ∃ y, frameDelayed Carrier.f32 c (framedRams Carrier.f32 inL inR s) = some y := by
  unfold frameDelayed
  rw [framePos_framedRams]
  exact interp_some h (fun i hi => ⟨_, memRead_of_lt hi⟩)

/-- A frame that passes the range check and finds every word it reads completes (45 R215). -/
theorem frame_of_delayed {C : Carrier F32} {inL inR yL yR : F32} {s : State} (hu : s.st ≠ .unprepared)
    (hw : s.wh < s.len) (hb : frameBad C s = 0) (hL : frameDelayed C .left (framedRams C inL inR s) = some yL)
    (hR : frameDelayed C .right (framedRams C inL inR s) = some yR) :
    frame C inL inR s = .next (frameFinish C inL inR yL yR (framedRams C inL inR s)) := by
  unfold frame
  rw [if_neg hu, if_neg (not_not.mpr hb), frameWrites_eq, if_pos hw]
  simp only [hL, hR]

/-- A frame whose positions are in range and whose cursor lies in the buffer completes (45 R215). -/
theorem frame_completes {inL inR : F32} {s : State} (hu : s.st ≠ .unprepared) (hw : s.wh < s.len)
    (hl : frameRangeOk Carrier.f32 .left s = true) (hr : frameRangeOk Carrier.f32 .right s = true) :
    ∃ yL yR, frameDelayed Carrier.f32 .left (framedRams Carrier.f32 inL inR s) = some yL ∧
      frameDelayed Carrier.f32 .right (framedRams Carrier.f32 inL inR s) = some yR ∧
      frame Carrier.f32 inL inR s = .next (frameFinish Carrier.f32 inL inR yL yR (framedRams Carrier.f32 inL inR s)) := by
  obtain ⟨yL, hL⟩ := frameDelayed_some (inL := inL) (inR := inR) hl
  obtain ⟨yR, hR⟩ := frameDelayed_some (inL := inL) (inR := inR) hr
  exact ⟨yL, yR, hL, hR, frame_of_delayed hu hw ((frameBad_eq_zero _ _).mpr ⟨hl, hr⟩) hL hR⟩

end Sys2Proof.Machine
end

