-- ==== Sys2Proof/Laws/PerInstr.lean ====
section
/-! SUPPORT. A statement about every command, one lemma per constructor: what it encodes to is a well-formed command (30_encoding R91, R95). -/

namespace Sys2Proof.Laws.EncodeWellFormed

/-- The fields a command assembles to have a known opcode and zero in every `MBZ` field. -/
def Statement (i : Instr) : Prop := (encodeFields i).wellFormed = true

theorem prepare (x y : Word32) : Statement (.prepare x y) := by
  simp [Statement, encodeFields, Command.wellFormed, opcodeKnown, mustBeZeroA, mustBeZeroB]

theorem frame (x y : Word32) : Statement (.frame x y) := by
  simp [Statement, encodeFields, Command.wellFormed, opcodeKnown, mustBeZeroA, mustBeZeroB]

theorem setDryWet (x : Word32) : Statement (.setDryWet x) := by
  simp [Statement, encodeFields, Command.wellFormed, opcodeKnown, mustBeZeroA, mustBeZeroB]

theorem setFeedback (x : Word32) : Statement (.setFeedback x) := by
  simp [Statement, encodeFields, Command.wellFormed, opcodeKnown, mustBeZeroA, mustBeZeroB]

theorem setDepth (x : Word32) : Statement (.setDepth x) := by
  simp [Statement, encodeFields, Command.wellFormed, opcodeKnown, mustBeZeroA, mustBeZeroB]

theorem setRate (x : Word32) : Statement (.setRate x) := by
  simp [Statement, encodeFields, Command.wellFormed, opcodeKnown, mustBeZeroA, mustBeZeroB]

theorem setPhase (x : Word32) : Statement (.setPhase x) := by
  simp [Statement, encodeFields, Command.wellFormed, opcodeKnown, mustBeZeroA, mustBeZeroB]

theorem setType (x : Word32) : Statement (.setType x) := by
  simp [Statement, encodeFields, Command.wellFormed, opcodeKnown, mustBeZeroA, mustBeZeroB]

theorem getDryWet : Statement (.getDryWet) := by
  simp [Statement, encodeFields, Command.wellFormed, opcodeKnown, mustBeZeroA, mustBeZeroB]

theorem getFeedback : Statement (.getFeedback) := by
  simp [Statement, encodeFields, Command.wellFormed, opcodeKnown, mustBeZeroA, mustBeZeroB]

theorem getDepth : Statement (.getDepth) := by
  simp [Statement, encodeFields, Command.wellFormed, opcodeKnown, mustBeZeroA, mustBeZeroB]

theorem getRate : Statement (.getRate) := by
  simp [Statement, encodeFields, Command.wellFormed, opcodeKnown, mustBeZeroA, mustBeZeroB]

theorem getPhase : Statement (.getPhase) := by
  simp [Statement, encodeFields, Command.wellFormed, opcodeKnown, mustBeZeroA, mustBeZeroB]

theorem getType : Statement (.getType) := by
  simp [Statement, encodeFields, Command.wellFormed, opcodeKnown, mustBeZeroA, mustBeZeroB]

theorem getst : Statement (.getst) := by
  simp [Statement, encodeFields, Command.wellFormed, opcodeKnown, mustBeZeroA, mustBeZeroB]

end Sys2Proof.Laws.EncodeWellFormed
end

