-- ==== Sys2Proof/Laws/Words.lean ====
section
/-! SUPPORT. The fields of a packed word, and a word put together again from its fields (30_encoding R90, R93). -/

namespace Sys2Proof

/-- A packed word as a number: the opcode byte above the two fields. -/
theorem packWord_toNat (x : BitVec 8) (a b : Word32) :
    (packWord x a b).toNat = x.toNat * 2 ^ 64 + a.toNat * 2 ^ 32 + b.toNat := by
  have hx := x.isLt
  have ha := a.isLt
  have hb := b.isLt
  change ((x ++ a : BitVec 40) ++ b : BitVec 72).toNat = _
  rw [BitVec.toNat_append, BitVec.toNat_append, ← Nat.shiftLeft_add_eq_or_of_lt hb, Nat.shiftLeft_eq,
    ← Nat.shiftLeft_add_eq_or_of_lt ha, Nat.shiftLeft_eq]
  omega

theorem opField_toNat (cw : Word72) : (opField cw).toNat = cw.toNat / 2 ^ 64 := by
  have h := cw.isLt
  simp only [opField, BitVec.extractLsb'_toNat, Nat.shiftRight_eq_div_pow]
  omega

theorem aField_toNat (cw : Word72) : (aField cw).toNat = cw.toNat / 2 ^ 32 % 2 ^ 32 := by
  simp only [aField, BitVec.extractLsb'_toNat, Nat.shiftRight_eq_div_pow]

theorem bField_toNat (cw : Word72) : (bField cw).toNat = cw.toNat % 2 ^ 32 := by
  simp only [bField, BitVec.extractLsb'_toNat, Nat.shiftRight_eq_div_pow, Nat.pow_zero, Nat.div_one]

/-- The opcode byte of a packed word. -/
@[simp] theorem opField_packWord (x : BitVec 8) (a b : Word32) : opField (packWord x a b) = x := by
  have hx := x.isLt
  have ha := a.isLt
  have hb := b.isLt
  apply BitVec.eq_of_toNat_eq
  rw [opField_toNat, packWord_toNat]
  omega

/-- The field `a` of a packed word. -/
@[simp] theorem aField_packWord (x : BitVec 8) (a b : Word32) : aField (packWord x a b) = a := by
  have ha := a.isLt
  have hb := b.isLt
  apply BitVec.eq_of_toNat_eq
  rw [aField_toNat, packWord_toNat]
  omega

/-- The field `b` of a packed word. -/
@[simp] theorem bField_packWord (x : BitVec 8) (a b : Word32) : bField (packWord x a b) = b := by
  have hb := b.isLt
  apply BitVec.eq_of_toNat_eq
  rw [bField_toNat, packWord_toNat]
  omega

/-- A word is the packing of its three fields: the format has no other bits (30_encoding R90). -/
theorem packWord_fields (cw : Word72) : packWord (opField cw) (aField cw) (bField cw) = cw := by
  have h := cw.isLt
  apply BitVec.eq_of_toNat_eq
  rw [packWord_toNat, opField_toNat, aField_toNat, bField_toNat]
  omega

/-- Decoding a packed word is decoding its fields (30_encoding R100). -/
theorem decode_packWord (op : BitVec 8) (a b : Word32) : decode (packWord op a b) = decodeFields op a b := by
  simp only [decode, opField_packWord, aField_packWord, bField_packWord]

/-- WHAT THE DECODER ACCEPTS: the fields of a command, with its own opcode and its own operands (30_encoding R100). -/
theorem decodeFields_ok {op : BitVec 8} {a b : Word32} {i : Instr} (h : decodeFields op a b = .ok i) :
    op = (encodeFields i).op ∧ a = (encodeFields i).a ∧ b = (encodeFields i).b := by
  unfold decodeFields at h
  split at h
  all_goals try simp only [checkAB, checkB] at h
  all_goals (repeat' (split at h))
  all_goals simp only [Except.ok.injEq, reduceCtorEq] at h
  all_goals subst h
  all_goals refine ⟨BitVec.eq_of_toNat_eq ‹_›, by simp_all [encodeFields], by simp_all [encodeFields]⟩

end Sys2Proof
end

