-- ==== Sys2Proof/Tests/Slice0.lean ====
section
/-! SUPPORT. The author's own tests: the smoke tests of WellFormed, decoding of written-out words, vectors of the spec's section 95, and a witness for every statement that has hypotheses. Every expected result is the spec's own. -/

namespace Sys2Proof.Tests

-- The kernel evaluations below run one after another: side by side their threads can fill the memory limit.
set_option Elab.async false

open Sys2Proof.Machine

/-! ### Well-formedness: one ill-formed command for each check (30_encoding R96, R98) -/

theorem test_wf_group0_unknown : (Command.mk 0x03 0 0).wellFormed = false := by decide
theorem test_wf_group1_unknown : (Command.mk 0x16 0 0).wellFormed = false := by decide
theorem test_wf_group2_unknown : (Command.mk 0x26 0 0).wellFormed = false := by decide
theorem test_wf_group3_unknown : (Command.mk 0x31 0 0).wellFormed = false := by decide
theorem test_wf_group_unknown : (Command.mk 0xFF 0xFFFFFFFF 0xFFFFFFFF).wellFormed = false := by decide
theorem test_wf_set_b : (Command.mk 0x10 0x3F000000 1).wellFormed = false := by decide
theorem test_wf_get_a : (Command.mk 0x20 1 0).wellFormed = false := by decide
theorem test_wf_getst_b : (Command.mk 0x30 0 1).wellFormed = false := by decide
theorem test_wf_set_value_out_of_range : (Command.mk 0x13 0 0).wellFormed = true := by decide

/-! ### Decoding: one written-out word per constructor (30_encoding R95, R101) -/

theorem test_decode_prepare : decode 0x01472C440000000200 = .ok (.prepare 0x472C4400 512) := by decide
theorem test_decode_frame : decode 0x023F800000BECCCCCD = .ok (.frame 0x3F800000 0xBECCCCCD) := by decide
theorem test_decode_set_drywet : decode 0x103E80000000000000 = .ok (.setDryWet 0x3E800000) := by decide
theorem test_decode_set_feedback : decode 0x113F00000000000000 = .ok (.setFeedback 0x3F000000) := by decide
theorem test_decode_set_depth : decode 0x123F80000000000000 = .ok (.setDepth 0x3F800000) := by decide
theorem test_decode_set_rate : decode 0x1341A0000000000000 = .ok (.setRate 0x41A00000) := by decide
theorem test_decode_set_phase : decode 0x143E80000000000000 = .ok (.setPhase 0x3E800000) := by decide
theorem test_decode_set_type : decode 0x150000000300000000 = .ok (.setType 3) := by decide
theorem test_decode_get_drywet : decode 0x200000000000000000 = .ok .getDryWet := by decide
theorem test_decode_get_feedback : decode 0x210000000000000000 = .ok .getFeedback := by decide
theorem test_decode_get_depth : decode 0x220000000000000000 = .ok .getDepth := by decide
theorem test_decode_get_rate : decode 0x230000000000000000 = .ok .getRate := by decide
theorem test_decode_get_phase : decode 0x240000000000000000 = .ok .getPhase := by decide
theorem test_decode_get_type : decode 0x250000000000000000 = .ok .getType := by decide
theorem test_decode_getst : decode 0x300000000000000000 = .ok .getst := by decide

/-- Words the decoder refuses, each by its name (30_encoding R98; 95 section 2.1 rows 21 to 28). -/
theorem test_decode_refuses :
    decode 0 = .error .unknownOpcode ∧ decode 0x160000000000000000 = .error .unknownOpcode ∧
    decode 0xFFFFFFFFFFFFFFFFFF = .error .unknownOpcode ∧ decode 0x103F00000000000001 = .error .nonZeroB ∧
    decode 0x200000000100000000 = .error .nonZeroA ∧ decode 0x250000000080000000 = .error .nonZeroB := by decide

theorem test_decodeTableWord : decodeTableWord 72 0x023F8000003F000000 = some (.frame 0x3F800000 0x3F000000) := by decide

/-- No two rows of the opcode table share a mnemonic or a value (30_encoding R97). -/
theorem test_table_distinct : (opcodeTable.map TableRow.value).Nodup ∧ (opcodeTable.map TableRow.mnemonic).Nodup := by
  decide

/-- Assembler lines and their words (30_encoding R101). -/
theorem test_assemble :
    (AsmLine.prepare none (.dec 44100 1) 512).assemble = (.audio, 0x01472C440000000200) ∧
    (AsmLine.frame none (.dec 1 1) (.dec (-4) 10)).assemble = (.audio, 0x023F800000BECCCCCD) ∧
    (AsmLine.set none .dryWet (.dec 25 100)).assemble = (.ctrl, 0x103E80000000000000) ∧
    (AsmLine.setType none 3).assemble = (.ctrl, 0x150000000300000000) ∧
    (AsmLine.get (some .audio) .rate).assemble = (.audio, 0x230000000000000000) := by decide +kernel

/-! ### Helpers -/

/-- The state after a next outcome. -/
def stateOf : Host.Outcome State Fault Refusal → Option State
  | .next t => some t
  | .fault _ => none
  | .refused _ => none

/-- The response to a command word. -/
def answer (cw : Word72) (s : State) : Option Word72 := (stateOf (runWord cw s)).bind (lastAnswer s)

/-- A prepared CORE of `len` words at the sample rate `sr`, every parameter at its reset value. -/
def prepared (len : Nat) (sr : F32) : State := { State.reset with st := .prepared, len := len, sr := sr }

/-- The state a command word leads to, or the state it ran in if there is none. -/
def after (cw : Word72) (s : State) : State := (stateOf (runWord cw s)).getD s

theorem next_of_isSome {o : Host.Outcome State Fault Refusal} (h : (stateOf o).isSome = true) : ∃ t, o = .next t := by
  cases o with
  | next t => exact ⟨t, rfl⟩
  | fault r => cases h
  | refused r => cases h

/-! ### The arithmetic (00_scope R7, R10; 95 section 2) -/

theorem test_constants :
    lit32 1 1 = 0x3F800000 ∧ lit32 (-1) 1 = 0xBF800000 ∧ lit32 0 1 = 0 ∧ lit32 5 1000 = 0x3BA3D70A ∧
    lit32 3 100 = 0x3CF5C28F ∧ lit32 1 1000 = 0x3A83126F ∧ lit32 1 10 = 0x3DCCCCCD ∧ lit32 20 1 = 0x41A00000 ∧
    lit32 2 1 = 0x40000000 ∧ i2f32 (2 ^ 24) = 0x4B800000 := by decide +kernel

/-- Overflow, signed zeros, ties and subnormals (95 section 2.5). -/
theorem test_arithmetic :
    fadd32 0 0x7F7FFFFF 0x7F7FFFFF = 0x7F800000 ∧ fadd32 0 0x80000000 0x00000000 = 0x00000000 ∧
    fadd32 0 0x80000000 0x80000000 = 0x80000000 ∧ fmul32 0 0xBF400000 0x00000000 = 0x80000000 ∧
    fmul32 0 0x00000001 0x3F000000 = 0x00000000 ∧ fmul32 0 0x00000003 0x3F000000 = 0x00000002 ∧
    fdiv32 0 0x3DCCCCCD 0x472C4400 = 0x36182C9F ∧ fdiv32 0 0x41A00000 0x483B8000 = 0x38DA740E := by decide +kernel

/-- An invalid operation gives a NaN, whichever it is (00_scope R7). -/
theorem test_invalid (n : Nat) : fmul32 n 0x7F800000 0x00000000 = nanDrawn n ∧ isNan (nanDrawn n) = true := by
  refine ⟨rfl, ?_⟩
  rw [isNan_iff, nanDrawn, nanOf, magBits_packSign]
  · simp only [infMag]; omega
  · have := (Config.nanDraw n).2.isLt
    simp only [infMag]; omega

/-- Ordered comparisons (00_scope R7). -/
theorem test_compare :
    fle32 0x00000000 0x80000000 = true ∧ flt32 0x80000000 0x00000000 = false ∧ fle32 0x7FC00000 0x7FC00000 = false ∧
    flt32 0xBF800000 0x00000000 = true ∧ fge32 0x7F800000 0x7F7FFFFF = true := by decide +kernel

/-- Rows of the mapper table that are no corner of it (95 section 1.3). -/
theorem test_mapper :
    mapDelay Carrier.f32 0 0x3F000000 0 = 0x3CC28F5C ∧ mapDelay Carrier.f32 0 0xBF000000 1 = 0x3B03126E ∧
    mapDelay Carrier.f32 0 0x80000000 2 = 0x3D851EB8 ∧ mapDelay Carrier.f32 0 0x3F000000 3 = 0x3F466666 := by
  decide +kernel

theorem test_delay_samples :
    delaySamples Carrier.f32 0 0 0 0x472C4400 = 0x4440EFFF ∧ delaySamples Carrier.f32 0 0x3F800000 3 0x42200000 = 0x42200000 := by
  decide +kernel

/-- Read positions, with and without the wrap, and the one that rounds to `LEN` (95 section 2.2). -/
theorem test_read_position :
    readPos Carrier.f32 0 5 88200 0x41200000 = 0x47AC4180 ∧ readPos Carrier.f32 0 772 88200 0x4440EFFF = 0x3E800800 ∧
    readPos Carrier.f32 0 10 2000 0x41200000 = 0 ∧ readPos Carrier.f32 0 772 88200 0x44410001 = 0x47AC4400 := by
  decide +kernel

theorem test_range_check :
    rangeOk Carrier.f32 8 0x40FFFFFF = true ∧ rangeOk Carrier.f32 8 0x80000000 = true ∧
    rangeOk Carrier.f32 8 0x41000000 = false ∧ rangeOk Carrier.f32 8 0x80000001 = false ∧
    rangeOk Carrier.f32 8 0x7F800000 = false ∧ rangeOk Carrier.f32 8 0x7FC00000 = false := by decide +kernel

/-- The buffer 10, 20, ..., 80 of 95 section 2.2. -/
def tens (i : Nat) : Option F32 := if i < 8 then some (i2f32 (10 * (i + 1))) else none

theorem test_interpolation :
    interp Carrier.f32 0 8 tens 0x40700000 = some 0x423E0000 ∧ interp Carrier.f32 0 8 tens 0x40E80000 = some 0x427A0000 ∧
    interp Carrier.f32 0 8 tens 0x40FFFFFF = some 0x41200023 ∧ interp Carrier.f32 0 8 tens 0x80000000 = some 0x41200000 := by
  decide +kernel

/-- The two wraps of the LFO: strict for the accumulator, not strict for the right phase (95 section 2.3). -/
theorem test_phase_wraps :
    phaseAdv Carrier.f32 0 0x3F400000 0x42200000 0x41200000 = 0x3F800000 ∧
    phaseAdv Carrier.f32 0 0x3F7FF972 0x472C4400 0x41200000 = 0x3904E000 ∧
    rightPhase Carrier.f32 0 0x3F400000 0x3E800000 = 0 ∧ rightPhase Carrier.f32 0 0x3F800000 0x3F800000 = 0x3F800000 := by
  decide +kernel

theorem test_mix :
    mix Carrier.f32 0 0x3F4CCCCD 0xBECCCCCD 0x3E800000 = 0x3F000000 ∧
    mix Carrier.f32 0 0x3DCCCCCD 0x3E4CCCCD 0x3E99999A = 0x3E051EB8 ∧ mix Carrier.f32 0 0x80000000 0x40400000 0 = 0 := by
  decide +kernel

/-- A RAM keeps its canonical form when a zero is written over a word, and reads back what was written. -/
theorem test_memory :
    Memory.put 3 0 [(3, 0x3F800000), (5, 1)] = [(5, 1)] ∧ Memory.put 4 7 [(3, 2), (5, 1)] = [(3, 2), (4, 7), (5, 1)] ∧
    Memory.get 4 [(3, 2), (5, 1)] = 0 ∧ Memory.wf 8 [(3, 2), (8, 1)] = false ∧ Memory.wf 8 [(3, 0)] = false := by decide

/-! ### The commands (95 sections 2.1, 2.6, 2.7) -/

theorem test_set_drywet :
    answer 0x103F80000000000000 State.reset = some 0 ∧
    answer 0x103F80000100000000 State.reset = some 0x030000001000000000 ∧
    answer 0x107FC0000000000000 State.reset = some 0x030000001000000000 := by decide +kernel

theorem test_set_drywet_stores_minus_zero : (after 0x108000000000000000 State.reset).pDryWet = 0x80000000 := by
  decide +kernel

theorem test_set_feedback : (after 0x113F80000000000000 State.reset).pFeedback = 0x3F800000 := by decide +kernel

theorem test_set_depth : (after 0x123F7FFFFF00000000 State.reset).pDepth = 0x3F7FFFFF := by decide +kernel

theorem test_set_rate :
    answer 0x133DCCCCCD00000000 State.reset = some 0 ∧ answer 0x133DCCCCCC00000000 State.reset = some 0x030000001300000000 ∧
    answer 0x1341A0000100000000 State.reset = some 0x030000001300000000 ∧
    answer 0x130000000000000005 State.reset = some 0x010000001300000000 := by decide +kernel

theorem test_set_phase : (after 0x143F80000000000000 State.reset).pPhase = 0x3F800000 := by decide +kernel

theorem test_set_type :
    (after 0x150000000300000000 State.reset).pType = 3 ∧ answer 0x150000000400000000 State.reset = some 0x030000001500000000 ∧
    answer 0x153F80000000000000 State.reset = some 0x030000001500000000 := by decide +kernel

/-- The answers of the six GETs and of GETST after hardware reset (95 section 2.1, end). -/
theorem test_gets_after_reset :
    answer 0x200000000000000000 State.reset = some 0x003F00000000000000 ∧
    answer 0x210000000000000000 State.reset = some 0x003F00000000000000 ∧
    answer 0x220000000000000000 State.reset = some 0x003F00000000000000 ∧
    answer 0x230000000000000000 State.reset = some 0x004120000000000000 ∧
    answer 0x240000000000000000 State.reset = some 0 ∧ answer 0x250000000000000000 State.reset = some 0 ∧
    answer 0x300000000000000000 State.reset = some 0 := by decide +kernel

theorem test_get_type : answer 0x250000000000000000 { State.reset with pType := 3 } = some 0x000000000300000000 := by
  decide +kernel

/-- `STATUS` in line 13 of program P1. -/
theorem test_getst : answer 0x300000000000000000
    { prepared 88200 0x472C4400 with flags := ⟨true, true, true, false, true⟩ } = some 0x000000017100000000 := by
  decide +kernel

/-- First PREPAREs (95 section 2.6): 44100, 0.5, 262144, 262145, 2^127, infinity. -/
theorem test_prepare_first :
    answer 0x01472C440000000200 State.reset = some 0x000001588800000000 ∧
    answer 0x013F00000000000000 State.reset = some 0x000000000100000000 ∧
    answer 0x014880000000000000 State.reset = some 0x000008000000000000 ∧
    answer 0x014880002000000000 State.reset = some 0x050000000100000000 ∧
    answer 0x017F00000000000000 State.reset = some 0x050000000100000000 ∧
    answer 0x017F80000000000000 State.reset = some 0x030000000100000000 := by decide +kernel

/-- Line 2 of program P5: a later PREPARE keeps the length and takes the rate. -/
theorem test_prepare_later :
    answer 0x01473B800000000000 (prepared 2000 0x447A0000) = some 0x00000007D000000000 ∧
    (after 0x01473B800000000000 (prepared 2000 0x447A0000)).sr = 0x473B8000 := by decide +kernel

/-- The worked example of 45 R215 (95 section 2.7 a), and the RAM and cursor it leaves. -/
theorem test_frame :
    answer 0x023F8000003F000000 (prepared 2000 0x447A0000) = some 0x003F0000003E800000 ∧
    (after 0x023F8000003F000000 (prepared 2000 0x447A0000)).bufL = [(0, 0x3F800000)] ∧
    (after 0x023F8000003F000000 (prepared 2000 0x447A0000)).bufR = [(0, 0x3F000000)] ∧
    (after 0x023F8000003F000000 (prepared 2000 0x447A0000)).wh = 1 ∧
    (after 0x023F8000003F000000 (prepared 2000 0x447A0000)).phase = 0x3C23D70A := by decide +kernel

/-- A delay below one sample reads the word just written (95 section 2.7 d). -/
theorem test_frame_reads_own_write :
    answer 0x023F8000003F800000 (prepared 2 0x3F800000) = some 0x003F7DC28F3F7DC28F ∧
    (after 0x023F8000003F800000 (prepared 2 0x3F800000)).fbL = 0x3EFB851E := by decide +kernel

/-- A sine that has the spec's values at the two arguments of 95 section 2.7 f: zero, and a quarter turn. -/
def quarterSine (x : F32) : F32 := if x = 0 then 0 else 0x3F800000

/-- Only the right channel leaves the buffer (95 section 2.7 f). -/
theorem test_frame_right_out_of_range :
    (stateOf (frame (Carrier.f32With quarterSine) 0x3F800000 0x3F800000
      { prepared 2000 0x453B8000 with pType := 3, pDepth := 0x3F800000, pPhase := 0x3E800000 })).bind
        (fun t => t.audioOut.getLast?) = some 0x040000000200000002 := by decide +kernel

/-- Line 5 of program P5: both channels leave the buffer, and nothing of the frame is kept. -/
theorem test_frame_stale_capacity :
    after 0x023F8000003F800000 { prepared 2000 0x473B8000 with pType := 2, pDepth := 0 }
      = { prepared 2000 0x473B8000 with
          pType := 2, pDepth := 0, flags := ⟨false, false, false, true, false⟩, audioOut := [0x040000000200000003] } := by
  decide +kernel

/-- `withFetchWord` makes the very next step run the word, from reset (log 16). -/
theorem test_withFetchWord :
    (stateOf (step (State.reset.withFetchWord 72 0x103E80000000000000))).map State.pDryWet = some 0x3E800000 := by
  decide +kernel

/-! ### Witnesses: states and operands that meet the hypotheses of the statements -/

/-- A CORE in which a frame runs: prepared at 1000 Hz with 2000 words (95 section 2.7 a). -/
def ready : State := prepared 2000 0x447A0000

theorem ready_inv : Machine.Inv ready :=
  ⟨⟨by decide, by decide, by decide, by decide⟩, ⟨by decide, by decide, by decide, by decide, by decide⟩,
    ⟨by decide, by decide, by decide, by decide⟩, ⟨rfl, rfl⟩⟩

theorem reset_inv : Machine.Inv State.reset :=
  ⟨⟨by decide, by decide, by decide, by decide⟩, ⟨by decide, by decide, by decide, by decide, by decide⟩,
    ⟨by decide, by decide, by decide, by decide⟩, ⟨rfl, rfl⟩⟩

theorem witness_AcceptedWordIsItsEncoding : ∃ i, decode 0x150000000300000000 = .ok i := ⟨_, test_decode_set_type⟩

theorem witness_DecoderAgreesWithOpcodeTable :
    (∃ i, decode 0x023F800000BECCCCCD = .ok i) ∧ isIllegal 0 :=
  ⟨⟨_, test_decode_frame⟩, fun i => by
    rw [show decode 0 = .error .unknownOpcode from by decide]
    exact fun h => nomatch h⟩

theorem witness_IllegalWordsAreRefused : isIllegal (packWord 0x13 0 5) := fun i => by
  rw [show decode (packWord 0x13 0 5) = .error .nonZeroB from by decide]
  exact fun h => nomatch h

/-- All four ways a word is granted: alone on its port, or with the turn; a word that decodes, and an illegal one. -/
theorem witness_StepRunsGrantedCommand :
    let w : Word72 := 0x300000000000000000
    let one : State := { State.reset with audioIn := [w] }
    let both : State := { State.reset with audioIn := [w], ctrlIn := [w], turn := .audio }
    let ctrl : State := { State.reset with ctrlIn := [w] }
    let turn : State := { State.reset with audioIn := [w], ctrlIn := [w], turn := .ctrl }
    (one.resetPin = false ∧ one.audioIn = [w] ∧ one.ctrlIn = [] ∧ decode w = .ok .getst) ∧
    (both.resetPin = false ∧ both.audioIn = [w] ∧ both.ctrlIn ≠ [] ∧ both.turn = .audio) ∧
    (ctrl.resetPin = false ∧ ctrl.ctrlIn = [w] ∧ ctrl.audioIn = []) ∧
    (turn.resetPin = false ∧ turn.ctrlIn = [w] ∧ turn.audioIn ≠ [] ∧ turn.turn = .ctrl) ∧
    (({ State.reset with ctrlIn := [packWord 0x13 0 5] } : State).ctrlIn = [packWord 0x13 0 5] ∧
      decode (packWord 0x13 0 5) = .error .nonZeroB) := by decide

theorem witness_IdleStepHoldsState :
    State.reset.resetPin = false ∧ State.reset.audioIn = [] ∧ State.reset.ctrlIn = [] := by decide

theorem witness_HardwareResetRestoresResetValues :
    ({ ready with resetPin := true, audioIn := [0] } : State).resetPin = true := rfl

/-- One word for each response code. -/
theorem witness_EveryWordGetsOneResponse :
    (answer 0x300000000000000000 State.reset).map opField = some 0 ∧ (answer 0 State.reset).map opField = some 1 ∧
    (answer 0x020000000000000000 State.reset).map opField = some 2 ∧
    (answer 0x010000000000000000 State.reset).map opField = some 3 ∧
    (answer 0x020000000000000000 { prepared 2000 0x473B8000 with pType := 2, pDepth := 0 }).map opField = some 4 ∧
    (answer 0x014892700000000000 State.reset).map opField = some 5 := by decide +kernel

theorem witness_PortOnlyRoutesTheResponse : ∃ t, exec (.frame 0x3F800000 0x3F000000) ready = .next t :=
  next_of_isSome (by decide +kernel)

/-- The bounds of the legal sets, and the values next to them. -/
theorem witness_FloatParameterSets :
    unitLegal 0x00000000 = true ∧ unitLegal 0x80000000 = true ∧ unitLegal 0x3F800000 = true ∧
    unitLegal 0x3F800001 = false ∧ unitLegal 0x80000001 = false ∧ rateLegal 0x3DCCCCCD = true ∧
    rateLegal 0x41A00000 = true ∧ rateLegal 0x3DCCCCCC = false ∧ rateLegal 0x41A00001 = false ∧
    (1 : Word32) ≠ 0 := by decide +kernel

theorem witness_TypeParameterSet :
    decide ((3 : Word32).toNat ≤ 3) = true ∧ decide ((4 : Word32).toNat ≤ 3) = false ∧ (0x80000000 : Word32) ≠ 0 := by
  decide

theorem witness_ParametersChangeOnlyByTheirSet : ∃ t, exec (.setRate 0x3DCCCCCD) State.reset = .next t :=
  next_of_isSome (by decide +kernel)

/-- The shortest length and the longest (95 section 2.6: 0.5 and 262144). -/
theorem witness_FirstPrepareFixesLength :
    ConfigOk State.reset.cfg ∧ State.reset.st = .unprepared ∧
    (rateOfSampleLegal 0x3F000000 = true ∧ isFin (fmul32 0 0x3F000000 State.reset.cfg.maxd) = true ∧
      ffloor32 (fmul32 0 0x3F000000 State.reset.cfg.maxd) = 1) ∧
    (rateOfSampleLegal 0x48800000 = true ∧ isFin (fmul32 0 0x48800000 State.reset.cfg.maxd) = true ∧
      ffloor32 (fmul32 0 0x48800000 State.reset.cfg.maxd) = State.reset.cfg.ramDepth) :=
  ⟨reset_inv.config, rfl, by decide +kernel, by decide +kernel⟩

theorem witness_LaterPrepareKeepsLength : ready.st ≠ .unprepared ∧ rateOfSampleLegal 0x473B8000 = true := by decide

theorem witness_IllegalSampleRateIsRefused :
    ¬ (0 < (0x00000000 : F32).toNat) ∧ ¬ ((0x7F800000 : F32).toNat < 0x7F800000) ∧
    ¬ ((0x80000000 : F32).toNat < 0x7F800000) := by decide

/-- A length of 0, one above `RAM_DEPTH`, and an infinite product (95 section 2.6); and a command that sets the flag. -/
theorem witness_CapacityFailureIsRefused :
    ConfigOk State.reset.cfg ∧ State.reset.st = .unprepared ∧
    (rateOfSampleLegal 0x3ECCCCCD = true ∧ isFin (fmul32 0 0x3ECCCCCD State.reset.cfg.maxd) = true ∧
      ffloor32 (fmul32 0 0x3ECCCCCD State.reset.cfg.maxd) = 0) ∧
    (rateOfSampleLegal 0x48800020 = true ∧ isFin (fmul32 0 0x48800020 State.reset.cfg.maxd) = true ∧
      State.reset.cfg.ramDepth < ffloor32 (fmul32 0 0x48800020 State.reset.cfg.maxd)) ∧
    (rateOfSampleLegal 0x7F000000 = true ∧ isInf (fmul32 0 0x7F000000 State.reset.cfg.maxd) = true) ∧
    (stateOf (exec (.prepare 0x48800020 0) State.reset)).map (fun t => t.flags.capacity) = some true :=
  ⟨reset_inv.config, rfl, by decide +kernel, by decide +kernel, by decide +kernel, by decide +kernel⟩

theorem witness_FrameBeforePrepareIsRefused :
    State.reset.st = .unprepared ∧ State.reset.flags.unprep = false ∧
    (stateOf (exec (.frame 0x3F800000 0x3F800000) State.reset)).map (fun t => t.flags.unprep) = some true := by
  decide +kernel

theorem witness_FrameCompletes :
    Machine.Inv ready ∧ ready.st ≠ .unprepared ∧ frameRangeOk Carrier.f32 .left ready = true ∧
    frameRangeOk Carrier.f32 .right ready = true :=
  ⟨ready_inv, by decide, by decide +kernel, by decide +kernel⟩

theorem witness_FrameOutOfRangeIsRefused :
    let s : State := { prepared 2000 0x473B8000 with pType := 2, pDepth := 0 }
    s.st ≠ .unprepared ∧ frameRangeOk Carrier.f32 .left s = false := by decide +kernel

theorem witness_FrameLeavesTheRestAlone : ∃ t, exec (.frame 0x3F800000 0x3F000000) ready = .next t :=
  witness_PortOnlyRoutesTheResponse

theorem witness_ChannelsDoNotMix :
    (∃ t, exec (.frame 0x3F800000 0x3F000000) ready = .next t) ∧
    (∃ t, exec (.frame 0x3F800000 0) { ready with fbR := 0x3F800000, bufR := [(7, 1)] } = .next t) ∧
    (∃ t, exec (.frame 0 0x3F000000) { ready with fbL := 0x3F800000, bufL := [(7, 1)] } = .next t) :=
  ⟨witness_PortOnlyRoutesTheResponse, next_of_isSome (by decide +kernel), next_of_isSome (by decide +kernel)⟩

theorem witness_DryWetStaysOutOfTheDelayLine : ∃ t, exec (.frame 0x3F800000 0x3F000000) ready = .next t :=
  witness_PortOnlyRoutesTheResponse

/-- Both cases of the wrap, and a buffer of one word. -/
theorem witness_AdvanceIsModular : 7 < 8 ∧ advance 7 8 = 0 ∧ 3 < 8 ∧ advance 3 8 = 4 ∧ 0 < 1 ∧ advance 0 1 = 0 := by
  decide

theorem witness_CheckedPositionGivesLegalIndices :
    rangeOk Carrier.f32 8 0x40FFFFFF = true ∧ rangeOk Carrier.f32 1 0x00000000 = true := by decide +kernel

/-- The shortest and the longest length, and the patterns on both sides of the bound of each (41 R154). -/
theorem witness_RangeCheckRefusesBadPositions :
    isFin 0x7F800000 = false ∧ isFin 0x7FC00000 = false ∧ 0x80000000 < (0x80000001 : F32).toNat ∧
    (i2f32 1 = 0x3F800000 ∧ rangeOk Carrier.f32 1 0x3F7FFFFF = true ∧ rangeOk Carrier.f32 1 0x3F800000 = false) ∧
    (i2f32 (2 ^ 24) = 0x4B800000 ∧ rangeOk Carrier.f32 (2 ^ 24) 0x4B7FFFFF = true ∧
      rangeOk Carrier.f32 (2 ^ 24) 0x4B800000 = false) := by decide +kernel

theorem witness_SingleWrapSufficesExactly :
    (5 < 88200 ∧ (0 : ℝ) < 10 ∧ (10 : ℝ) < (88200 : ℕ)) ∧ ((40 : ℝ) = (40 : ℕ)) ∧ (((0 : ℕ) : ℝ) + (2000 : ℕ) < 3120) := by
  norm_num

theorem witness_MapperIsMonotone :
    fle32 0xBF800000 0xBF800000 = true ∧ fle32 0xBF800000 0x3F800000 = true ∧ fle32 0x3F800000 0x3F800000 = true := by
  decide +kernel

theorem witness_SineKeepsItsProperties : isFin 0x40C90FDB = true ∧ isFin 0xFF800000 = false := by decide

/-- Depth `+0` and `-0`; the phase 9 of 95 section 2.7 d, outside `[0, 1]`, with finite operands for both channels; and
phases in `[0, 1]`. -/
theorem witness_ZeroDepthGivesStaticDelay :
    ({ ready with pDepth := 0x80000000 } : State).pDepth = 0x80000000 ∧
    ({ ready with pDepth := 0x00000000 } : State).pDepth = 0x00000000 ∧
    isFin (fmul32 1 twoPi32 0x41100000) = true ∧
    isFin (fmul32 33 twoPi32 (rightPhase Carrier.f32 34 0x41100000 ready.pPhase)) = true ∧
    unitLegal ready.phase = true ∧ unitLegal ready.pPhase = true ∧ unitLegal 0x3F800000 = true := by decide +kernel

theorem witness_BlendEndpointsBitForBit :
    isFin 0x3E99999A = true ∧ isFin 0x40E00000 = true ∧ (0x3E99999A : F32) ≠ 0x80000000 ∧
    (0x40E00000 : F32) ≠ 0x80000000 := by decide

/-- A tie of a sum and one of a product: `1 + 2^-24` rounds to the even 1, and half the smallest subnormal to zero; the
threshold to infinity, and the largest finite value below it; sums that are zero; a divisor that is not zero. -/
theorem witness_RoundingIsNearestTiesToEven :
    (isFin 0x3F800000 = true ∧ isFin 0x33800000 = true ∧ value 0x3F800000 + value 0x33800000 ≠ 0 ∧
      fadd32 0 0x3F800000 0x33800000 = 0x3F800000) ∧
    (fmul32 0 0x00000001 0x3F000000 = 0x00000000 ∧ units 0x00000001 ≠ units 0x00000000 ∧
      |(units 0x00000000 : ℤ) * 2 ^ 149 - (units 0x00000001 * units 0x3F000000 : ℕ)|
        = |(units 0x00000001 : ℤ) * 2 ^ 149 - (units 0x00000001 * units 0x3F000000 : ℕ)|) ∧
    (roundMag overflowAt 1 = infMag ∧ roundMag (overflowAt - 1) 1 < infMag ∧ isInf (packSign false infMag) = true ∧
      fadd32 0 0x7F7FFFFF 0x73000000 = 0x7F800000 ∧ fadd32 0 0x7F7FFFFF 0x72FFFFFF = 0x7F7FFFFF) ∧
    (value 0x3F800000 + value 0xBF800000 = 0 ∧ value 0x3F800000 - value 0x3F800000 = 0 ∧
      value 0x3F800000 - value 0xBF800000 ≠ 0 ∧ units 0x3F800000 ≠ 0) := by decide +kernel

theorem witness_StepKeepsInvariant :
    Machine.Inv (ready.withFetchWord 72 0x023F8000003F000000) ∧
    ∃ t, step (ready.withFetchWord 72 0x023F8000003F000000) = .next t :=
  ⟨⟨ready_inv.config, ⟨by decide, by decide, by decide, by decide, by decide⟩,
    ⟨by decide, by decide, by decide, by decide⟩, ⟨rfl, rfl⟩⟩, next_of_isSome (by decide +kernel)⟩

theorem witness_InvariantStatesNeverStop : Machine.Inv ready := ready_inv

theorem witness_FlagsAreSticky :
    (let s : State := { ready with flags := ⟨false, true, false, false, false⟩ }
     s.resetPin = false ∧ s.flags.get .unprep = true ∧ (stateOf (step s)).isSome = true) ∧
    (answer 0 State.reset).map opField = some (ErrorCode.code .illegal) := by decide +kernel

/-- A frame and a PREPARE that complete, and one that is refused. -/
theorem witness_LifecycleTransitions :
    (after 0x023F8000003F000000 ready).st = .processing ∧ (after 0x01473B800000000000 (after 0x023F8000003F000000 ready)).st
      = .prepared ∧ (answer 0x010000000000000000 ready).map opField = some 3 := by decide +kernel

theorem witness_LengthIsFixedOnce : ∃ t, exec (.prepare 0x472C4400 512) State.reset = .next t :=
  next_of_isSome (by decide +kernel)

theorem witness_CursorAndLengthFitTheirWidths : Machine.Inv ready ∧ ready.st ≠ .unprepared := ⟨ready_inv, by decide⟩

theorem witness_PhaseStaysInUnitInterval :
    Machine.Inv ready ∧ phaseInUnit ready = true ∧ fle32 ready.pRate ready.sr = true ∧
    ∃ t, exec (.frame 0x3F800000 0x3F000000) ready = .next t :=
  ⟨ready_inv, by decide, by decide, witness_PortOnlyRoutesTheResponse⟩

end Sys2Proof.Tests
end

section
/-! SUPPORT. `roundMag` is rounding to nearest, ties to even, said against every finite pattern (00_scope R7). Settles O40. -/

namespace Sys2Proof.Machine

/-! ### The nearest multiple -/

/-- No multiple of the divisor is nearer than the rounded quotient's. -/
theorem divNearestEven_nearest (num : Nat) {den : Nat} (hd : 0 < den) (j : Nat) :
    |(divNearestEven num den * den : ℤ) - num| ≤ |(j * den : ℤ) - num| := by
  obtain ⟨hhi, hlo, -, -⟩ := divNearestEven_spec num hd
  generalize divNearestEven num den = d at *
  rcases Nat.lt_trichotomy j d with h | rfl | h
  · have : (j + 1) * den ≤ d * den := Nat.mul_le_mul_right den h
    zify at *
    rw [abs_le', le_abs, le_abs]
    constructor <;> right <;> linarith
  · exact le_rfl
  · have : (d + 1) * den ≤ j * den := Nat.mul_le_mul_right den h
    zify at *
    rw [abs_le', le_abs, le_abs]
    constructor <;> left <;> linarith

/-- When another multiple is equally near, the rounded quotient is even. -/
theorem divNearestEven_even_of_tie {num den j : Nat} (hd : 0 < den) (hj : j ≠ divNearestEven num den)
    (ht : |(divNearestEven num den * den : ℤ) - num| = |(j * den : ℤ) - num|) : divNearestEven num den % 2 = 0 := by
  obtain ⟨hhi, hlo, hevenHi, hevenLo⟩ := divNearestEven_spec num hd
  generalize divNearestEven num den = d at *
  rcases Nat.lt_or_gt_of_ne hj with h | h
  · have : (j + 1) * den ≤ d * den := Nat.mul_le_mul_right den h
    apply hevenHi
    zify at *
    rcases abs_eq_abs.mp ht with h | h <;> linarith
  · have : (d + 1) * den ≤ j * den := Nat.mul_le_mul_right den h
    apply hevenLo
    zify at *
    rcases abs_eq_abs.mp ht with h | h <;> linarith

/-! ### The grid of a result -/

/-- The significand of a result may round up to `2^24`, one past the full significands: the carry lands in the exponent
and the magnitude is the same product. -/
theorem unitsOf_add_le {k n : Nat} (h1 : 2 ^ 23 ≤ n ∨ k = 0) (h2 : n ≤ 2 ^ 24) :
    unitsOf (k * 2 ^ 23 + n) = n * 2 ^ k := by
  rcases Nat.lt_or_eq_of_le h2 with h | rfl
  · exact unitsOf_add k n h1 h
  · calc unitsOf (k * 2 ^ 23 + 2 ^ 24) = unitsOf ((k + 1) * 2 ^ 23 + 2 ^ 23) := congrArg unitsOf (by ring)
      _ = 2 ^ 23 * 2 ^ (k + 1) := unitsOf_add (k + 1) (2 ^ 23) (.inl le_rfl) (by decide)
      _ = 2 ^ 24 * 2 ^ k := by ring

/-- The rounded significand: the quotient in units of its last place. -/
def roundedSig (num den : Nat) : Nat := divNearestEven num (den * 2 ^ ulpShift (num / den))

/-- A result below infinity keeps its exponent and its rounded significand. -/
theorem roundMag_of_lt_inf {num den : Nat} (h : roundMag num den < infMag) :
    roundMag num den = ulpShift (num / den) * 2 ^ 23 + roundedSig num den := by
  rw [roundMag_eq] at *
  exact min_eq_left (by omega)

/-- The magnitude of a result below infinity is its rounded significand times its unit in the last place. -/
theorem unitsOf_roundMag {num den : Nat} (hd : 0 < den) (h : roundMag num den < infMag) :
    unitsOf (roundMag num den) = roundedSig num den * 2 ^ ulpShift (num / den) := by
  rw [roundMag_of_lt_inf h]
  refine unitsOf_add_le ?_ (divNearestEven_ulp_le num hd)
  rcases Nat.eq_zero_or_pos (ulpShift (num / den)) with h0 | h0
  · exact .inr h0
  · exact .inl (le_divNearestEven_ulp num hd h0)

/-- The divisor that a significand is rounded by is positive. -/
theorem mul_two_pow_pos {den : Nat} (hd : 0 < den) (k : Nat) : 0 < den * 2 ^ k := Nat.mul_pos hd (Nat.pow_pos (by decide))

/-- A grid point as a multiple of the divisor that the significand is rounded by. -/
theorem gridPoint_mul (j k den : Nat) : ((j * 2 ^ k : ℕ) : ℤ) * den = j * (den * 2 ^ k : ℕ) := by
  push_cast
  ring

/-- The rounded magnitude is at least as near as every point of its own grid. -/
theorem unitsOf_roundMag_nearest_on_grid {num den : Nat} (hd : 0 < den) (h : roundMag num den < infMag) (j : Nat) :
    |(unitsOf (roundMag num den) : ℤ) * den - num| ≤ |((j * 2 ^ ulpShift (num / den) : ℕ) : ℤ) * den - num| := by
  rw [unitsOf_roundMag hd h, gridPoint_mul, gridPoint_mul]
  exact divNearestEven_nearest num (mul_two_pow_pos hd _) j

/-- Every magnitude lies on the grid of a quotient's last place, or strictly farther from the quotient than a point of
that grid: below the quotient's binade the finer grid ends at `2^23` units, and the quotient lies above that. -/
theorem unitsOf_on_grid_or_farther (m num : Nat) {den : Nat} (hd : 0 < den) :
    (∃ j : Nat, unitsOf m = j * 2 ^ ulpShift (num / den)) ∨
    ∃ j : Nat, |((j * 2 ^ ulpShift (num / den) : ℕ) : ℤ) * den - num| < |(unitsOf m : ℤ) * den - num| := by
  obtain ⟨l, b, rfl, hb, hb'⟩ := exists_sig m
  rw [unitsOf_add l b hb hb']
  have hfull : 0 < ulpShift (num / den) → 2 ^ 23 * 2 ^ ulpShift (num / den) ≤ num / den := ulpShift_le
  generalize ulpShift (num / den) = k at *
  rcases Nat.lt_or_ge l k with hlk | hkl
  · right
    have hfine : b * 2 ^ l < 2 ^ 23 * 2 ^ k := by
      calc b * 2 ^ l < 2 ^ 24 * 2 ^ l := Nat.mul_lt_mul_of_pos_right hb' (Nat.pow_pos (by decide))
        _ = 2 ^ 23 * 2 ^ (l + 1) := by ring
        _ ≤ 2 ^ 23 * 2 ^ k := Nat.mul_le_mul_left _ (Nat.pow_le_pow_right (by decide) hlk)
    have hlow : b * 2 ^ l * den < 2 ^ 23 * 2 ^ k * den := Nat.mul_lt_mul_of_pos_right hfine hd
    have hnum : 2 ^ 23 * 2 ^ k * den ≤ num := (Nat.le_div_iff_mul_le hd).mp (hfull (by omega))
    refine ⟨2 ^ 23, ?_⟩
    rw [← Nat.cast_mul, ← Nat.cast_mul, abs_of_nonpos (by omega), abs_of_nonpos (by omega)]
    omega
  · left
    obtain ⟨d, rfl⟩ := Nat.exists_eq_add_of_le hkl
    exact ⟨b * 2 ^ d, by ring⟩

/-- No finite magnitude is nearer than the rounded one. -/
theorem unitsOf_roundMag_nearest {num den : Nat} (hd : 0 < den) (h : roundMag num den < infMag) (m : Nat) :
    |(unitsOf (roundMag num den) : ℤ) * den - num| ≤ |(unitsOf m : ℤ) * den - num| := by
  rcases unitsOf_on_grid_or_farther m num hd with ⟨j, hj⟩ | ⟨j, hj⟩
  · rw [hj]
    exact unitsOf_roundMag_nearest_on_grid hd h j
  · exact (unitsOf_roundMag_nearest_on_grid hd h j).trans hj.le

/-- A result is even when another finite magnitude is equally near: such a magnitude lies on the grid. -/
theorem roundMag_even_of_tie {num den m : Nat} (hd : 0 < den) (h : roundMag num den < infMag)
    (hm : unitsOf m ≠ unitsOf (roundMag num den))
    (ht : |(unitsOf (roundMag num den) : ℤ) * den - num| = |(unitsOf m : ℤ) * den - num|) :
    roundMag num den % 2 = 0 := by
  rcases unitsOf_on_grid_or_farther m num hd with ⟨j, hj⟩ | ⟨j, hj⟩
  · rw [unitsOf_roundMag hd h, hj] at hm ht
    rw [gridPoint_mul, gridPoint_mul] at ht
    have heven : roundedSig num den % 2 = 0 :=
      divNearestEven_even_of_tie (mul_two_pow_pos hd _) (fun he => hm (congrArg (· * _) he)) ht
    rw [roundMag_of_lt_inf h]
    omega
  · exact absurd ht ((unitsOf_roundMag_nearest_on_grid hd h j).trans_lt hj).ne

/-! ### Overflow -/

/-- The threshold itself rounds to infinity (log 13). -/
theorem roundMag_overflowAt : roundMag overflowAt 1 = infMag := by decide

/-- Below the threshold a quotient lies at most in the top binade. -/
theorem ulpShift_le_of_lt_overflowAt {num den : Nat} (h : num < overflowAt * den) : ulpShift (num / den) ≤ 253 := by
  have hq : num / den < overflowAt := Nat.div_lt_of_lt_mul (by rwa [Nat.mul_comm])
  by_contra hk
  have : 2 ^ 23 * 2 ^ 254 ≤ num / den :=
    (Nat.mul_le_mul_left _ (Nat.pow_le_pow_right (by decide) (by omega))).trans (ulpShift_le (by omega))
  rw [overflowAt] at hq
  omega

/-- Below the threshold the significand of the top binade does not round up to `2^24`. -/
theorem roundedSig_lt_of_lt_overflowAt {num den : Nat} (hd : 0 < den) (h : num < overflowAt * den)
    (hk : ulpShift (num / den) = 253) : roundedSig num den < 2 ^ 24 := by
  obtain ⟨hhi, -, -, -⟩ := divNearestEven_spec num (mul_two_pow_pos hd 253)
  rw [roundedSig, hk]
  generalize divNearestEven num (den * 2 ^ 253) = sig at *
  have hlt : 2 * (sig * (den * 2 ^ 253)) < 2 ^ 25 * (den * 2 ^ 253) := by
    rw [overflowAt] at h
    omega
  have : 2 * sig < 2 ^ 25 := Nat.lt_of_mul_lt_mul_right (a := den * 2 ^ 253) (by rwa [Nat.mul_assoc])
  omega

/-- Below the threshold a result is finite. -/
theorem roundMag_lt_inf {num den : Nat} (hd : 0 < den) (h : num < overflowAt * den) : roundMag num den < infMag := by
  have hsig : roundedSig num den ≤ 2 ^ 24 := divNearestEven_ulp_le num hd
  have htop := roundedSig_lt_of_lt_overflowAt hd h
  have hk := ulpShift_le_of_lt_overflowAt h
  have hbound : ulpShift (num / den) * 2 ^ 23 + roundedSig num den < infMag := by
    rw [infMag]
    omega
  rw [roundMag_eq]
  exact min_lt_of_left_lt hbound

/-- A result is infinite exactly from the threshold on (00_scope R7, log 13). -/
theorem roundMag_eq_inf_iff {num den : Nat} (hd : 0 < den) : roundMag num den = infMag ↔ overflowAt * den ≤ num := by
  constructor
  · intro h
    by_contra hlt
    exact (roundMag_lt_inf hd (Nat.not_le.mp hlt)).ne h
  · intro h
    apply (roundMag_le_inf num den).antisymm
    calc infMag = roundMag overflowAt 1 := roundMag_overflowAt.symm
      _ ≤ roundMag num den := roundMag_mono Nat.one_pos hd (by rwa [Nat.mul_one])

/-! ### The operations -/

/-- The lowest bit of a pattern is that of its magnitude bits. -/
theorem packSign_mod_two (sign : Bool) {m : Nat} (h : m < 2 ^ 31) : (packSign sign m).toNat % 2 = m % 2 := by
  rw [packSign_toNat sign h]
  split <;> omega

/-- ROUNDING IS TO NEAREST, TIES TO EVEN: the pattern made of a sign and a rounded magnitude (00_scope R7). -/
theorem roundsTo_packSign (sign : Bool) (num : Nat) {den : Nat} (hd : 0 < den) :
    RoundsTo sign num den (packSign sign (roundMag num den)) := by
  have hlt := roundMag_lt num den
  have hmag : magBits (packSign sign (roundMag num den)) = roundMag num den := magBits_packSign sign hlt
  have hunits : units (packSign sign (roundMag num den)) = unitsOf (roundMag num den) := by
    rw [units_eq_unitsOf, hmag]
  have hfin : isFin (packSign sign (roundMag num den)) = true → roundMag num den < infMag := by
    rw [isFin_iff, hmag]
    exact id
  refine ⟨signBit_packSign sign hlt, ?_, ?_, fun hf y _ => ?_, fun hf y _ hy ht => ?_⟩
  · rw [Bool.eq_false_iff, ne_eq, isNan_iff, hmag]
    exact Nat.not_lt.mpr (roundMag_le_inf num den)
  · rw [isInf_iff, hmag]
    exact roundMag_eq_inf_iff hd
  · rw [hunits, units_eq_unitsOf y]
    exact unitsOf_roundMag_nearest hd (hfin hf) _
  · rw [hunits, units_eq_unitsOf y] at hy ht
    rw [packSign_mod_two sign hlt]
    exact roundMag_even_of_tie hd (hfin hf) hy ht

/-- The magnitude bits of a negated pattern. -/
@[simp] theorem magBits_neg32 (x : F32) : magBits (neg32 x) = magBits x := by
  rw [magBits, neg32, BitVec.toNat_xor, Nat.xor_mod_two_pow]
  exact Nat.xor_zero _

/-- The sign of a negated pattern. -/
@[simp] theorem signBit_neg32 (x : F32) : signBit (neg32 x) = !signBit x := by
  rw [signBit, neg32, BitVec.msb_xor, show (0x80000000#32).msb = true by decide, Bool.xor_true, signBit]

/-- A negated finite number is finite. -/
theorem isFin_neg32 {x : F32} (h : isFin x = true) : isFin (neg32 x) = true := by
  rwa [isFin_iff, magBits_neg32, ← isFin_iff]

/-- The value of a negated pattern. -/
theorem value_neg32 (x : F32) : value (neg32 x) = -value x := by
  simp only [value_eq, magBits_neg32, signBit_neg32]
  cases signBit x <;> simp

/-- A sum that is not zero is rounded (00_scope R7). -/
theorem fadd32_roundsTo (n : Nat) {a b : F32} (ha : isFin a = true) (hb : isFin b = true) (h : value a + value b ≠ 0) :
    RoundsTo (decide (value a + value b < 0)) (value a + value b).natAbs 1 (fadd32 n a b) := by
  rw [fadd32_of_isFin n ha hb, if_neg h]
  exact roundsTo_packSign _ _ Nat.one_pos

/-- A sum that is zero is minus zero for two negative operands alone (93 U17). -/
theorem fadd32_zero (n : Nat) {a b : F32} (ha : isFin a = true) (hb : isFin b = true) (h : value a + value b = 0) :
    fadd32 n a b = packSign (signBit a && signBit b) 0 := by
  rw [fadd32_of_isFin n ha hb, if_pos h]

/-- A difference is a sum with the value of the negated operand (00_scope R7). -/
theorem value_add_neg32 (a b : F32) : value a + value (neg32 b) = value a - value b := by
  rw [value_neg32, sub_eq_add_neg]

/-- A difference that is not zero is rounded (00_scope R7). -/
theorem fsub32_roundsTo (n : Nat) {a b : F32} (ha : isFin a = true) (hb : isFin b = true) (h : value a - value b ≠ 0) :
    RoundsTo (decide (value a - value b < 0)) (value a - value b).natAbs 1 (fsub32 n a b) := by
  rw [← value_add_neg32] at *
  exact fadd32_roundsTo n ha (isFin_neg32 hb) h

/-- A difference that is zero is minus zero for `-0` less `+0` alone (93 U17). -/
theorem fsub32_zero (n : Nat) {a b : F32} (ha : isFin a = true) (hb : isFin b = true) (h : value a - value b = 0) :
    fsub32 n a b = packSign (signBit a && !signBit b) 0 := by
  rw [← value_add_neg32] at h
  rw [fsub32, fadd32_zero n ha (isFin_neg32 hb) h, signBit_neg32]

/-- A product is rounded (00_scope R7). -/
theorem fmul32_roundsTo (n : Nat) {a b : F32} (ha : isFin a = true) (hb : isFin b = true) :
    RoundsTo (signBit a != signBit b) (units a * units b) (2 ^ 149) (fmul32 n a b) := by
  rw [fmul32_of_isFin n ha hb]
  exact roundsTo_packSign _ _ (Nat.pow_pos (by decide))

/-- A quotient by a number other than zero is rounded (00_scope R7). -/
theorem fdiv32_roundsTo (n : Nat) {a b : F32} (ha : isFin a = true) (hb : isFin b = true) (h : units b ≠ 0) :
    RoundsTo (signBit a != signBit b) (units a * 2 ^ 149) (units b) (fdiv32 n a b) := by
  rw [fdiv32_of_isFin n ha hb h]
  exact roundsTo_packSign _ _ (Nat.pos_of_ne_zero h)

/-- Settles O40: every operation ends in one rounding of its exact result, and that rounding is to nearest with ties to
even. -/
theorem roundingIsNearestTiesToEven : Obligations.RoundingIsNearestTiesToEven :=
  ⟨fun sign num _ hd => roundsTo_packSign sign num hd,
    fun n _ _ ha hb => ⟨fadd32_roundsTo n ha hb, fadd32_zero n ha hb, fsub32_roundsTo n ha hb, fsub32_zero n ha hb,
      fmul32_roundsTo n ha hb, fdiv32_roundsTo n ha hb⟩,
    fun _ => roundsTo_packSign _ _ Nat.one_pos,
    fun _ _ hd => roundsTo_packSign _ _ hd⟩

end Sys2Proof.Machine
end

section
/-! SUPPORT. The properties of the sine, whatever the implementation's free value is (00_scope R9, log 4). Settles O36. -/

namespace Sys2Proof.Machine

theorem lit_minusOne : lit32 (-1) 1 = 0xBF800000#32 := by decide

theorem lit_one : lit32 1 1 = 0x3F800000#32 := one_eq

/-- The NaN of a sign and a fraction is a NaN (00_scope R7). -/
theorem isNan_nanOf (p : NanBits) : isNan (nanOf p) = true := by
  have hp := p.2.isLt
  rw [isNan_iff, nanOf, magBits_packSign p.1 (by rw [infMag]; omega)]
  omega

/-- P1: a zero is its own sine (00_scope R9). -/
theorem fsin32_zero {x : F32} (hx : isFin x = true) (h0 : units x = 0) : fsin32 x = x := by
  simp only [fsin32, fsinOf, hx, h0, Bool.not_true, Bool.false_eq_true, if_false, if_true]

/-- P3: the sine of a non-finite operand is a NaN (00_scope R9). -/
theorem isNan_fsin32 {x : F32} (hx : isFin x = false) : isNan (fsin32 x) = true := by
  simp only [fsin32, fsinOf, hx, Bool.not_false, if_true]
  exact isNan_nanOf _

/-- A zero lies in `[-1, 1]`. -/
theorem zero_between_minusOne_one {x : F32} (hx : isFin x = true) (h0 : units x = 0) :
    fle32 0xBF800000 x = true ∧ fle32 x 0x3F800000 = true := by
  have hv : value x = 0 := by simp [value, h0]
  rw [fle32_iff (by decide) (isNan_of_isFin hx), fle32_iff (isNan_of_isFin hx) (by decide), hv]
  decide

/-- P2: the sine of a finite operand is a finite number in `[-1, 1]`, the free value being used only where it is one
(00_scope R9, log 4). -/
theorem fsin32_between_minusOne_one {x : F32} (hx : isFin x = true) :
    isFin (fsin32 x) = true ∧ fle32 0xBF800000 (fsin32 x) = true ∧ fle32 (fsin32 x) 0x3F800000 = true := by
  by_cases h0 : units x = 0
  · rw [fsin32_zero hx h0]
    exact ⟨hx, zero_between_minusOne_one hx h0⟩
  · simp only [fsin32, fsinOf, hx, h0, Bool.not_true, Bool.false_eq_true, if_false, lit_minusOne, lit_one, lit_zero]
    split
    · rename_i hraw
      rw [Bool.and_eq_true, Bool.and_eq_true, and_assoc] at hraw
      exact hraw
    · decide

/-- Settles O36: one lemma per property of 00_scope R9, whatever the free sine answers. -/
theorem sineKeepsItsProperties : Obligations.SineKeepsItsProperties :=
  ⟨fsin32_zero (by decide) (by decide), fsin32_zero (by decide) (by decide), fun _ => fsin32_between_minusOne_one,
    fun _ => isNan_fsin32⟩

end Sys2Proof.Machine
end

section
/-! SUPPORT. What a step does with the word it is granted, and that no command stops in a state that meets the invariant (00_scope R13, R14; 20_memory R61, R69). Settles O6 and O43. -/

namespace Sys2Proof.Machine

/-! ### The granted word -/

/-- The oldest word of `AUDIO` is granted when `CTRL` has none or the turn is the port's own (20_memory R69). -/
theorem takeCommand_audio {s : State} {cw : Word72} {rest : List Word72} (ha : s.audioIn = cw :: rest)
    (hc : s.ctrlIn = [] ∨ s.turn = .audio) : takeCommand s = some (grant .audio cw { s with audioIn := rest }) := by
  unfold takeCommand
  rcases hc with hc | ht
  · simp only [ha, hc]
  · cases hc : s.ctrlIn <;> simp only [ha, ht]

/-- The oldest word of `CTRL` is granted when `AUDIO` has none or the turn is the port's own (20_memory R69). -/
theorem takeCommand_ctrl {s : State} {cw : Word72} {rest : List Word72} (hc : s.ctrlIn = cw :: rest)
    (ha : s.audioIn = [] ∨ s.turn = .ctrl) : takeCommand s = some (grant .ctrl cw { s with ctrlIn := rest }) := by
  unfold takeCommand
  rcases ha with ha | ht
  · simp only [ha, hc]
  · cases ha : s.audioIn <;> simp only [hc, ht]

/-- With no reset requested, a step is what the granted word does (00_scope R13). -/
theorem step_of_takeCommand {s t : State} {cw : Word72} (hr : s.resetPin = false)
    (ht : takeCommand s = some (cw, t)) : step s = runWord cw t := by
  simp only [step, hr, ht, Bool.false_eq_true, if_false]

/-- A word that decodes runs as its command (30_encoding R100). -/
theorem runWord_of_decode {cw : Word72} {i : Instr} (h : decode cw = .ok i) (s : State) : runWord cw s = exec i s := by
  simp only [runWord, h]

/-- The refusal of an illegal word, written out: one flag and one response (60_exceptions R253). -/
theorem refuseIllegal_eq (cw : Word72) (s : State) :
    refuseIllegal cw s = answered { s with flags := { s.flags with illegal := true } }
      (packWord 0x01 ((opField cw).setWidth 32) 0) := by
  rw [refuseIllegal, refuse_eq, zext32_opcode]
  rfl

/-- An illegal word is refused with `E_ILLEGAL` (30_encoding R98, 60_exceptions R253). -/
theorem runWord_of_isIllegal {cw : Word72} (h : isIllegal cw) (s : State) :
    runWord cw s = .next (answered { s with flags := { s.flags with illegal := true } }
      (packWord 0x01 ((opField cw).setWidth 32) 0)) := by
  cases hd : decode cw with
  | ok i => exact absurd hd (h i)
  | error e => simp only [runWord, hd, refuseIllegal_eq]

/-- Settles O6: the grant of each port fixes the word and the state it runs in; the decoder decides between the two ways
it can run. -/
theorem stepRunsGrantedCommand : Obligations.StepRunsGrantedCommand := by
  intro s t cw rest hr hgrant
  have hstep : step s = runWord cw t := by
    rcases hgrant with ⟨ha, hc, rfl⟩ | ⟨hc, ha, rfl⟩
    · exact step_of_takeCommand hr (takeCommand_audio ha hc)
    · exact step_of_takeCommand hr (takeCommand_ctrl hc ha)
  exact ⟨hstep, fun i hi => hstep.trans (runWord_of_decode hi t), fun hi => hstep.trans (runWord_of_isIllegal hi t)⟩

/-! ### No command stops -/

/-- A frame before the first PREPARE is refused (60_exceptions R252). -/
theorem frame_of_unprepared (C : Carrier F32) (inL inR : F32) {s : State} (hu : s.st = .unprepared) :
    frame C inL inR s = .next (refuse .unprep opFrame 0 s) := if_pos hu

/-- A frame with a read position out of range is refused (60_exceptions R255). -/
theorem frame_of_bad {C : Carrier F32} (inL inR : F32) {s : State} (hu : s.st ≠ .unprepared) (hb : frameBad C s ≠ 0) :
    frame C inL inR s = .next (refuse .range opFrame (frameBad C s) s) := by
  rw [frame, if_neg hu, if_pos hb]

/-- A frame has a next state when the cursor of a prepared CORE lies inside the buffer (20_memory R61): only a RAM word
at or above `LEN` could stop it. -/
theorem frame_next {s : State} (hcur : s.st ≠ .unprepared → s.wh < s.len) (inL inR : F32) :
    ∃ t, frame Carrier.f32 inL inR s = .next t := by
  by_cases hu : s.st = .unprepared
  · exact ⟨_, frame_of_unprepared _ inL inR hu⟩
  · by_cases hb : frameBad Carrier.f32 s = 0
    · obtain ⟨hl, hr⟩ := (frameBad_eq_zero _ s).mp hb
      obtain ⟨yL, yR, -, -, hf⟩ := frame_completes (inL := inL) (inR := inR) hu (hcur hu) hl hr
      exact ⟨_, hf⟩
    · exact ⟨_, frame_of_bad inL inR hu hb⟩

/-- PREPARE has a next state from every state (45 R220). -/
theorem prepare_next (C : Carrier F32) (sr : F32) (s : State) : ∃ t, prepare C sr s = .next t := by
  rcases prepare_cases C sr s with ⟨-, h⟩ | ⟨-, -, -, h⟩ | ⟨-, -, -, h⟩ | ⟨-, -, h⟩ <;> exact ⟨_, h⟩

/-- A SET has a next state from every state (40 R120). -/
theorem exec_setInstr_next (p : Param) (a : Word32) (s : State) : ∃ t, exec (setInstr p a) s = .next t := by
  rw [exec_setInstr]
  split <;> exact ⟨_, rfl⟩

/-- A GET has a next state from every state (40 R127). -/
theorem exec_getInstr_next (p : Param) (s : State) : ∃ t, exec (getInstr p) s = .next t := ⟨_, exec_getInstr p s⟩

/-- EVERY COMMAND HAS AN OUTCOME, a next state, when the cursor of a prepared CORE lies inside the buffer. -/
theorem exec_next {s : State} (hcur : s.st ≠ .unprepared → s.wh < s.len) (i : Instr) : ∃ t, exec i s = .next t := by
  cases i with
  | prepare sr bs => exact prepare_next _ sr s
  | frame inL inR => exact frame_next hcur inL inR
  | setDryWet v => exact exec_setInstr_next .dryWet v s
  | setFeedback v => exact exec_setInstr_next .feedback v s
  | setDepth v => exact exec_setInstr_next .depth v s
  | setRate v => exact exec_setInstr_next .rate v s
  | setPhase v => exact exec_setInstr_next .phase v s
  | setType n => exact exec_setInstr_next .type n s
  | getDryWet => exact exec_getInstr_next .dryWet s
  | getFeedback => exact exec_getInstr_next .feedback s
  | getDepth => exact exec_getInstr_next .depth s
  | getRate => exact exec_getInstr_next .rate s
  | getPhase => exact exec_getInstr_next .phase s
  | getType => exact exec_getInstr_next .type s
  | getst => exact ⟨_, rfl⟩

/-- The grant of a command moves neither the lifecycle, nor the cursor, nor the length (00_scope R14). -/
theorem takeCommand_keeps {s t : State} {cw : Word72} (h : takeCommand s = some (cw, t)) :
    t.st = s.st ∧ t.wh = s.wh ∧ t.len = s.len := by
  rcases takeCommand_cases h with ⟨rest, -, -, rfl⟩ | ⟨rest, -, -, rfl⟩ <;> exact ⟨rfl, rfl, rfl⟩

/-- Settles O43: of the ways a step can go, only a command could stop, and it runs in a state whose cursor the invariant
keeps inside the buffer. -/
theorem invariantStatesNeverStop : Obligations.InvariantStatesNeverStop := by
  intro s hs
  rcases step_cases (s := s) rfl with ⟨-, h⟩ | ⟨-, -, h⟩ | ⟨-, cw, t, ht, ⟨e, -, h⟩ | ⟨i, -, h⟩⟩
  · exact ⟨_, h⟩
  · exact ⟨_, h⟩
  · exact ⟨_, h⟩
  · obtain ⟨hst, hwh, hlen⟩ := takeCommand_keeps ht
    have hcur : t.st ≠ .unprepared → t.wh < t.len := by
      rw [hst, hwh, hlen]
      exact hs.lifecycle.cursor_inside
    rw [h]
    exact exec_next hcur i

end Sys2Proof.Machine
end

section
/-! SUPPORT. The ordered comparisons on patterns without a sign bit, and the legal values bit for bit (10_state R31 to R37; 00_scope R7). Settles O17. -/

namespace Sys2Proof.Machine

/-! ### A pattern by its sign bit -/

theorem signBit_eq_decide (x : F32) : signBit x = decide (2 ^ 31 ≤ x.toNat) := BitVec.msb_eq_decide x

/-- A pattern without the sign bit is its own magnitude. -/
theorem magBits_of_lt {x : F32} (h : x.toNat < 2 ^ 31) : magBits x = x.toNat := Nat.mod_eq_of_lt h

theorem value_of_lt {x : F32} (h : x.toNat < 2 ^ 31) : value x = unitsOf x.toNat := by
  rw [value_eq, signBit_eq_decide, decide_eq_false (Nat.not_le.mpr h), magBits_of_lt h]
  rfl

/-- A pattern with the sign bit is no positive number. -/
theorem value_nonpos_of_ge {x : F32} (h : 2 ^ 31 ≤ x.toNat) : value x ≤ 0 := by
  rw [value_eq, signBit_eq_decide, decide_eq_true h, if_pos rfl]
  omega

/-- Of the patterns with the sign bit only `-0` is not below zero. -/
theorem eq_negZero_of_value_nonneg {x : F32} (h : 2 ^ 31 ≤ x.toNat) (hv : 0 ≤ value x) : x = 0x80000000#32 := by
  rw [value_eq, signBit_eq_decide, decide_eq_true h, if_pos rfl] at hv
  have hmag : magBits x = 0 := unitsOf_eq_zero.mp (by omega)
  have hlt := x.isLt
  apply BitVec.eq_of_toNat_eq
  rw [BitVec.toNat_ofNat]
  unfold magBits at hmag
  omega

theorem isNan_eq_false_of_lt {x : F32} (h : x.toNat < 2 ^ 31) : isNan x = false ↔ x.toNat ≤ infMag := by
  rw [Bool.eq_false_iff, ne_eq, isNan_iff, magBits_of_lt h, Nat.not_lt]

/-! ### The ordered comparisons -/

theorem flt32_iff {a b : F32} : flt32 a b = true ↔ isNan a = false ∧ isNan b = false ∧ value a < value b := by
  simp [flt32, and_assoc]

theorem fle32_iff_not_nan {a b : F32} : fle32 a b = true ↔ isNan a = false ∧ isNan b = false ∧ value a ≤ value b := by
  simp [fle32, and_assoc]

/-- Patterns without the sign bit are ordered as their bits are, up to infinity (00_scope R7). -/
theorem fle32_iff_toNat {a b : F32} (ha : a.toNat < 2 ^ 31) (hb : b.toNat < 2 ^ 31) :
    fle32 a b = true ↔ a.toNat ≤ b.toNat ∧ b.toNat ≤ infMag := by
  have hle : (unitsOf a.toNat : Int) ≤ unitsOf b.toNat ↔ a.toNat ≤ b.toNat := Int.ofNat_le.trans unitsOf_le_iff
  rw [fle32_iff_not_nan, isNan_eq_false_of_lt ha, isNan_eq_false_of_lt hb, value_of_lt ha, value_of_lt hb, hle]
  omega

/-- Patterns without the sign bit are strictly ordered as their bits are, up to infinity (00_scope R7). -/
theorem flt32_iff_toNat {a b : F32} (ha : a.toNat < 2 ^ 31) (hb : b.toNat < 2 ^ 31) :
    flt32 a b = true ↔ a.toNat < b.toNat ∧ b.toNat ≤ infMag := by
  have hlt : (unitsOf a.toNat : Int) < unitsOf b.toNat ↔ a.toNat < b.toNat := Int.ofNat_lt.trans unitsOf_lt_iff
  rw [flt32_iff, isNan_eq_false_of_lt ha, isNan_eq_false_of_lt hb, value_of_lt ha, value_of_lt hb, hlt]
  omega

/-- Of the patterns with the sign bit only `-0` is not below `+0` in the carrier's order. -/
theorem eq_negZero_of_zero_fle {v : F32} (hv : 2 ^ 31 ≤ v.toNat) (h : fle32 0x00000000#32 v = true) : v = 0x80000000#32 :=
  eq_negZero_of_value_nonneg hv (fle32_iff_not_nan.mp h).2.2

/-- No positive pattern is below a pattern with the sign bit. -/
theorem fle32_eq_false_of_ge {a v : F32} (h0 : 0 < value a) (hv : 2 ^ 31 ≤ v.toNat) : fle32 a v = false := by
  have := value_nonpos_of_ge hv
  rw [Bool.eq_false_iff, ne_eq, fle32_iff_not_nan]
  omega

/-! ### The legal sets -/

theorem unitLegal_iff (v : F32) : unitLegal v = true ↔ v.toNat ≤ 0x3F800000 ∨ v = 0x80000000 := by
  rcases Nat.lt_or_ge v.toNat (2 ^ 31) with hv | hv
  · have hne : v ≠ 0x80000000 := by
      rintro rfl
      exact absurd hv (by decide)
    rw [unitLegal, Bool.and_eq_true, fle32_iff_toNat (by decide) hv, fle32_iff_toNat hv (by decide)]
    simp only [BitVec.toNat_ofNat, infMag, hne, or_false]
    omega
  · constructor
    · intro h
      rw [unitLegal, Bool.and_eq_true] at h
      exact .inr (eq_negZero_of_zero_fle hv h.1)
    · rintro (h | rfl)
      · omega
      · decide

theorem rateLegal_iff (v : F32) : rateLegal v = true ↔ 0x3DCCCCCD ≤ v.toNat ∧ v.toNat ≤ 0x41A00000 := by
  rcases Nat.lt_or_ge v.toNat (2 ^ 31) with hv | hv
  · rw [rateLegal, Bool.and_eq_true, fle32_iff_toNat (by decide) hv, fle32_iff_toNat hv (by decide)]
    simp only [BitVec.toNat_ofNat, infMag]
    omega
  · rw [rateLegal, fle32_eq_false_of_ge (by decide) hv]
    simp only [Bool.false_and, Bool.false_eq_true, false_iff]
    omega

theorem rateOfSampleLegal_iff (v : F32) : rateOfSampleLegal v = true ↔ 0 < v.toNat ∧ v.toNat < 0x7F800000 := by
  rcases Nat.lt_or_ge v.toNat (2 ^ 31) with hv | hv
  · rw [rateOfSampleLegal, Bool.and_eq_true, flt32_iff_toNat (by decide) hv, isFin_iff, magBits_of_lt hv]
    simp only [BitVec.toNat_ofNat, infMag]
    omega
  · have hnot : ¬ value 0x00000000#32 < value v := Int.not_lt.mpr (value_nonpos_of_ge hv)
    rw [rateOfSampleLegal, Bool.and_eq_true, flt32_iff]
    simp only [hnot, and_false, false_and, false_iff]
    omega

/-- Settles O17: a comparison with a pattern without the sign bit is a comparison of the bits. -/
theorem legalValuesBitForBit : Obligations.LegalValuesBitForBit :=
  ⟨unitLegal_iff, rateLegal_iff, rateOfSampleLegal_iff⟩

end Sys2Proof.Machine
end

section
/-! SUPPORT. The parameter registers as fields: what each state operation leaves in them, and the one way a command changes one (10_state R30). Settles O16. -/

namespace Sys2Proof.Machine

/-! ### A parameter register after each operation -/

/-- `zext_32` of a field of any width (00_scope R11). -/
theorem zext32_toNat {w : Nat} (x : BitVec w) : zext32 x.toNat = x.setWidth 32 := by
  apply BitVec.eq_of_toNat_eq
  simp [zext32]

/-- The field of `P_TYPE` tells its two bits. -/
theorem zext32_type_inj {x y : BitVec 2} (h : zext32 x.toNat = zext32 y.toNat) : x = y := by
  have hx := x.isLt
  have hy := y.isLt
  have hn := congrArg BitVec.toNat h
  simp only [zext32, BitVec.toNat_ofNat] at hn
  exact BitVec.eq_of_toNat_eq (by omega)

@[simp] theorem readParam_respond (p : Param) (rc : BitVec 8) (ra rb : Word32) (s : State) :
    readParam p (respond rc ra rb s) = readParam p s := by
  rw [respond_eq]
  cases p <;> rfl

@[simp] theorem readParam_refuse (p : Param) (e : ErrorCode) (op : BitVec 8) (info : Word32) (s : State) :
    readParam p (refuse e op info s) = readParam p s := by
  rw [refuse_eq]
  cases p <;> rfl

@[simp] theorem readParam_prepareWith (p : Param) (C : Carrier F32) (n : Nat) (sr : F32) (s : State) :
    readParam p (prepareWith C n sr s) = readParam p s := by cases p <;> rfl

@[simp] theorem readParam_frameFinish (p : Param) (C : Carrier F32) (inL inR yL yR : F32) (s : State) :
    readParam p (frameFinish C inL inR yL yR s) = readParam p s := by
  rw [frameFinish_eq]
  cases p <;> rfl

@[simp] theorem readParam_framedRams (p : Param) (C : Carrier F32) (inL inR : F32) (s : State) :
    readParam p (framedRams C inL inR s) = readParam p s := by cases p <;> rfl

/-- A legal value written is read back bit for bit; a legal type number has no bit above the two that are stored
(40 R120, R126). -/
theorem readParam_writeParam_same {p : Param} {a : Word32} (hl : paramLegal p a = true) (s : State) :
    readParam p (writeParam p a s) = a := by
  cases p
  case type =>
    have ha : a.toNat ≤ 3 := of_decide_eq_true hl
    apply BitVec.eq_of_toNat_eq
    simp only [readParam, writeParam, zext32, BitVec.extractLsb'_toNat, BitVec.toNat_ofNat, Nat.shiftRight_zero]
    omega
  all_goals rfl

/-- Writing one parameter register leaves the others alone (40 R120). -/
theorem readParam_writeParam_other {p q : Param} (h : q ≠ p) (a : Word32) (s : State) :
    readParam q (writeParam p a s) = readParam q s := by
  cases p <;> cases q <;> simp only [readParam, writeParam, ne_eq, not_true_eq_false] at h ⊢

/-! ### A parameter register after a command -/

/-- A command leaves a parameter register alone or is the SET that stored the legal value it now holds (40 R120). -/
theorem readParam_exec {i : Instr} {s t : State} (h : exec i s = .next t) (q : Param) :
    readParam q t = readParam q s ∨ (i = setInstr q (readParam q t) ∧ paramLegal q (readParam q t) = true) := by
  cases exec_cases h with
  | refused e info _ ht => exact .inl (by rw [ht, readParam_refuse])
  | stored p a hi hl ht =>
    rw [ht, readParam_respond]
    by_cases hq : q = p
    · subst hq
      rw [readParam_writeParam_same hl]
      exact .inr ⟨hi, hl⟩
    · exact .inl (readParam_writeParam_other hq a s)
  | got p _ ht => exact .inl (by rw [ht, readParam_respond])
  | gotStatus _ ht => exact .inl (by rw [ht, readParam_respond])
  | preparedFirst sr bs _ _ _ _ ht => exact .inl (by rw [ht, readParam_respond, readParam_prepareWith])
  | preparedAgain sr bs _ _ _ ht => exact .inl (by rw [ht, readParam_respond, readParam_prepareWith])
  | framed inL inR yL yR _ _ _ _ _ _ ht => exact .inl (by rw [ht, readParam_frameFinish, readParam_framedRams])

/-- A command leaves a parameter register alone or is the SET of the field it now holds (10_state R30). -/
theorem readParam_eq_or_set {i : Instr} {s t : State} (h : exec i s = .next t) (q : Param) :
    readParam q t = readParam q s ∨ i = setInstr q (readParam q t) :=
  (readParam_exec h q).imp_right And.left

/-- Settles O16: the fact about one register's field, for each of the six registers. -/
theorem parametersChangeOnlyByTheirSet : Obligations.ParametersChangeOnlyByTheirSet := by
  intro i s t h
  refine ⟨readParam_eq_or_set h .dryWet, readParam_eq_or_set h .feedback, readParam_eq_or_set h .depth,
    readParam_eq_or_set h .rate, readParam_eq_or_set h .phase, ?_⟩
  rw [← zext32_toNat]
  exact (readParam_eq_or_set h .type).imp_left zext32_type_inj

end Sys2Proof.Machine
end

section
/-! SUPPORT. The registers of the delay line and the lifecycle, `LEN`, `WH`, `SR`, `ST` and the RAMs: the ways a command moves them, and their widths (10_state R23, R38; 20_memory R74). Settles O46 and O47. -/

namespace Sys2Proof.Machine

/-! ### The registers of the delay line -/

/-- Two states agree in the configuration and in every register of the delay line and the lifecycle. -/
structure SameDelayLine (s t : State) : Prop where
  cfg : t.cfg = s.cfg
  st : t.st = s.st
  len : t.len = s.len
  wh : t.wh = s.wh
  sr : t.sr = s.sr
  bufL : t.bufL = s.bufL
  bufR : t.bufR = s.bufR

theorem sameDelayLine_respond (rc : BitVec 8) (ra rb : Word32) (s : State) : SameDelayLine s (respond rc ra rb s) := by
  rw [respond_eq]
  exact ⟨rfl, rfl, rfl, rfl, rfl, rfl, rfl⟩

theorem sameDelayLine_refuse (e : ErrorCode) (op : BitVec 8) (info : Word32) (s : State) :
    SameDelayLine s (refuse e op info s) := by
  rw [refuse_eq]
  exact ⟨rfl, rfl, rfl, rfl, rfl, rfl, rfl⟩

theorem sameDelayLine_set (p : Param) (a : Word32) (s : State) :
    SameDelayLine s (respond 0x00 0 0 (writeParam p a s)) := by
  rw [respond_eq]
  cases p <;> exact ⟨rfl, rfl, rfl, rfl, rfl, rfl, rfl⟩

/-- The grant of a command moves no register of the CORE (00_scope R14). -/
theorem sameDelayLine_takeCommand {s t : State} {cw : Word72} (h : takeCommand s = some (cw, t)) : SameDelayLine s t := by
  rcases takeCommand_cases h with ⟨rest, -, -, rfl⟩ | ⟨rest, -, -, rfl⟩ <;> exact ⟨rfl, rfl, rfl, rfl, rfl, rfl, rfl⟩

/-! ### What a command does to the delay line -/

/-- The length a PREPARE that completes works with: on the first one a length that fits the RAMs, later the length that
is already fixed (45 R220, R223). -/
inductive PrepareLength (s : State) (n : Nat) : Prop where
  | first (hu : s.st = .unprepared) (hpos : 1 ≤ n) (hfit : n ≤ s.cfg.ramDepth)
  | later (hu : s.st ≠ .unprepared) (hn : n = s.len)

/-- The delay line after a frame that wrote `vL` and `vR` at the cursor (45 R215). -/
def delayLineFramed (vL vR : F32) (s : State) : State :=
  { s with
    bufL := Memory.put s.wh vL s.bufL
    bufR := Memory.put s.wh vR s.bufR
    wh := advance s.wh s.len
    st := .processing }

/-- The ways one command can move the delay line. -/
inductive DelayLineMove (i : Instr) (s t : State) : Prop where
  /-- it is left alone -/
  | kept (h : SameDelayLine s t)
  /-- a PREPARE resets it (45 R220) -/
  | prepared (sr : F32) (bs : Word32) (n : Nat) (hi : i = .prepare sr bs) (hsr : rateOfSampleLegal sr = true)
      (hn : PrepareLength s n) (h : SameDelayLine (prepareWith Carrier.f32 n sr s) t)
  /-- a frame writes both RAMs and advances the cursor (45 R215) -/
  | framed (vL vR : F32) (hu : s.st ≠ .unprepared) (hw : s.wh < s.len) (h : SameDelayLine (delayLineFramed vL vR s) t)

theorem lenFits_iff {cfg : Config} {n : Nat} : lenFits cfg n = true ↔ 1 ≤ n ∧ n ≤ cfg.ramDepth := by
  simp [lenFits]

/-- A frame that completes moves the delay line as its name says. -/
theorem sameDelayLine_frameFinish (C : Carrier F32) (inL inR yL yR : F32) (s : State) :
    SameDelayLine (delayLineFramed (frameWritten C .left inL inR s) (frameWritten C .right inL inR s) s)
      (frameFinish C inL inR yL yR (framedRams C inL inR s)) := by
  rw [frameFinish_eq]
  exact ⟨rfl, rfl, rfl, rfl, rfl, rfl, rfl⟩

/-- WHAT A COMMAND CAN DO TO THE DELAY LINE: only a PREPARE and a frame that complete move it. -/
theorem exec_delayLine {i : Instr} {s t : State} (h : exec i s = .next t) : DelayLineMove i s t := by
  cases exec_cases h with
  | refused e info _ ht => exact .kept (ht ▸ sameDelayLine_refuse e _ info s)
  | stored p a _ _ ht => exact .kept (ht ▸ sameDelayLine_set p a s)
  | got p _ ht => exact .kept (ht ▸ sameDelayLine_respond _ _ _ s)
  | gotStatus _ ht => exact .kept (ht ▸ sameDelayLine_respond _ _ _ s)
  | preparedFirst sr bs hi hl hu hf ht =>
    obtain ⟨hpos, hfit⟩ := lenFits_iff.mp hf
    exact .prepared sr bs _ hi (srLegal_eq sr ▸ hl) (.first hu hpos hfit) (ht ▸ sameDelayLine_respond _ _ _ _)
  | preparedAgain sr bs hi hl hu ht =>
    exact .prepared sr bs _ hi (srLegal_eq sr ▸ hl) (.later hu rfl) (ht ▸ sameDelayLine_respond _ _ _ _)
  | framed inL inR yL yR _ hu _ hw _ _ ht => exact .framed _ _ hu hw (ht ▸ sameDelayLine_frameFinish _ inL inR yL yR s)

/-! ### The length and the widths -/

/-- No command writes the configuration (00_scope R5). -/
theorem exec_cfg {i : Instr} {s t : State} (h : exec i s = .next t) : t.cfg = s.cfg := by
  cases exec_delayLine h with
  | kept h => exact h.cfg
  | prepared sr bs n _ _ _ h => exact h.cfg
  | framed vL vR _ _ h => exact h.cfg

/-- Settles O46: of the moves of the delay line, only a PREPARE that finds `UNPREPARED` takes a new length. -/
theorem lengthIsFixedOnce : Obligations.LengthIsFixedOnce := by
  intro i s t h
  refine ⟨exec_cfg h, ?_⟩
  cases exec_delayLine h with
  | kept h => exact .inl h.len
  | prepared sr bs n hi _ hn h =>
    cases hn with
    | first hu _ _ => exact .inr ⟨hu, h.st, sr, bs, hi⟩
    | later _ hn => exact .inl (h.len.trans hn)
  | framed vL vR _ _ h => exact .inl h.len

/-- `AW` bits tell the words of a RAM apart (00_scope R5). -/
theorem ramDepth_le_two_pow_addrBits (cfg : Config) : cfg.ramDepth ≤ 2 ^ cfg.addrBits := by
  unfold Config.addrBits
  split
  · rename_i h
    exact h
  · have : cfg.ramDepth - 1 < 2 ^ (Nat.log2 (cfg.ramDepth - 1) + 1) := Nat.lt_log2_self
    omega

/-- Settles O47: the cursor lies below `LEN`, and `LEN` within `RAM_DEPTH`, which `AW` bits cover. -/
theorem cursorAndLengthFitTheirWidths : Obligations.CursorAndLengthFitTheirWidths := by
  intro s hs hu
  have hwh : s.wh < s.len := hs.lifecycle.cursor_inside hu
  have hlen : s.len ≤ 2 ^ s.cfg.addrBits := hs.lifecycle.len_fits.trans (ramDepth_le_two_pow_addrBits s.cfg)
  rw [Nat.pow_succ]
  omega

end Sys2Proof.Machine
end

section
/-! SUPPORT. The invariant of every reachable state: it holds at reset, and every step keeps it (10_state R46; 20_memory R61). Settles O9, O41 and O42. -/

namespace Sys2Proof.Machine

/-! ### What the parts of the invariant read -/

/-- The legality of the parameters, register by register; two bits hold no type number above 3 (10_state R36). -/
theorem paramsLegal_iff {s : State} : ParamsLegal s ↔ ∀ p, paramLegal p (readParam p s) = true := by
  constructor
  · rintro ⟨hdw, hfb, hdp, hrt, hpo⟩ p
    cases p with
    | dryWet => exact hdw
    | feedback => exact hfb
    | depth => exact hdp
    | rate => exact hrt
    | phase => exact hpo
    | type =>
      have hty := s.pType.isLt
      simp only [paramLegal, readParam, zext32, BitVec.toNat_ofNat, decide_eq_true_eq]
      omega
  · intro h
    exact ⟨h .dryWet, h .feedback, h .depth, h .rate, h .phase⟩

theorem LifecycleOk.congr {s t : State} (h : SameDelayLine s t) (hs : LifecycleOk s) : LifecycleOk t where
  unprepared_iff := by rw [h.st, h.len]; exact hs.unprepared_iff
  len_fits := by rw [h.len, h.cfg]; exact hs.len_fits
  cursor_inside := by rw [h.st, h.wh, h.len]; exact hs.cursor_inside
  rate_legal := by rw [h.st, h.sr]; exact hs.rate_legal

theorem RamsOk.congr {s t : State} (h : SameDelayLine s t) (hs : RamsOk s) : RamsOk t where
  left := by rw [h.len, h.bufL]; exact hs.left
  right := by rw [h.len, h.bufR]; exact hs.right

/-- The invariant reads the parameters, the configuration and the delay line, and nothing else. -/
theorem Inv.congr {s t : State} (hs : Inv s) (h : SameDelayLine s t) (hp : ∀ p, readParam p t = readParam p s) : Inv t where
  config := h.cfg ▸ hs.config
  params := paramsLegal_iff.mpr fun p => hp p ▸ paramsLegal_iff.mp hs.params p
  lifecycle := hs.lifecycle.congr h
  rams := hs.rams.congr h

/-! ### The moves of the delay line keep the invariant -/

/-- The length a PREPARE works with fits the RAMs (10_state R46 I-a, I-b). -/
theorem PrepareLength.fits {s : State} {n : Nat} (hs : LifecycleOk s) (hn : PrepareLength s n) :
    1 ≤ n ∧ n ≤ s.cfg.ramDepth := by
  cases hn with
  | first _ hpos hfit => exact ⟨hpos, hfit⟩
  | later hu hn =>
    subst hn
    exact ⟨Nat.one_le_iff_ne_zero.mpr (mt hs.unprepared_iff.mpr hu), hs.len_fits⟩

theorem lifecycleOk_prepareWith (C : Carrier F32) {n : Nat} {sr : F32} {s : State} (hpos : 1 ≤ n)
    (hfit : n ≤ s.cfg.ramDepth) (hsr : rateOfSampleLegal sr = true) : LifecycleOk (prepareWith C n sr s) where
  unprepared_iff := iff_of_false nofun (Nat.ne_of_gt hpos)
  len_fits := hfit
  cursor_inside _ := hpos
  rate_legal _ := hsr

theorem ramsOk_prepareWith (C : Carrier F32) (n : Nat) (sr : F32) (s : State) : RamsOk (prepareWith C n sr s) :=
  ⟨Memory.nil_wf n, Memory.nil_wf n⟩

/-- A frame keeps the lifecycle facts: the cursor advances around the ring (41 R153). -/
theorem lifecycleOk_delayLineFramed (vL vR : F32) {s : State} (hs : LifecycleOk s) (hu : s.st ≠ .unprepared)
    (hw : s.wh < s.len) : LifecycleOk (delayLineFramed vL vR s) where
  unprepared_iff := iff_of_false nofun (mt hs.unprepared_iff.mpr hu)
  len_fits := hs.len_fits
  cursor_inside _ := nextIndex_lt hw
  rate_legal _ := hs.rate_legal hu

/-- A write at a cursor inside the buffer keeps both RAMs in canonical form (log 1). -/
theorem ramsOk_delayLineFramed (vL vR : F32) {s : State} (hs : RamsOk s) (hw : s.wh < s.len) :
    RamsOk (delayLineFramed vL vR s) :=
  ⟨Memory.put_wf vL hw hs.left, Memory.put_wf vR hw hs.right⟩

/-- A move of the delay line keeps the lifecycle facts and the canonical form of the RAMs. -/
theorem DelayLineMove.keeps {i : Instr} {s t : State} (hmove : DelayLineMove i s t) (hl : LifecycleOk s) (hr : RamsOk s) :
    LifecycleOk t ∧ RamsOk t := by
  cases hmove with
  | kept h => exact ⟨hl.congr h, hr.congr h⟩
  | prepared sr bs n _ hsr hn h =>
    obtain ⟨hpos, hfit⟩ := hn.fits hl
    exact ⟨(lifecycleOk_prepareWith _ hpos hfit hsr).congr h, (ramsOk_prepareWith _ n sr s).congr h⟩
  | framed vL vR hu hw h =>
    exact ⟨(lifecycleOk_delayLineFramed vL vR hl hu hw).congr h, (ramsOk_delayLineFramed vL vR hr hw).congr h⟩

/-! ### One command -/

/-- A command keeps every parameter legal: a changed register holds the legal value its SET stored (10_state R46 I-c). -/
theorem exec_keeps_paramsLegal {i : Instr} {s t : State} (hs : ParamsLegal s) (h : exec i s = .next t) : ParamsLegal t := by
  rw [paramsLegal_iff] at *
  intro p
  rcases readParam_exec h p with hkept | ⟨-, hlegal⟩
  · rw [hkept]
    exact hs p
  · exact hlegal

/-- EVERY COMMAND KEEPS THE INVARIANT. -/
theorem exec_keeps_inv {i : Instr} {s t : State} (hs : Inv s) (h : exec i s = .next t) : Inv t := by
  obtain ⟨hlifecycle, hrams⟩ := (exec_delayLine h).keeps hs.lifecycle hs.rams
  exact ⟨exec_cfg h ▸ hs.config, exec_keeps_paramsLegal hs.params h, hlifecycle, hrams⟩

/-! ### Reset, grant and refusal -/

/-- The reset values of the parameters are legal (10_state R31 to R35, R45). -/
theorem paramsLegal_hardwareReset (s : State) : ParamsLegal (hardwareReset s) := by
  have hhalf : unitLegal 0x3F000000#32 = true := by decide
  have hten : rateLegal 0x41200000#32 = true := by decide
  have hzero : unitLegal 0#32 = true := by decide
  exact ⟨hhalf, hhalf, hhalf, hten, hzero⟩

/-- Hardware reset establishes the invariant in every configuration that meets its constraints (10_state R45). -/
theorem inv_hardwareReset {s : State} (hcfg : ConfigOk s.cfg) : Inv (hardwareReset s) where
  config := hcfg
  params := paramsLegal_hardwareReset s
  lifecycle := ⟨iff_of_true rfl rfl, Nat.zero_le _, absurd rfl, absurd rfl⟩
  rams := ⟨Memory.nil_wf 0, Memory.nil_wf 0⟩

/-- The grant of a command keeps the invariant (00_scope R14). -/
theorem takeCommand_keeps_inv {s t : State} {cw : Word72} (hs : Inv s) (h : takeCommand s = some (cw, t)) : Inv t := by
  refine hs.congr (sameDelayLine_takeCommand h) fun p => ?_
  rcases takeCommand_cases h with ⟨rest, -, -, rfl⟩ | ⟨rest, -, -, rfl⟩ <;> cases p <;> rfl

/-- A refusal keeps the invariant (60_exceptions R250). -/
theorem refuse_keeps_inv {s : State} (hs : Inv s) (e : ErrorCode) (op : BitVec 8) (info : Word32) :
    Inv (refuse e op info s) :=
  hs.congr (sameDelayLine_refuse e op info s) fun p => readParam_refuse p e op info s

/-! ### The obligations -/

/-- Settles O42: each way a step can go keeps the invariant. -/
theorem stepKeepsInvariant : Obligations.StepKeepsInvariant := by
  intro s u hs hstep
  rcases step_cases hstep with ⟨-, h⟩ | ⟨-, -, h⟩ | ⟨-, cw, t, ht, ⟨e, -, h⟩ | ⟨i, -, h⟩⟩
  · cases h
    exact inv_hardwareReset hs.config
  · cases h
    exact hs
  · cases h
    exact refuse_keeps_inv (takeCommand_keeps_inv hs ht) _ _ _
  · exact exec_keeps_inv (takeCommand_keeps_inv hs ht) h.symm

/-- The defaults meet the constraints of the configuration (00_scope R5). -/
theorem configOk_default : ConfigOk Config.default := ⟨by decide, by decide, by decide, by decide⟩

/-- The reset state is one that hardware reset leaves as it is (10_state R45). -/
theorem hardwareReset_reset : hardwareReset State.reset = State.reset := rfl

/-- Settles O41: the reset state is the outcome of a hardware reset in the default configuration. -/
theorem resetMeetsInvariant : Obligations.ResetMeetsInvariant := by
  rw [Obligations.ResetMeetsInvariant, ← hardwareReset_reset]
  exact inv_hardwareReset configOk_default

/-- Settles O9: each register of the reset state against the spec's column. -/
theorem resetStateHasSpecValues : Obligations.ResetStateHasSpecValues :=
  ⟨rfl, rfl, rfl, rfl, rfl, rfl, rfl, rfl, rfl, rfl, rfl, rfl, rfl, rfl, rfl, rfl⟩

end Sys2Proof.Machine
end

section
/-! SUPPORT. The decoder and the encoder are inverse to each other, and the opcode table accepts the same words (30_encoding R90, R95 to R101). Settles O1, O2, O3 and O5. -/

namespace Sys2Proof

/-! ### Decoding and encoding -/

/-- The decode procedure finds each command from the fields it assembles to (30_encoding R95, R100). -/
theorem decodeFields_encodeFields (i : Instr) :
    decodeFields (encodeFields i).op (encodeFields i).a (encodeFields i).b = .ok i := by
  cases i <;> rfl

@[simp] theorem decode_encode (i : Instr) : decode (encode i) = .ok i := by
  rw [encode, decode_packWord, decodeFields_encodeFields]

theorem encode_of_decode {cw : Word72} {i : Instr} (h : decode cw = .ok i) : encode i = cw := by
  obtain ⟨hop, ha, hb⟩ := decodeFields_ok h
  rw [encode, ← hop, ← ha, ← hb, packWord_fields]

/-- A command has one word, and that word has one command (30_encoding R100). -/
theorem decode_eq_ok_iff {cw : Word72} {i : Instr} : decode cw = .ok i ↔ encode i = cw :=
  ⟨encode_of_decode, fun h => h ▸ decode_encode i⟩

/-- Settles O1: the decode procedure on the fields of a packed word. -/
theorem decodeEncodeGivesCommand : Obligations.DecodeEncodeGivesCommand := decode_encode

/-- Settles O2: an accepted word has the fields of its command, and a word has nothing but its fields. -/
theorem acceptedWordIsItsEncoding : Obligations.AcceptedWordIsItsEncoding := fun _ _ => encode_of_decode

/-- Settles O5: each word is what its command assembles to. -/
theorem sampleWordsDecode : Obligations.SampleWordsDecode := by
  simp only [Obligations.SampleWordsDecode, decode_eq_ok_iff]
  decide

/-! ### The opcode table -/

/-- The fields of a masked word are the masked fields. -/
theorem packWord_and (x y : BitVec 8) (a b c d : Word32) :
    packWord x a b &&& packWord y c d = packWord (x &&& y) (a &&& c) (b &&& d) := by
  unfold packWord
  rw [BitVec.and_append, BitVec.and_append]

theorem packWord_inj {x y : BitVec 8} {a b c d : Word32} :
    packWord x a b = packWord y c d ↔ x = y ∧ a = c ∧ b = d := by
  constructor
  · intro h
    exact ⟨by simpa using congrArg opField h, by simpa using congrArg aField h, by simpa using congrArg bField h⟩
  · rintro ⟨rfl, rfl, rfl⟩
    rfl

/-- The mask of a field: all of its bits when it must be zero, none of them when it is an operand (30_encoding R97). -/
def fieldMask (mustBeZero : Bool) : Word32 := if mustBeZero then BitVec.allOnes 32 else 0

theorem and_fieldMask_eq_zero {z : Bool} {w : Word32} : w &&& fieldMask z = 0 ↔ (z = true → w = 0) := by
  cases z with
  | false => simp [fieldMask]
  | true => simp only [fieldMask, if_true, BitVec.and_allOnes, true_imp_iff]

/-- The match of a row is the opcode alone (30_encoding R97). -/
theorem rowOf_value (i : Instr) : (rowOf i).value = packWord (encodeFields i).op 0 0 := by
  cases i <;> dsimp only [rowOf, encodeFields] <;> decide

/-- The mask of a row covers the opcode and the fields that must be zero (30_encoding R97). -/
theorem rowOf_mask (i : Instr) : (rowOf i).mask = packWord (BitVec.allOnes 8)
    (fieldMask (mustBeZeroA (encodeFields i).op)) (fieldMask (mustBeZeroB (encodeFields i).op)) := by
  cases i <;> dsimp only [rowOf, encodeFields] <;> decide

/-- A word matches a row when it has the opcode and its `MBZ` fields are zero (30_encoding R95, R97). -/
theorem rowOf_matches_iff_fields {i : Instr} {cw : Word72} : (rowOf i).matches cw = true ↔
    opField cw = (encodeFields i).op ∧ (mustBeZeroA (encodeFields i).op = true → aField cw = 0) ∧
      (mustBeZeroB (encodeFields i).op = true → bField cw = 0) := by
  have hand : cw &&& (rowOf i).mask = packWord (opField cw) (aField cw &&& fieldMask (mustBeZeroA (encodeFields i).op))
      (bField cw &&& fieldMask (mustBeZeroB (encodeFields i).op)) := by
    conv_lhs => rw [← packWord_fields cw, rowOf_mask, packWord_and, BitVec.and_allOnes]
  rw [TableRow.matches, decide_eq_true_iff, hand, rowOf_value, packWord_inj, and_fieldMask_eq_zero,
    and_fieldMask_eq_zero]

/-- Every command assembles to well-formed fields (30_encoding R91, R95). -/
theorem encodeFields_wellFormed (i : Instr) : (encodeFields i).wellFormed = true := by
  cases i with
  | prepare sr bs => exact Laws.EncodeWellFormed.prepare sr bs
  | frame inL inR => exact Laws.EncodeWellFormed.frame inL inR
  | setDryWet v => exact Laws.EncodeWellFormed.setDryWet v
  | setFeedback v => exact Laws.EncodeWellFormed.setFeedback v
  | setDepth v => exact Laws.EncodeWellFormed.setDepth v
  | setRate v => exact Laws.EncodeWellFormed.setRate v
  | setPhase v => exact Laws.EncodeWellFormed.setPhase v
  | setType n => exact Laws.EncodeWellFormed.setType n
  | getDryWet => exact Laws.EncodeWellFormed.getDryWet
  | getFeedback => exact Laws.EncodeWellFormed.getFeedback
  | getDepth => exact Laws.EncodeWellFormed.getDepth
  | getRate => exact Laws.EncodeWellFormed.getRate
  | getPhase => exact Laws.EncodeWellFormed.getPhase
  | getType => exact Laws.EncodeWellFormed.getType
  | getst => exact Laws.EncodeWellFormed.getst

theorem wellFormed_iff {c : Command} : c.wellFormed = true ↔
    opcodeKnown c.op = true ∧ (mustBeZeroA c.op = true → c.a = 0) ∧ (mustBeZeroB c.op = true → c.b = 0) := by
  simp only [Command.wellFormed, Bool.and_eq_true, Bool.or_eq_true, Bool.not_eq_true', decide_eq_true_eq, and_assoc,
    ← Bool.not_eq_true, imp_iff_not_or]
  rfl

/-- The word of a command matches the row of the command (30_encoding R97). -/
theorem rowOf_matches_encode (i : Instr) : (rowOf i).matches (encode i) = true := by
  obtain ⟨-, ha, hb⟩ := wellFormed_iff.mp (encodeFields_wellFormed i)
  rw [rowOf_matches_iff_fields, encode, opField_packWord, aField_packWord, bField_packWord]
  exact ⟨rfl, ha, hb⟩

theorem mustBeZeroB_opSet (p : Param) : mustBeZeroB (opSet p) = true := by
  cases p <;> decide

/-- Fields with the opcode of a command and zero where they must be zero decode, to a command of the same row
(30_encoding R100). -/
theorem decodeFields_of_mustBeZero (i : Instr) {a b : Word32}
    (ha : mustBeZeroA (encodeFields i).op = true → a = 0) (hb : mustBeZeroB (encodeFields i).op = true → b = 0) :
    ∃ j, decodeFields (encodeFields i).op a b = .ok j ∧ rowOf j = rowOf i := by
  cases i with
  | prepare => exact ⟨.prepare a b, rfl, rfl⟩
  | frame => exact ⟨.frame a b, rfl, rfl⟩
  | setDryWet => exact ⟨.setDryWet a, if_pos (hb (mustBeZeroB_opSet .dryWet)), rfl⟩
  | setFeedback => exact ⟨.setFeedback a, if_pos (hb (mustBeZeroB_opSet .feedback)), rfl⟩
  | setDepth => exact ⟨.setDepth a, if_pos (hb (mustBeZeroB_opSet .depth)), rfl⟩
  | setRate => exact ⟨.setRate a, if_pos (hb (mustBeZeroB_opSet .rate)), rfl⟩
  | setPhase => exact ⟨.setPhase a, if_pos (hb (mustBeZeroB_opSet .phase)), rfl⟩
  | setType => exact ⟨.setType a, if_pos (hb (mustBeZeroB_opSet .type)), rfl⟩
  | getDryWet | getFeedback | getDepth | getRate | getPhase | getType | getst =>
    obtain rfl := ha rfl
    obtain rfl := hb rfl
    exact ⟨_, rfl, rfl⟩

/-- WHAT A ROW OF THE TABLE ACCEPTS: the words of the commands of that row, and no others (30_encoding R97, R100). -/
theorem rowOf_matches_iff {i : Instr} {cw : Word72} :
    (rowOf i).matches cw = true ↔ ∃ j, decode cw = .ok j ∧ rowOf j = rowOf i := by
  constructor
  · intro h
    obtain ⟨hop, ha, hb⟩ := rowOf_matches_iff_fields.mp h
    rw [decode, hop]
    exact decodeFields_of_mustBeZero i ha hb
  · rintro ⟨j, hj, hrow⟩
    rw [← hrow, ← encode_of_decode hj]
    exact rowOf_matches_encode j

theorem rowOf_mem_opcodeTable (i : Instr) : rowOf i ∈ opcodeTable := by
  cases i <;> simp [opcodeTable, rowOf]

/-- Every row of the table is the row of a command (30_encoding R95, R97). -/
theorem exists_rowOf_of_mem {r : TableRow} (h : r ∈ opcodeTable) : ∃ i, r = rowOf i := by
  simp only [opcodeTable, List.mem_cons, List.not_mem_nil, or_false] at h
  rcases h with h | h | h | h | h | h | h | h | h | h | h | h | h | h | h <;> exact ⟨_, h⟩

/-- Settles O3: a row of the table is the row of a command, and accepts the words of the commands of that row alone. -/
theorem decoderAgreesWithOpcodeTable : Obligations.DecoderAgreesWithOpcodeTable := by
  refine ⟨fun cw i hi => ⟨rowOf_mem_opcodeTable i, fun r hr => ?_⟩, fun cw hcw r hr => ?_⟩
  · obtain ⟨k, rfl⟩ := exists_rowOf_of_mem hr
    simp only [rowOf_matches_iff, hi, Except.ok.injEq, exists_eq_left']
    exact eq_comm
  · obtain ⟨k, rfl⟩ := exists_rowOf_of_mem hr
    rw [← Bool.not_eq_true, rowOf_matches_iff]
    rintro ⟨j, hj, -⟩
    exact hcw j hj

end Sys2Proof
end

section
/-! SUPPORT. The one answer of a command word: what a completion leaves in the two response streams, and what a refusal changes (30_encoding R93, R94; 60_exceptions R250, R251, R258). Settles O10. -/

namespace Sys2Proof.Machine

/-! ### A completion -/

/-- One response was appended, on the port of the command, and the other port's stream is as it was (30_encoding R93). -/
structure Responded (s t : State) (rw : Word72) : Prop where
  audio : t.audioOut = audioAfter s rw
  ctrl : t.ctrlOut = ctrlAfter s rw

theorem responded_respond (rc : BitVec 8) (ra rb : Word32) (s : State) :
    Responded s (respond rc ra rb s) (packWord rc ra rb) := ⟨respond_audioOut rc ra rb s, respond_ctrlOut rc ra rb s⟩

/-- Which responses follow depends on the port and on the two streams alone. -/
theorem Responded.of_streams {s u t : State} {rw : Word72} (h : Responded u t rw) (hp : u.port = s.port)
    (ha : u.audioOut = s.audioOut) (hc : u.ctrlOut = s.ctrlOut) : Responded s t rw where
  audio := by rw [h.audio, audioAfter, audioAfter, hp, ha]
  ctrl := by rw [h.ctrl, ctrlAfter, ctrlAfter, hp, hc]

theorem responded_frameFinish (C : Carrier F32) (inL inR yL yR : F32) (s : State) :
    Responded s (frameFinish C inL inR yL yR s)
      (packWord 0x00 (enc32 (frameOut C .left inL yL s)) (enc32 (frameOut C .right inR yR s))) := by
  rw [frameFinish_eq]
  exact ⟨rfl, rfl⟩

/-! ### A refusal -/

/-- The information words of a fault: which channels are out of range for `E_RANGE`, zero otherwise (60 R251). -/
def InfoOf (e : ErrorCode) (info : Word32) : Prop := if e = .range then info = 1 ∨ info = 2 ∨ info = 3 else info = 0

theorem Refused.infoOf {i : Instr} {s : State} {e : ErrorCode} {info : Word32} (h : Refused i s e info) :
    InfoOf e info := by
  cases h with
  | badValue | badRate | noRoom | notPrepared => rfl
  | outOfRange inL inR _ _ hb => exact (frameBad_cases _ s).resolve_left hb

/-- The state after a refusal, with the opcode of the refused word echoed (60_exceptions R258). -/
theorem refuse_opField_eq (e : ErrorCode) (cw : Word72) (info : Word32) (s : State) :
    refuse e (opField cw) info s = answered { s with flags := s.flags.set e }
      (packWord e.code ((opField cw).setWidth 32) info) := by
  rw [refuse_eq, zext32_opcode]

/-! ### A command word -/

/-- A command completes with one response of code 0, or is refused under its own opcode (30_encoding R94). -/
theorem exec_completes_or_refuses {i : Instr} {s t : State} (h : exec i s = .next t) :
    (∃ ra rb, Responded s t (packWord 0x00 ra rb)) ∨
      ∃ e info, InfoOf e info ∧ t = refuse e (encodeFields i).op info s := by
  cases exec_cases h with
  | refused e info hc ht => exact .inr ⟨e, info, hc.infoOf, ht⟩
  | stored p a _ _ ht =>
    subst ht
    exact .inl ⟨_, _, (responded_respond _ _ _ _).of_streams (writeParam_port p a s) (writeParam_audioOut p a s)
      (writeParam_ctrlOut p a s)⟩
  | got p _ ht => exact .inl ⟨_, _, ht ▸ responded_respond _ _ _ s⟩
  | gotStatus _ ht => exact .inl ⟨_, _, ht ▸ responded_respond _ _ _ s⟩
  | preparedFirst sr bs _ _ _ _ ht =>
    subst ht
    exact .inl ⟨_, _, (responded_respond _ _ _ _).of_streams rfl rfl rfl⟩
  | preparedAgain sr bs _ _ _ ht =>
    subst ht
    exact .inl ⟨_, _, (responded_respond _ _ _ _).of_streams rfl rfl rfl⟩
  | framed inL inR yL yR _ _ _ _ _ _ ht =>
    subst ht
    exact .inl ⟨_, _, (responded_frameFinish _ inL inR yL yR _).of_streams rfl rfl rfl⟩

/-- A command word completes with one response of code 0, or is refused under its own opcode (30_encoding R94, R98). -/
theorem runWord_completes_or_refuses {cw : Word72} {s t : State} (h : runWord cw s = .next t) :
    (∃ ra rb, Responded s t (packWord 0x00 ra rb)) ∨ ∃ e info, InfoOf e info ∧ t = refuse e (opField cw) info s := by
  cases hd : decode cw with
  | error e =>
    simp only [runWord, hd] at h
    cases h
    exact .inr ⟨.illegal, 0, rfl, rfl⟩
  | ok i =>
    rw [runWord_of_decode hd] at h
    obtain ⟨hop, -, -⟩ := decodeFields_ok hd
    rw [hop]
    exact exec_completes_or_refuses h

/-- Settles O10: a completion answers code 0; a refusal is written out for each of the five faults. -/
theorem everyWordGetsOneResponse : Obligations.EveryWordGetsOneResponse := by
  intro cw s t h
  rcases runWord_completes_or_refuses h with ⟨ra, rb, haudio, hctrl⟩ | ⟨e, info, hinfo, ht⟩
  · exact ⟨0, ra, rb, haudio, hctrl, .inl rfl⟩
  · rw [refuse_opField_eq] at ht
    refine ⟨e.code, (opField cw).setWidth 32, info, by rw [ht]; rfl, by rw [ht]; rfl, .inr ⟨rfl, ?_⟩⟩
    cases e with
    | illegal => exact .inl ⟨rfl, hinfo, ht⟩
    | unprep => exact .inr (.inl ⟨rfl, hinfo, ht⟩)
    | param => exact .inr (.inr (.inl ⟨rfl, hinfo, ht⟩))
    | range => exact .inr (.inr (.inr (.inl ⟨rfl, hinfo, ht⟩)))
    | capacity => exact .inr (.inr (.inr (.inr ⟨rfl, hinfo, ht⟩)))

end Sys2Proof.Machine
end

section
/-! SUPPORT. The parameter and status commands from the word to the answer: one rule for the SET of any parameter, one for the commands without operands (40_parameter_commands R120 to R134). Settles O12, O13, O14 and O15. -/

namespace Sys2Proof.Machine

/-! ### A field that must be zero -/

/-- A word with a field that must be zero and is not is refused with `E_ILLEGAL`, under its opcode byte: no command
assembles to it (30_encoding R91, R98; 60_exceptions R253). -/
theorem runWord_of_mustBeZero {op : BitVec 8} {a b : Word32}
    (h : mustBeZeroA op = true ∧ a ≠ 0 ∨ mustBeZeroB op = true ∧ b ≠ 0) (s : State) : runWord (packWord op a b) s
      = .next (answered { s with flags := { s.flags with illegal := true } } (packWord 0x01 (op.setWidth 32) 0)) := by
  have hillegal : isIllegal (packWord op a b) := by
    intro i hi
    rw [decode_packWord] at hi
    obtain ⟨rfl, rfl, rfl⟩ := decodeFields_ok hi
    obtain ⟨-, ha, hb⟩ := wellFormed_iff.mp (encodeFields_wellFormed i)
    rcases h with ⟨hz, hne⟩ | ⟨hz, hne⟩
    · exact hne (ha hz)
    · exact hne (hb hz)
  rw [runWord_of_isIllegal hillegal, opField_packWord]

theorem mustBeZeroB_of_mustBeZeroA {op : BitVec 8} (h : mustBeZeroA op = true) : mustBeZeroB op = true := by
  rw [mustBeZeroB, h, Bool.or_true]

/-! ### The SET commands -/

/-- A SET assembles to its opcode, its operand and a zero field (30_encoding R95). -/
theorem encode_setInstr (p : Param) (a : Word32) : encode (setInstr p a) = packWord (opSet p) a 0 := by
  cases p <;> rfl

/-- A parameter register can be written before or after the answer is sent. -/
theorem writeParam_answered (p : Param) (a : Word32) (rw : Word72) (s : State) :
    writeParam p a (answered s rw) = answered (writeParam p a s) rw := by
  cases p <;> rfl

/-- `P_TYPE` takes bits 1:0 of the operand (40 R126). -/
theorem writeParam_type (a : Word32) (s : State) : writeParam .type a s = { s with pType := a.setWidth 2 } := by
  rw [BitVec.setWidth_eq_extractLsb' (by decide)]
  rfl

/-- The answer of a SET is a word of zeros (40 R120). -/
theorem packWord_zero : packWord 0 0 0 = 0 := by decide

/-- THE SET OF ANY PARAMETER, whole: the six differ in the legal values and in the register written alone
(40 R120 to R126). -/
theorem setRule (p : Param) : SetRule (opSet p) (setInstr p) (paramLegal p) (writeParam p) where
  encoded v := decode_eq_ok_iff.mpr (encode_setInstr p v)
  mbz v b s hb := runWord_of_mustBeZero (.inr ⟨mustBeZeroB_opSet p, hb⟩) s
  stores v s hl := by rw [exec_setInstr, if_pos hl, respond_eq, packWord_zero, writeParam_answered]
  refuses v s hl := by
    rw [exec_setInstr, if_neg (Bool.eq_false_iff.mp hl), refuse_eq, zext32_opcode]
    rfl

/-- Settles O12: the rule of a SET at each of the five `F` parameters. -/
theorem floatParameterSets : Obligations.FloatParameterSets :=
  ⟨setRule .dryWet, setRule .feedback, setRule .depth, setRule .rate, setRule .phase⟩

/-- Settles O13: the rule of a SET at the parameter that takes two bits of its operand. -/
theorem typeParameterSet : Obligations.TypeParameterSet := by
  simp only [Obligations.TypeParameterSet, ← writeParam_type]
  exact setRule .type

/-! ### The commands without operands -/

/-- A command without operands assembles to its opcode alone (30_encoding R91, R95). -/
theorem encode_of_mustBeZeroA {i : Instr} (hz : mustBeZeroA (encodeFields i).op = true) :
    encode i = packWord (encodeFields i).op 0 0 := by
  obtain ⟨-, ha, hb⟩ := wellFormed_iff.mp (encodeFields_wellFormed i)
  rw [encode, ha hz, hb (mustBeZeroB_of_mustBeZeroA hz)]

/-- A COMMAND WITHOUT OPERANDS, whole, once its answer is known: both of its fields must be zero (40 R127 to R134). -/
theorem getRule {i : Instr} {field : State → Word32} (hz : mustBeZeroA (encodeFields i).op = true)
    (hanswer : ∀ s, exec i s = .next (respond 0x00 (field s) 0 s)) : GetRule (encodeFields i).op i field where
  encoded := decode_eq_ok_iff.mpr (encode_of_mustBeZeroA hz)
  mbz a b s hab := runWord_of_mustBeZero (hab.imp (And.intro hz) (And.intro (mustBeZeroB_of_mustBeZeroA hz))) s
  answers s := by rw [hanswer, respond_eq]

/-! ### The status word -/

/-- An appended field as the low digits of a number (00_scope R11). -/
theorem toNat_append_eq_add {m n : Nat} (x : BitVec m) (y : BitVec n) :
    (x ++ y).toNat = x.toNat * 2 ^ n + y.toNat := by
  rw [BitVec.toNat_append, ← Nat.shiftLeft_add_eq_or_of_lt y.isLt, Nat.shiftLeft_eq]

/-- `STATUS` as a number: `ST` in bits 1:0, the flags in bits 4 to 8 (10_state R39, 40 R134). -/
theorem statusWord_eq_ofNat (f : Flags) (st : Lifecycle) : statusWord f st = BitVec.ofNat 32
    (st.code.toNat + 16 * f.illegal.toNat + 32 * f.unprep.toNat + 64 * f.param.toNat + 128 * f.range.toNat
      + 256 * f.capacity.toNat) := by
  have hsum : (statusWord f st).toNat = st.code.toNat + 16 * f.illegal.toNat + 32 * f.unprep.toNat
      + 64 * f.param.toNat + 128 * f.range.toNat + 256 * f.capacity.toNat := by
    simp only [statusWord, toNat_append_eq_add, BitVec.toNat_ofBool, BitVec.toNat_ofNat]
    omega
  rw [← hsum, BitVec.ofNat_toNat, BitVec.setWidth_eq]

/-- GETST answers the status view and changes nothing else (40 R134). -/
theorem exec_getst (s : State) : exec .getst s = .next (respond 0x00 (statusWord s.flags s.st) 0 s) := rfl

/-- Settles O15: the rule of a command without operands, with the status read as a number. -/
theorem statusRead : Obligations.StatusRead := by
  refine getRule (i := .getst) (by decide) fun s => ?_
  rw [exec_getst, statusWord_eq_ofNat]
  cases s.st <;> rfl

/-! ### The GET commands -/

/-- THE GET OF ANY PARAMETER, whole: it answers the register as a field (40 R127). -/
theorem getRule_getInstr (p : Param) : GetRule (encodeFields (getInstr p)).op (getInstr p) (readParam p) :=
  getRule (by cases p <;> decide) (exec_getInstr p)

/-- Settles O14: the rule of a GET at each of the six parameters, and its answers in the reset state. -/
theorem parameterGets : Obligations.ParameterGets := by
  have htype : GetRule 0x25 .getType (fun s => s.pType.setWidth 32) := by
    simp only [← zext32_toNat]
    exact getRule_getInstr .type
  exact ⟨getRule_getInstr .dryWet, getRule_getInstr .feedback, getRule_getInstr .depth, getRule_getInstr .rate,
    getRule_getInstr .phase, htype, (getRule_getInstr .dryWet).answers _, (getRule_getInstr .feedback).answers _,
    (getRule_getInstr .depth).answers _, (getRule_getInstr .rate).answers _, (getRule_getInstr .phase).answers _⟩

end Sys2Proof.Machine
end

section
/-! SUPPORT. The delay buffer: the index around the ring, the integer part of a position, the range check bit for bit, and the datapath formulas written out in binary32 (41_delay_buffer R151 to R154). Settles O28, O29, O30 and O31. -/

namespace Sys2Proof.Machine

/-! ### The index around the ring -/

/-- The next index is the successor modulo the length (41 R152, R153). -/
theorem nextIndex_eq_mod {len i : Nat} (h : i < len) : nextIndex len i = (i + 1) % len := by
  unfold nextIndex
  split
  case isTrue hwrap => rw [hwrap, Nat.mod_self]
  case isFalse hne => rw [Nat.mod_eq_of_lt (by omega)]

/-- Settles O29: ADVANCE is the next index of the cursor. -/
theorem advanceIsModular : Obligations.AdvanceIsModular :=
  fun _ _ h => ⟨nextIndex_eq_mod h, nextIndex_lt h⟩

/-- Settles O30: the lower index is below the length, and the upper one is the next index. -/
theorem checkedPositionGivesLegalIndices : Obligations.CheckedPositionGivesLegalIndices := by
  intro len pos h
  have hlow := lowerIndex_lt h
  exact ⟨hlow, nextIndex_eq_mod hlow, nextIndex_lt hlow⟩

/-! ### The range check bit for bit -/

/-- `i2f` gives a pattern without the sign bit (00_scope R7). -/
theorem i2f32_toNat (n : Nat) : (i2f32 n).toNat = roundMag (n * 2 ^ 149) 1 := by
  rw [i2f32, packSign_toNat false (roundMag_lt _ _), if_neg Bool.false_ne_true, Nat.add_zero]

/-- The pattern of a length is below that of infinity: `i2f` of it is finite (00_scope R7). -/
theorem i2f32_toNat_lt_inf {n : Nat} (h : n ≤ 2 ^ 24) : (i2f32 n).toNat < infMag := by
  rw [i2f32_toNat]
  exact (unitsOf_i2f h).2

/-- The pattern of a length other than zero is above that of `+0` (00_scope R7). -/
theorem i2f32_toNat_pos {n : Nat} (h1 : 1 ≤ n) (h : n ≤ 2 ^ 24) : 0 < (i2f32 n).toNat := by
  have hunits := (unitsOf_i2f h).1
  rw [← i2f32_toNat] at hunits
  refine Nat.pos_of_ne_zero fun h0 => ?_
  rw [h0, unitsOf_zero] at hunits
  omega

/-- The range check is the two ordered comparisons of the carrier for every length a RAM can have (41 R154). -/
theorem rangeOk_iff_comparisons {len : Nat} (h : len ≤ 2 ^ 24) (pos : F32) :
    rangeOk Carrier.f32 len pos = true ↔ fle32 0x00000000#32 pos = true ∧ flt32 pos (i2f32 len) = true := by
  rw [rangeOk_f32, finIdx_eq_comparisons pos h, lit_zero, fge32, Bool.and_eq_true]

/-- Both zeros are in range of every length other than zero (41 R154). -/
theorem rangeOk_negZero {len : Nat} (h1 : 1 ≤ len) : rangeOk Carrier.f32 len 0x80000000#32 = true := by
  have hnan : isNan 0x80000000#32 = false := by decide
  have hvalue : value 0x80000000#32 = 0 := by decide
  rw [rangeOk_f32, finIdx32, hnan, hvalue]
  simp only [Bool.not_false, le_refl, decide_true, Bool.and_self, Bool.true_and, decide_eq_true_eq]
  omega

/-- THE RANGE CHECK BIT FOR BIT: `-0`, and every pattern from `+0` up to, not including, that of the length (41 R154). -/
theorem rangeOk_iff {len : Nat} (h1 : 1 ≤ len) (h : len ≤ 2 ^ 24) (pos : F32) :
    rangeOk Carrier.f32 len pos = true ↔ pos = 0x80000000 ∨ pos.toNat < (i2f32 len).toNat := by
  have hlen := i2f32_toNat_lt_inf h
  have hinf := infMag_lt
  rcases Nat.lt_or_ge pos.toNat (2 ^ 31) with hpos | hpos
  · have hne : pos ≠ 0x80000000 := by
      rintro rfl
      exact absurd hpos (by decide)
    rw [rangeOk_iff_comparisons h, fle32_iff_toNat (by decide) hpos, flt32_iff_toNat hpos (by omega)]
    simp only [BitVec.toNat_ofNat, hne, false_or]
    omega
  · constructor
    · intro hok
      exact .inl (eq_negZero_of_zero_fle hpos ((rangeOk_iff_comparisons h pos).mp hok).1)
    · rintro (rfl | hlt)
      · exact rangeOk_negZero h1
      · omega

/-- A pattern other than `-0` that is no smaller than the length's is out of range (41 R154). -/
theorem rangeOk_eq_false {len : Nat} (h1 : 1 ≤ len) (h : len ≤ 2 ^ 24) {pos : F32} (hne : pos.toNat ≠ 0x80000000)
    (hge : (i2f32 len).toNat ≤ pos.toNat) : rangeOk Carrier.f32 len pos = false := by
  rw [Bool.eq_false_iff, ne_eq, rangeOk_iff h1 h]
  rintro (rfl | hlt)
  · exact hne rfl
  · omega

/-- A pattern that is no finite number is no smaller than `+inf`'s, and is not `-0` (00_scope R7). -/
theorem infMag_le_of_not_isFin {x : F32} (hx : isFin x = false) : infMag ≤ x.toNat ∧ x.toNat ≠ 0x80000000 := by
  rw [Bool.eq_false_iff, ne_eq, isFin_iff] at hx
  unfold magBits at hx
  simp only [infMag] at hx ⊢
  omega

/-- Settles O31: the range check bit for bit, read at the patterns that R154 names. -/
theorem rangeCheckRefusesBadPositions : Obligations.RangeCheckRefusesBadPositions := by
  intro len h1 h
  have hlen := i2f32_toNat_lt_inf h
  have hinf := infMag_lt
  refine ⟨rangeOk_iff h1 h, fun pos hpos => ?_, fun pos hpos => ?_, ?_, ?_, rangeOk_negZero h1⟩
  case refine_1 =>
    obtain ⟨hge, hne⟩ := infMag_le_of_not_isFin hpos
    exact rangeOk_eq_false h1 h hne (by omega)
  case refine_2 => exact rangeOk_eq_false h1 h (by omega) (by omega)
  case refine_3 => exact rangeOk_eq_false h1 h (by omega) le_rfl
  case refine_4 => exact (rangeOk_iff h1 h _).mpr (.inr (i2f32_toNat_pos h1 h))

/-! ### The datapath formulas in binary32 -/

theorem loIn_eq : Carrier.f32.loIn = 0xBF800000#32 := lit_minusOne

theorem hiIn_eq : Carrier.f32.hiIn = 0x3F800000#32 := lit_one

/-- READPOS in binary32 (41 R151). -/
theorem readPos_f32 (n wh len : Nat) (d : F32) : readPos Carrier.f32 n wh len d =
    if flt32 (fsub32 n (i2f32 wh) d) 0x00000000 then fadd32 (n + 1) (fsub32 n (i2f32 wh) d) (i2f32 len)
    else fsub32 n (i2f32 wh) d := by
  rw [readPos, zero_eq]
  rfl

/-- RPHASE in binary32 (42 R172). -/
theorem rightPhase_f32 (n : Nat) (ph po : F32) : rightPhase Carrier.f32 n ph po =
    if fge32 (fadd32 n ph po) 0x3F800000 then fsub32 (n + 1) (fadd32 n ph po) 0x3F800000 else fadd32 n ph po := by
  rw [rightPhase, one_eq]
  rfl

/-- PHASEADV in binary32 (42 R174). -/
theorem phaseAdv_f32 (n : Nat) (ph sr rt : F32) : phaseAdv Carrier.f32 n ph sr rt =
    if fgt32 (fadd32 (n + 1) ph (fdiv32 n rt sr)) 0x3F800000
    then fsub32 (n + 2) (fadd32 (n + 1) ph (fdiv32 n rt sr)) 0x3F800000
    else fadd32 (n + 1) ph (fdiv32 n rt sr) := by
  rw [phaseAdv, one_eq]
  rfl

/-- MAP in binary32, the product before the division (43 R186). -/
theorem mapDelay_f32 (n : Nat) (v : F32) (ty : BitVec 2) : mapDelay Carrier.f32 n v ty =
    fadd32 (n + 5) (rangeOfType Carrier.f32 ty).1
      (fdiv32 (n + 4) (fmul32 (n + 2) (fsub32 n v 0xBF800000)
        (fsub32 (n + 1) (rangeOfType Carrier.f32 ty).2 (rangeOfType Carrier.f32 ty).1))
        (fsub32 (n + 3) 0x3F800000 0xBF800000)) := by
  rw [mapDelay, loIn_eq, hiIn_eq]
  rfl

/-- DELAYSAMPLES in binary32: MAP times the sample rate (43 R187). -/
theorem delaySamples_f32 (n : Nat) (v : F32) (ty : BitVec 2) (sr : F32) :
    delaySamples Carrier.f32 n v ty sr = fmul32 (n + 6) (mapDelay Carrier.f32 n v ty) sr := rfl

/-- MIX in binary32 (44 R201). -/
theorem mix_f32 (n : Nat) (x y dw : F32) : mix Carrier.f32 n x y dw =
    fadd32 (n + 3) (fmul32 (n + 1) x (fsub32 n 0x3F800000 dw)) (fmul32 (n + 2) y dw) := by
  rw [mix, one_eq]
  rfl

/-- The blend of INTERP in binary32 (41 R152). -/
theorem blend_f32 (n : Nat) (f a b : F32) : blend Carrier.f32 n f a b =
    fadd32 (n + 3) (fmul32 (n + 1) (fsub32 n 0x3F800000 f) a) (fmul32 (n + 2) f b) := by
  rw [blend, one_eq]
  rfl

/-- RANGE in binary32, the patterns of 00_scope R10 (43 R185). -/
theorem rangeOfType_f32 :
    rangeOfType Carrier.f32 0 = (0x3BA3D70A, 0x3CF5C28F) ∧ rangeOfType Carrier.f32 1 = (0x3A83126F, 0x3BA3D70A) ∧
    rangeOfType Carrier.f32 2 = (0x3CF5C28F, 0x3DCCCCCD) ∧ rangeOfType Carrier.f32 3 = (0x3DCCCCCD, 0x3F800000) := by
  decide

section
variable {F : Type} {C : Carrier F} {n len : Nat} {read : Nat → Option F} {pos : F}

/-- INTERP over two words that exist: their blend by the fraction of the position (41 R152). -/
theorem interp_of_words {s0 s1 : F} (h0 : read (lowerIndex C pos) = some s0)
    (h1 : read (nextIndex len (lowerIndex C pos)) = some s1) : interp C n len read pos =
    some (blend C (n + 1) (C.fsub n pos (C.i2f (lowerIndex C pos))) s0 s1) := by
  simp only [interp, h0, h1]

/-- INTERP without one of its two words answers nothing (log 12). -/
theorem interp_of_missing_word
    (h : read (lowerIndex C pos) = none ∨ read (nextIndex len (lowerIndex C pos)) = none) :
    interp C n len read pos = none := by
  rcases h with h0 | h1
  · simp only [interp, h0]
  · cases h0 : read (lowerIndex C pos) <;> simp only [interp, h0, h1]
end

/-- A number that is not negative is its own magnitude (00_scope R7). -/
theorem value_eq_units {x : F32} (h : 0 ≤ value x) : value x = units x := by
  unfold value at h ⊢
  split
  case isTrue hneg =>
    rw [if_pos hneg] at h
    omega
  case isFalse => rfl

/-- The integer part of a number that is not negative is exact (00_scope R6, R7). -/
theorem ffloor32_exact {x : F32} (h : 0 ≤ value x) :
    (ffloor32 x : ℤ) * 2 ^ 149 ≤ value x ∧ value x < ((ffloor32 x : ℤ) + 1) * 2 ^ 149 := by
  rw [value_eq_units h, ffloor32]
  omega

/-- A position in range is not negative (41 R154). -/
theorem value_nonneg_of_rangeOk {len : Nat} {pos : F32} (h : rangeOk Carrier.f32 len pos = true) : 0 ≤ value pos := by
  rw [rangeOk_f32, finIdx32, Bool.and_eq_true, Bool.and_eq_true] at h
  obtain ⟨⟨-, hnonneg⟩, -⟩ := h
  exact of_decide_eq_true hnonneg

/-- Settles O28: one lemma per datapath function, each with the named constants as their patterns. -/
theorem datapathTreesAreTheSpecs : Obligations.DatapathTreesAreTheSpecs := by
  refine ⟨readPos_f32, rightPhase_f32, phaseAdv_f32, fun n v ty sr => ?delay, mix_f32, blend_f32, rangeOfType_f32, ?interp,
    fun _ _ h => ffloor32_exact (value_nonneg_of_rangeOk h)⟩
  case delay => rw [delaySamples_f32, mapDelay_f32]
  case interp =>
    rintro n len read pos _ _ _ rfl rfl rfl
    refine ⟨fun s0 s1 h0 h1 => ?_, fun hnone => interp_of_missing_word (C := Carrier.f32) hnone⟩
    rw [← blend_f32]
    exact interp_of_words h0 h1

end Sys2Proof.Machine
end

section
/-! SUPPORT. The static delay at depth zero: the sum of numbers between finite bounds, the right phase within `[0, 1]`, the finite operand of the sine, and the mapper at either zero (42_lfo R172, R175; 43_delay_time_mapper R188 c). Settles O37. -/

namespace Sys2Proof.Machine

/-! ### Results between finite bounds -/

/-- A pattern whose value is between zero and that of a finite number is finite: a NaN or an infinity has a larger one. -/
theorem isFin_of_value_between {x c : F32} (hc : isFin c = true) (h0 : 0 ≤ value x) (h1 : value x ≤ value c) :
    isFin x = true := by
  have hunits : unitsOf (magBits x) ≤ unitsOf (magBits c) := by
    rw [← units_eq_unitsOf, ← units_eq_unitsOf, ← Int.ofNat_le, ← value_eq_units h0, ← value_eq_units (h0.trans h1)]
    exact h1
  rw [isFin_iff] at hc ⊢
  exact (unitsOf_le_iff.mp hunits).trans_lt hc

/-- Rounding a sum that is not negative does not take it below zero or past a finite number (00_scope R7). -/
theorem value_fadd32_between (n : Nat) {a b c : F32} (ha : isFin a = true) (hb : isFin b = true) (hc : isFin c = true)
    (h0 : 0 ≤ value a + value b) (h1 : value a + value b ≤ value c) :
    0 ≤ value (fadd32 n a b) ∧ value (fadd32 n a b) ≤ value c := by
  have hzero : roundedValue 0 = 0 := by simp [roundedValue]
  rw [value_fadd32 n ha hb, ← roundedValue_value hc, ← hzero]
  exact ⟨roundedValue_mono h0, roundedValue_mono h1⟩

/-- Rounding a product with a factor of magnitude at most 1 does not take it past the other factor (00_scope R7). -/
theorem isFin_fmul32_of_units_le_one (n : Nat) {a b : F32} (ha : isFin a = true) (hb : isFin b = true)
    (h1 : units b ≤ 2 ^ 149) : isFin (fmul32 n a b) = true := by
  have hfin : magBits a < infMag := (isFin_iff a).mp ha
  rw [fmul32_of_isFin n ha hb, isFin_iff, magBits_packSign _ (roundMag_lt _ _)]
  refine lt_of_le_of_lt (roundMag_le_of_le (Nat.pow_pos (by decide)) hfin ?_) hfin
  rw [← units_eq_unitsOf]
  exact Nat.mul_le_mul_left _ h1

/-! ### The operand of the sine -/

theorem value_one : value 0x3F800000 = 2 ^ 149 := by decide

theorem value_two : value 0x40000000 = 2 ^ 150 := by decide

/-- A number is at least 1 when its value is at least that of 1 (00_scope R7). -/
theorem fge32_one_iff {x : F32} (hx : isFin x = true) : fge32 x 0x3F800000 = true ↔ 2 ^ 149 ≤ value x := by
  rw [fge32, fle32_iff (by decide) (isNan_of_isFin hx), value_one]

/-- The legal unit values are the patterns whose value lies in `[0, 1]` (10_state R31). -/
theorem unitLegal_iff_value (v : F32) : unitLegal v = true ↔ 0 ≤ value v ∧ value v ≤ 2 ^ 149 := by
  have hone : value 0x3F800000#32 = 2 ^ 149 := value_one
  rw [unitLegal, Bool.and_eq_true, fle32_iff_not_nan, fle32_iff_not_nan, hone]
  constructor
  · rintro ⟨⟨-, -, h0⟩, -, -, h1⟩
    exact ⟨h0, h1⟩
  · rintro ⟨h0, h1⟩
    have hnan : isNan v = false := isNan_of_isFin (isFin_of_value_between (c := 0x3F800000#32) (by decide) h0 h1)
    exact ⟨⟨by decide, hnan, h0⟩, hnan, by decide, h1⟩

theorem isFin_of_unitLegal {v : F32} (h : unitLegal v = true) : isFin v = true := by
  obtain ⟨h0, h1⟩ := (unitLegal_iff_value v).mp h
  exact isFin_of_value_between (c := 0x3F800000#32) (by decide) h0 h1

/-- A number in `[1, 2]` less 1 is in `[0, 1]`. -/
theorem unitLegal_fsub32_one (n : Nat) {x : F32} (hx : isFin x = true) (h1 : 2 ^ 149 ≤ value x)
    (h2 : value x ≤ 2 ^ 150) : unitLegal (fsub32 n x 0x3F800000) = true := by
  have hdiff : value x + value (neg32 0x3F800000) = value x - 2 ^ 149 := by rw [value_add_neg32, value_one]
  rw [unitLegal_iff_value, ← value_one]
  exact value_fadd32_between n hx (isFin_neg32 (by decide)) (by decide) (by omega) (by rw [hdiff, value_one]; omega)

/-- A phase and an offset in `[0, 1]` give a right phase in `[0, 1]`: their sum is at most 2, and 1 is subtracted once it
is at least 1 (42 R172). -/
theorem unitLegal_rightPhase (n : Nat) {ph po : F32} (hph : unitLegal ph = true) (hpo : unitLegal po = true) :
    unitLegal (rightPhase Carrier.f32 n ph po) = true := by
  obtain ⟨hph0, hph1⟩ := (unitLegal_iff_value ph).mp hph
  obtain ⟨hpo0, hpo1⟩ := (unitLegal_iff_value po).mp hpo
  obtain ⟨hs0, hs2⟩ := value_fadd32_between n (c := 0x40000000) (isFin_of_unitLegal hph) (isFin_of_unitLegal hpo)
    (by decide) (by omega) (by rw [value_two]; omega)
  have hsfin : isFin (fadd32 n ph po) = true := isFin_of_value_between (by decide) hs0 hs2
  rw [value_two] at hs2
  rw [rightPhase_f32]
  split
  case isTrue hge => exact unitLegal_fsub32_one (n + 1) hsfin ((fge32_one_iff hsfin).mp hge) hs2
  case isFalse hlt =>
    rw [fge32_one_iff hsfin] at hlt
    exact (unitLegal_iff_value _).mpr ⟨hs0, by omega⟩

/-- A phase in `[0, 1]` gives the sine a finite operand (42 R170). -/
theorem isFin_twoPi_mul_of_unitLegal (n : Nat) {p : F32} (h : unitLegal p = true) :
    isFin (fmul32 n twoPi32 p) = true := by
  obtain ⟨h0, h1⟩ := (unitLegal_iff_value p).mp h
  rw [value_eq_units h0] at h1
  exact isFin_fmul32_of_units_le_one n (by decide) (isFin_of_unitLegal h) (by omega)

/-! ### The mapper at a zero -/

theorem isFin_of_zero {z : F32} (hz : z = 0x00000000 ∨ z = 0x80000000) : isFin z = true := by
  rcases hz with rfl | rfl <;> decide

/-- A finite number times a zero is a zero (00_scope R7, 93 U17). -/
theorem fmul32_zero_right (n : Nat) {a z : F32} (ha : isFin a = true) (hz : z = 0x00000000 ∨ z = 0x80000000) :
    fmul32 n a z = 0x00000000 ∨ fmul32 n a z = 0x80000000 := by
  have hunits : units z = 0 := by rcases hz with rfl | rfl <;> decide
  rw [fmul32_of_isFin n ha (isFin_of_zero hz), hunits, Nat.mul_zero, roundMag_zero]
  cases signBit a != signBit z
  · exact .inl (by decide)
  · exact .inr (by decide)

/-- A sum that is not zero depends on the value of its first operand alone, not on the sign of a zero (00_scope R7). -/
theorem fadd32_congr_left (n : Nat) {a a' b : F32} (ha : isFin a = true) (ha' : isFin a' = true) (hb : isFin b = true)
    (h : value a = value a') (hne : value a' + value b ≠ 0) : fadd32 n a b = fadd32 n a' b := by
  rw [fadd32_of_isFin n ha hb, fadd32_of_isFin n ha' hb, h, if_neg hne, if_neg hne]

/-- The mapper does not see the sign of a zero: it subtracts `LO_IN` first (43 R186). -/
theorem mapDelay_zero (n : Nat) {z : F32} (hz : z = 0x00000000 ∨ z = 0x80000000) (ty : BitVec 2) :
    mapDelay Carrier.f32 n z ty = mapDelay Carrier.f32 n 0x00000000 ty := by
  have hvalue : value z = value 0x00000000#32 := by rcases hz with rfl | rfl <;> decide
  have hsub : fsub32 n z 0xBF800000 = fsub32 n 0x00000000 0xBF800000 :=
    fadd32_congr_left n (isFin_of_zero hz) (by decide) (by decide) hvalue (by decide)
  rw [mapDelay_f32, mapDelay_f32, hsub]

/-- At depth zero the sine of a finite operand has no say in the delay (42 R175, 43 R188 c). -/
theorem delaySamples_of_zero_depth (m n : Nat) {x dp : F32} (hx : isFin x = true)
    (hdp : dp = 0x00000000 ∨ dp = 0x80000000) (ty : BitVec 2) (sr : F32) :
    delaySamples Carrier.f32 m (fmul32 n (fsin32 x) dp) ty sr = delaySamples Carrier.f32 m 0x00000000 ty sr := by
  obtain ⟨hsine, -, -⟩ := fsin32_between_minusOne_one hx
  rw [delaySamples_f32, delaySamples_f32, mapDelay_zero m (fmul32_zero_right n hsine hdp)]

/-- Settles O37: the scaled sine is a zero in each channel, and the operands of both sines are finite for a phase and an
offset in `[0, 1]`. -/
theorem zeroDepthGivesStaticDelay : Obligations.ZeroDepthGivesStaticDelay := by
  intro s hdepth
  have hleft : isFin (fmul32 (s.nanDraws + 1) twoPi32 s.phase) = true →
      frameDelay Carrier.f32 .left s = delaySamples Carrier.f32 (s.nanDraws + 5) 0x00000000 s.pType s.sr := by
    intro hfin
    rw [frameDelay_left, frameLfoValue_left]
    exact delaySamples_of_zero_depth _ _ hfin hdepth _ _
  have hright : isFin (fmul32 (s.nanDraws + 33) twoPi32
        (rightPhase Carrier.f32 (s.nanDraws + 34) s.phase s.pPhase)) = true →
      frameDelay Carrier.f32 .right s = delaySamples Carrier.f32 (s.nanDraws + 37) 0x00000000 s.pType s.sr := by
    intro hfin
    rw [frameDelay_right, frameLfoValue_right]
    exact delaySamples_of_zero_depth _ _ hfin hdepth _ _
  refine ⟨hleft, hright, fun hphase hoffset c => ?_⟩
  cases c with
  | left => exact hleft (isFin_twoPi_mul_of_unitLegal _ hphase)
  | right => exact hright (isFin_twoPi_mul_of_unitLegal _ (unitLegal_rightPhase _ hphase hoffset))

end Sys2Proof.Machine
end

section
/-! SUPPORT. The delay-time mapper: its formula over the reals, its binary32 corners, and the order each of its operations keeps on numbers that are not negative (43_delay_time_mapper R186, R188). Settles O33, O34 and O35. -/

namespace Sys2Proof.Machine

/-! ### Exact arithmetic -/

/-- MAP over the reals: the low bound plus the share of the width that lies below `v` (43 R186). -/
theorem mapDelay_exact (n : Nat) (v : ℝ) (ty : BitVec 2) : mapDelay Carrier.exact n v ty =
    (rangeOfType Carrier.exact ty).1 +
      (v + 1) * ((rangeOfType Carrier.exact ty).2 - (rangeOfType Carrier.exact ty).1) / 2 := by
  have hlo : Carrier.exact.loIn = -1 := by norm_num [Carrier.loIn, Carrier.exact]
  have hhi : Carrier.exact.hiIn = 1 := by norm_num [Carrier.hiIn, Carrier.exact]
  have htree : mapDelay Carrier.exact n v ty = (rangeOfType Carrier.exact ty).1 +
      (v - Carrier.exact.loIn) * ((rangeOfType Carrier.exact ty).2 - (rangeOfType Carrier.exact ty).1) /
        (Carrier.exact.hiIn - Carrier.exact.loIn) := rfl
  rw [htree, hlo, hhi]
  ring

/-- Settles O33: none, all and half of the width above the low bound. -/
theorem mapperReachesItsBoundsExactly : Obligations.MapperReachesItsBoundsExactly := by
  intro n ty
  refine ⟨?low, ?high, ?middle⟩ <;> rw [mapDelay_exact]
  case low => ring
  case high => ring
  case middle => ring

/-! ### The binary32 formula over the width of a range -/

/-- The patterns of `hi - lo`, type by type (43 R185, R186). -/
def widthOfType (ty : BitVec 2) : F32 :=
  if ty = 0 then 0x3CCCCCCC else if ty = 1 then 0x3B83126E else if ty = 2 then 0x3D8F5C29 else 0x3F666666

/-- Two bits hold four types (10_state R36). -/
theorem typeNumber_cases (ty : BitVec 2) : ty = 0 ∨ ty = 1 ∨ ty = 2 ∨ ty = 3 := by
  revert ty
  decide

theorem fsub32_range (n : Nat) (ty : BitVec 2) :
    fsub32 n (rangeOfType Carrier.f32 ty).2 (rangeOfType Carrier.f32 ty).1 = widthOfType ty := by
  obtain rfl | rfl | rfl | rfl := typeNumber_cases ty <;> rfl

/-- MAP in binary32 with its constant subtrees evaluated: the width of the range, and the divisor 2 (43 R186). -/
theorem mapDelay_width (n : Nat) (v : F32) (ty : BitVec 2) : mapDelay Carrier.f32 n v ty =
    fadd32 (n + 5) (rangeOfType Carrier.f32 ty).1
      (fdiv32 (n + 4) (fmul32 (n + 2) (fsub32 n v 0xBF800000) (widthOfType ty)) 0x40000000) := by
  have htwo : fsub32 (n + 3) 0x3F800000 0xBF800000 = 0x40000000 := rfl
  rw [mapDelay_f32, fsub32_range, htwo]

/-! ### The corners -/

/-- At -1 nothing is added to the low bound (43 R186 a). -/
theorem mapDelay_minusOne (n : Nat) (ty : BitVec 2) :
    mapDelay Carrier.f32 n 0xBF800000 ty = (rangeOfType Carrier.f32 ty).1 := by
  have hdistance : fsub32 n 0xBF800000 0xBF800000 = 0x00000000 := rfl
  have hproduct : fmul32 (n + 2) 0x00000000 (widthOfType ty) = 0x00000000 := by
    obtain rfl | rfl | rfl | rfl := typeNumber_cases ty <;> rfl
  have hquotient : fdiv32 (n + 4) 0x00000000 0x40000000 = 0x00000000 := rfl
  rw [mapDelay_width, hdistance, hproduct, hquotient]
  obtain rfl | rfl | rfl | rfl := typeNumber_cases ty <;> rfl

/-- At +1 the width is doubled and halved again, exactly, each a step of its exponent: the sum alone rounds (43 R186 b,
90 C8). -/
theorem mapDelay_one (n : Nat) (ty : BitVec 2) :
    mapDelay Carrier.f32 n 0x3F800000 ty = fadd32 (n + 5) (rangeOfType Carrier.f32 ty).1 (widthOfType ty) := by
  have hdistance : fsub32 n 0x3F800000 0xBF800000 = 0x40000000 := rfl
  have hproduct : fmul32 (n + 2) 0x40000000 (widthOfType ty) = widthOfType ty + 0x00800000 := by
    obtain rfl | rfl | rfl | rfl := typeNumber_cases ty <;> rfl
  have hquotient : fdiv32 (n + 4) (widthOfType ty + 0x00800000) 0x40000000 = widthOfType ty := by
    obtain rfl | rfl | rfl | rfl := typeNumber_cases ty <;> rfl
  rw [mapDelay_width, hdistance, hproduct, hquotient]

/-- At +0 the width is halved, exactly: its exponent is one less (43 R186 c). -/
theorem mapDelay_plusZero (n : Nat) (ty : BitVec 2) :
    mapDelay Carrier.f32 n 0x00000000 ty =
      fadd32 (n + 5) (rangeOfType Carrier.f32 ty).1 (widthOfType ty - 0x00800000) := by
  have hdistance : fsub32 n 0x00000000 0xBF800000 = 0x3F800000 := rfl
  have hproduct : fmul32 (n + 2) 0x3F800000 (widthOfType ty) = widthOfType ty := by
    obtain rfl | rfl | rfl | rfl := typeNumber_cases ty <;> rfl
  have hquotient : fdiv32 (n + 4) (widthOfType ty) 0x40000000 = widthOfType ty - 0x00800000 := by
    obtain rfl | rfl | rfl | rfl := typeNumber_cases ty <;> rfl
  rw [mapDelay_width, hdistance, hproduct, hquotient]

/-- Settles O34: at each corner one sum is left to evaluate. -/
theorem mapperPatternsAtItsCorners : Obligations.MapperPatternsAtItsCorners := by
  intro n
  simp only [mapDelay_minusOne, mapDelay_one, mapDelay_plusZero]
  exact ⟨⟨rfl, rfl, rfl⟩, ⟨rfl, rfl, rfl⟩, ⟨rfl, rfl, rfl⟩, ⟨rfl, rfl, rfl⟩⟩

/-! ### Numbers in order, from zero to a finite bound -/

/-- Two numbers in order, neither below zero nor above the finite number `c`. -/
structure OrderedUpTo (c a b : F32) : Prop where
  bound_finite : isFin c = true
  nonneg : 0 ≤ value a
  le : value a ≤ value b
  le_bound : value b ≤ value c

section
variable {a b c : F32}

/-- The three numbers are finite. -/
theorem OrderedUpTo.finite (h : OrderedUpTo c a b) : isFin a = true ∧ isFin b = true ∧ isFin c = true :=
  ⟨isFin_of_value_between h.bound_finite h.nonneg (h.le.trans h.le_bound),
    isFin_of_value_between h.bound_finite (h.nonneg.trans h.le) h.le_bound, h.bound_finite⟩

/-- The magnitudes are in the order of the numbers. -/
theorem OrderedUpTo.units_le (h : OrderedUpTo c a b) : units a ≤ units b ∧ units b ≤ units c := by
  obtain ⟨-, h0, hab, hbc⟩ := h
  have ha := value_eq_units h0
  have hb := value_eq_units (h0.trans hab)
  have hc := value_eq_units (h0.trans (hab.trans hbc))
  omega

theorem OrderedUpTo.fle32_eq_true (h : OrderedUpTo c a b) : fle32 a b = true := by
  obtain ⟨ha, hb, -⟩ := h.finite
  exact (fle32_iff (isNan_of_isFin ha) (isNan_of_isFin hb)).mpr h.le

/-! ### What one operation keeps -/

/-- Rounding keeps the order. -/
theorem OrderedUpTo.of_roundedValue {x y z : Int} (hx : value a = roundedValue x) (hy : value b = roundedValue y)
    (hz : value c = roundedValue z) (h0 : 0 ≤ x) (hxy : x ≤ y) (hyz : y ≤ z) (hfin : isFin c = true) :
    OrderedUpTo c a b where
  bound_finite := hfin
  nonneg := by
    have hzero : roundedValue 0 = 0 := by simp [roundedValue]
    rw [hx, ← hzero]
    exact roundedValue_mono h0
  le := by
    rw [hx, hy]
    exact roundedValue_mono hxy
  le_bound := by
    rw [hy, hz]
    exact roundedValue_mono hyz

/-- A number with its magnitude scaled by `k / d` and rounded: what a product with a positive number and a quotient by one
are (00_scope R7). -/
def scaled (k d : Nat) (x : F32) : F32 := packSign (signBit x) (roundMag (units x * k) d)

theorem signBit_of_value_pos {y : F32} (hy : 0 < value y) : signBit y = false := by
  unfold value at hy
  cases hs : signBit y with
  | false => rfl
  | true =>
    rw [hs, if_pos rfl] at hy
    omega

theorem units_pos_of_value_pos {y : F32} (hy : 0 < value y) : 0 < units y := by
  rw [value_eq_units hy.le] at hy
  exact Int.natCast_pos.mp hy

theorem fmul32_eq_scaled (n : Nat) {x y : F32} (hx : isFin x = true) (hy : isFin y = true) (hpos : 0 < value y) :
    fmul32 n x y = scaled (units y) (2 ^ 149) x := by
  rw [fmul32_of_isFin n hx hy, signBit_of_value_pos hpos, Bool.bne_false, scaled]

theorem fdiv32_eq_scaled (n : Nat) {x y : F32} (hx : isFin x = true) (hy : isFin y = true) (hpos : 0 < value y) :
    fdiv32 n x y = scaled (2 ^ 149) (units y) x := by
  rw [fdiv32_of_isFin n hx hy (units_pos_of_value_pos hpos).ne', signBit_of_value_pos hpos, Bool.bne_false, scaled]

/-- Scaling a number that is not negative gives none that is: minus zero alone has the sign bit. -/
theorem value_scaled (k d : Nat) {x : F32} (hx : 0 ≤ value x) :
    value (scaled k d x) = unitsOf (roundMag (units x * k) d) := by
  rw [scaled, value_packSign _ (roundMag_lt _ _)]
  cases hs : signBit x with
  | false => rfl
  | true =>
    have hzero : units x = 0 := by
      rw [value, hs, if_pos rfl] at hx
      omega
    simp [hzero]

/-- Scaling keeps the order. -/
theorem OrderedUpTo.map_scaled (h : OrderedUpTo c a b) (k : Nat) {d : Nat} (hd : 0 < d) (hfin : isFin (scaled k d c) = true) :
    OrderedUpTo (scaled k d c) (scaled k d a) (scaled k d b) := by
  have hmono : ∀ {x y : Nat}, x ≤ y → unitsOf (roundMag (x * k) d) ≤ unitsOf (roundMag (y * k) d) := fun hxy =>
    unitsOf_le_iff.mpr (roundMag_mono hd hd (Nat.mul_le_mul_right d (Nat.mul_le_mul_right k hxy)))
  obtain ⟨hab, hbc⟩ := h.units_le
  obtain ⟨-, h0, hv, hv'⟩ := h
  refine ⟨hfin, ?_, ?_, ?_⟩
  · rw [value_scaled k d h0]
    exact Int.natCast_nonneg _
  · rw [value_scaled k d h0, value_scaled k d (h0.trans hv)]
    exact Int.ofNat_le.mpr (hmono hab)
  · rw [value_scaled k d (h0.trans hv), value_scaled k d (h0.trans (hv.trans hv'))]
    exact Int.ofNat_le.mpr (hmono hbc)

/-- A product with a positive number keeps the order. -/
theorem OrderedUpTo.fmul32_right (h : OrderedUpTo c a b) {y : F32} (hy : isFin y = true) (hpos : 0 < value y) {l : Nat}
    (hfin : isFin (fmul32 l c y) = true) (n m : Nat) : OrderedUpTo (fmul32 l c y) (fmul32 n a y) (fmul32 m b y) := by
  obtain ⟨ha, hb, hc⟩ := h.finite
  rw [fmul32_eq_scaled _ hc hy hpos] at *
  rw [fmul32_eq_scaled _ ha hy hpos, fmul32_eq_scaled _ hb hy hpos]
  exact h.map_scaled _ (Nat.pow_pos (by decide)) hfin

/-- A quotient by a positive number keeps the order. -/
theorem OrderedUpTo.fdiv32_right (h : OrderedUpTo c a b) {y : F32} (hy : isFin y = true) (hpos : 0 < value y) {l : Nat}
    (hfin : isFin (fdiv32 l c y) = true) (n m : Nat) : OrderedUpTo (fdiv32 l c y) (fdiv32 n a y) (fdiv32 m b y) := by
  obtain ⟨ha, hb, hc⟩ := h.finite
  rw [fdiv32_eq_scaled _ hc hy hpos] at *
  rw [fdiv32_eq_scaled _ ha hy hpos, fdiv32_eq_scaled _ hb hy hpos]
  exact h.map_scaled _ (units_pos_of_value_pos hpos) hfin

/-- A sum with a number that is not negative keeps the order. -/
theorem OrderedUpTo.fadd32_left (h : OrderedUpTo c a b) {x : F32} (hx : isFin x = true) (hx0 : 0 ≤ value x) {l : Nat}
    (hfin : isFin (fadd32 l x c) = true) (n m : Nat) : OrderedUpTo (fadd32 l x c) (fadd32 n x a) (fadd32 m x b) := by
  obtain ⟨ha, hb, hc⟩ := h.finite
  obtain ⟨-, h0, hab, hbc⟩ := h
  exact .of_roundedValue (value_fadd32 n hx ha) (value_fadd32 m hx hb) (value_fadd32 l hx hc) (by omega) (by omega)
    (by omega) hfin
end

/-! ### The mapper -/

theorem natAbs_value (x : F32) : (value x).natAbs = units x := by
  unfold value
  split <;> omega

/-- An operand between -1 and 1 is finite, and its value is between theirs. -/
theorem value_of_mapper_operand {x : F32} (h1 : fle32 0xBF800000 x = true) (h2 : fle32 x 0x3F800000 = true) :
    isFin x = true ∧ -2 ^ 149 ≤ value x ∧ value x ≤ 2 ^ 149 := by
  obtain ⟨-, -, hlo⟩ := fle32_iff_not_nan.mp h1
  obtain ⟨-, -, hhi⟩ := fle32_iff_not_nan.mp h2
  rw [show value 0xBF800000 = -2 ^ 149 by decide] at hlo
  rw [value_one] at hhi
  have hunits : unitsOf (magBits x) ≤ unitsOf (magBits 0x3F800000) := by
    rw [← units_eq_unitsOf, ← units_eq_unitsOf, show units 0x3F800000 = 2 ^ 149 by decide]
    have hx := natAbs_value x
    omega
  exact ⟨(isFin_iff x).mpr ((unitsOf_le_iff.mp hunits).trans_lt (by decide)), hlo, hhi⟩

/-- The distances from -1 of two operands in order are in order, and at most 2. -/
theorem orderedUpTo_fsub32_minusOne (n m : Nat) {v w : F32} (hv : fle32 0xBF800000 v = true) (hvw : fle32 v w = true)
    (hw : fle32 w 0x3F800000 = true) : OrderedUpTo 0x40000000 (fsub32 n v 0xBF800000) (fsub32 m w 0xBF800000) := by
  obtain ⟨hvn, hwn, hle⟩ := fle32_iff_not_nan.mp hvw
  obtain ⟨h1n, -, hlo⟩ := fle32_iff_not_nan.mp hv
  obtain ⟨-, h2n, hhi⟩ := fle32_iff_not_nan.mp hw
  obtain ⟨hvfin, hv0, -⟩ := value_of_mapper_operand hv (fle32_iff_not_nan.mpr ⟨hvn, h2n, hle.trans hhi⟩)
  obtain ⟨hwfin, -, hw1⟩ := value_of_mapper_operand (fle32_iff_not_nan.mpr ⟨h1n, hwn, hlo.trans hle⟩) hw
  have hone : value (neg32 0xBF800000) = 2 ^ 149 := by decide
  exact .of_roundedValue (z := value 0x40000000) (value_fadd32 n hvfin (by decide)) (value_fadd32 m hwfin (by decide))
    (roundedValue_value (by decide)).symm (by omega) (by omega) (by rw [value_two]; omega) (by decide)

theorem widthOfType_pos (ty : BitVec 2) : isFin (widthOfType ty) = true ∧ 0 < value (widthOfType ty) := by
  obtain rfl | rfl | rfl | rfl := typeNumber_cases ty <;> decide

/-- The distance 2 stands for the operand 1 as it goes through the mapper: no operation takes it to infinity. -/
theorem isFin_mapper_bounds (ty : BitVec 2) :
    isFin (fmul32 0 0x40000000 (widthOfType ty)) = true ∧
    isFin (fdiv32 0 (fmul32 0 0x40000000 (widthOfType ty)) 0x40000000) = true ∧
    isFin (fadd32 0 (rangeOfType Carrier.f32 ty).1 (fdiv32 0 (fmul32 0 0x40000000 (widthOfType ty)) 0x40000000)) = true := by
  obtain rfl | rfl | rfl | rfl := typeNumber_cases ty <;> decide

theorem rangeOfType_low_nonneg (ty : BitVec 2) :
    isFin (rangeOfType Carrier.f32 ty).1 = true ∧ 0 ≤ value (rangeOfType Carrier.f32 ty).1 := by
  obtain rfl | rfl | rfl | rfl := typeNumber_cases ty <;> decide

/-- Settles O35: the four operations of the mapper on its operand each keep the order. -/
theorem mapperIsMonotone : Obligations.MapperIsMonotone := by
  intro n m ty v w hv hvw hw
  obtain ⟨hwidth, hpos⟩ := widthOfType_pos ty
  obtain ⟨hlow, hlow0⟩ := rangeOfType_low_nonneg ty
  obtain ⟨hproduct, hquotient, hsum⟩ := isFin_mapper_bounds ty
  rw [mapDelay_width, mapDelay_width]
  have hdistances := orderedUpTo_fsub32_minusOne n m hv hvw hw
  have hproducts := hdistances.fmul32_right hwidth hpos hproduct (n + 2) (m + 2)
  have hquotients := hproducts.fdiv32_right (by decide) (by decide) hquotient (n + 4) (m + 4)
  exact (hquotients.fadd32_left hlow hlow0 hsum (n + 5) (m + 5)).fle32_eq_true

end Sys2Proof.Machine
end

section
/-! SUPPORT. The feedback mixer and the dry/wet blender: what the blend gives at both ends of the dry/wet parameter, over the reals and in binary32, and that the parameter reaches nothing of a frame but its response (44_feedback_mix R200 to R203). Settles O27, O38 and O39. -/

namespace Sys2Proof.Machine

/-! ### Exact arithmetic -/

/-- MIX over the reals (44 R201). -/
theorem mix_exact (n : Nat) (x y dw : ℝ) : mix Carrier.exact n x y dw = x * (1 - dw) + y * dw := by
  have hone : Carrier.exact.one = 1 := by norm_num [Carrier.one, Carrier.exact]
  have htree : mix Carrier.exact n x y dw = x * (Carrier.exact.one - dw) + y * dw := rfl
  rw [htree, hone]

/-- Settles O38: at each end one of the two products is zero and the other has the factor 1. -/
theorem blendEndpointsExactly : Obligations.BlendEndpointsExactly := by
  intro n x y
  refine ⟨?dry, ?wet⟩ <;> rw [mix_exact]
  case dry => ring
  case wet => ring

/-! ### Zero and one as binary32 operands -/

/-- The two zeros alone have the value zero (00_scope R7). -/
theorem eq_zero_of_value_eq_zero {x : F32} (h : value x = 0) : x = 0x00000000 ∨ x = 0x80000000 := by
  have hmag : magBits x = 0 := by
    rw [← unitsOf_eq_zero, ← units_eq_unitsOf, ← natAbs_value, h, Int.natAbs_zero]
  rw [← packSign_magBits x, hmag]
  cases signBit x
  · exact .inl (by decide)
  · exact .inr (by decide)

/-- The sign bit of a number that is not zero says whether it lies below zero (00_scope R7). -/
theorem decide_value_neg {x : F32} (h : value x ≠ 0) : decide (value x < 0) = signBit x := by
  unfold value at *
  cases hs : signBit x with
  | false => simp
  | true =>
    rw [hs, if_pos rfl] at h
    simp
    omega

/-- A finite number is its sign and its rounded magnitude: it is representable (00_scope R7). -/
theorem packSign_roundMag_units {x : F32} (hx : isFin x = true) {d : Nat} (hd : 0 < d) :
    packSign (signBit x) (roundMag (units x * d) d) = x := by
  rw [units_eq_unitsOf, roundMag_unitsOf ((isFin_iff x).mp hx) hd, packSign_magBits]

/-- A finite number times one is that number, minus zero included (00_scope R7). -/
theorem fmul32_one_right (n : Nat) {x : F32} (hx : isFin x = true) : fmul32 n x 0x3F800000 = x := by
  have hsign : signBit 0x3F800000 = false := by decide
  have hunits : units 0x3F800000 = 2 ^ 149 := by decide
  rw [fmul32_of_isFin n hx (by decide), hsign, hunits, Bool.bne_false]
  exact packSign_roundMag_units hx (Nat.pow_pos (by decide))

/-- The sum of finite numbers does not depend on their order (00_scope R7). -/
theorem fadd32_comm (n : Nat) {a b : F32} (ha : isFin a = true) (hb : isFin b = true) : fadd32 n a b = fadd32 n b a := by
  rw [fadd32_of_isFin n ha hb, fadd32_of_isFin n hb ha, add_comm (value a), Bool.and_comm]

/-- A zero of either sign added to a finite number gives that number; `-0` is left out, for `-0` and `+0` give `+0`
(00_scope R7, 93 U17). -/
theorem fadd32_zero_right (n : Nat) {x z : F32} (hx : isFin x = true) (hne : x ≠ 0x80000000)
    (hz : z = 0x00000000 ∨ z = 0x80000000) : fadd32 n x z = x := by
  have hvalue : value z = 0 := by rcases hz with rfl | rfl <;> decide
  rw [fadd32_of_isFin n hx (isFin_of_zero hz), hvalue, add_zero]
  by_cases h0 : value x = 0
  · obtain rfl := (eq_zero_of_value_eq_zero h0).resolve_right hne
    have hsign : signBit 0x00000000 = false := by decide
    rw [if_pos h0, hsign, Bool.false_and]
    decide
  · have hround := packSign_roundMag_units hx Nat.one_pos
    rw [Nat.mul_one] at hround
    rw [if_neg h0, decide_value_neg h0, natAbs_value, hround]

/-! ### The blend at its ends in binary32 -/

/-- At dry/wet 0 the input has the weight one and the delayed sample the weight zero (44 R201). -/
theorem mix_f32_dry (n : Nat) (x y : F32) : mix Carrier.f32 n x y 0x00000000 =
    fadd32 (n + 3) (fmul32 (n + 1) x 0x3F800000) (fmul32 (n + 2) y 0x00000000) := by
  have hweight : fsub32 n 0x3F800000 0x00000000 = 0x3F800000 := rfl
  rw [mix_f32, hweight]

/-- At dry/wet 1 the input has the weight zero and the delayed sample the weight one (44 R201). -/
theorem mix_f32_wet (n : Nat) (x y : F32) : mix Carrier.f32 n x y 0x3F800000 =
    fadd32 (n + 3) (fmul32 (n + 1) x 0x00000000) (fmul32 (n + 2) y 0x3F800000) := by
  have hweight : fsub32 n 0x3F800000 0x3F800000 = 0x00000000 := rfl
  rw [mix_f32, hweight]

/-- Settles O39: the product with the weight one is the sample itself, the other product a zero of some sign, and their
sum the sample. -/
theorem blendEndpointsBitForBit : Obligations.BlendEndpointsBitForBit := by
  intro n x y hx hy
  refine ⟨fun hne => ?dry, fun hne => ?wet⟩
  case dry =>
    have hzero := fmul32_zero_right (n + 2) hy (.inl rfl)
    rw [mix_f32_dry, fmul32_one_right _ hx]
    exact fadd32_zero_right _ hx hne hzero
  case wet =>
    have hzero := fmul32_zero_right (n + 1) hx (.inl rfl)
    rw [mix_f32_wet, fmul32_one_right _ hy, fadd32_comm _ (isFin_of_zero hzero) hy]
    exact fadd32_zero_right _ hy hne hzero

/-! ### The dry/wet parameter and the rest of a frame -/

/-- `t'` is `t` with the dry/wet parameter `x`, but for the responses sent. -/
def SameButDryWet (x : F32) (t t' : State) : Prop :=
  t' = { t with pDryWet := x, audioOut := t'.audioOut, ctrlOut := t'.ctrlOut }

/-- No read position looks at the dry/wet parameter (41 R151, 45 R215 steps 4 and 5). -/
theorem frameBad_dryWet (C : Carrier F32) (x : F32) (s : State) : frameBad C { s with pDryWet := x } = frameBad C s := rfl

/-- Neither the RAM writes nor the interpolated reads look at the dry/wet parameter (45 R215 steps 2 to 6). -/
theorem frameDelayed_dryWet (c : Channel) (C : Carrier F32) (inL inR x : F32) (s : State) :
    frameDelayed C c (framedRams C inL inR { s with pDryWet := x }) = frameDelayed C c (framedRams C inL inR s) := by
  cases c <;> rfl

/-- A refusal does not look at the dry/wet parameter (60_exceptions R250). -/
theorem sameButDryWet_refuse (e : ErrorCode) (op : BitVec 8) (info : Word32) (x : F32) (s : State) :
    SameButDryWet x (refuse e op info s) (refuse e op info { s with pDryWet := x }) := by
  rw [refuse_eq, refuse_eq]
  rfl

/-- The end of a frame uses the dry/wet parameter for the response alone (45 R215 steps 7 to 9). -/
theorem sameButDryWet_frameFinish (C : Carrier F32) (inL inR yL yR x : F32) (s : State) :
    SameButDryWet x (frameFinish C inL inR yL yR (framedRams C inL inR s))
      (frameFinish C inL inR yL yR (framedRams C inL inR { s with pDryWet := x })) := by
  rw [frameFinish_eq, frameFinish_eq]
  rfl

/-- Settles O27: with another dry/wet parameter a frame is refused for the same reason, or completes with the same delayed
samples. -/
theorem dryWetStaysOutOfTheDelayLine : Obligations.DryWetStaysOutOfTheDelayLine := by
  intro s t inL inR x h
  rcases frame_next_cases (C := Carrier.f32) h with
    ⟨hu, rfl⟩ | ⟨hu, hbad, rfl⟩ | ⟨hu, hbad, hw, yL, yR, hL, hR, rfl⟩
  · exact ⟨_, frame_of_unprepared _ inL inR hu, sameButDryWet_refuse ..⟩
  · rw [← frameBad_dryWet _ x] at hbad ⊢
    exact ⟨_, frame_of_bad inL inR hu hbad, sameButDryWet_refuse ..⟩
  · rw [← frameBad_dryWet _ x] at hbad
    rw [← frameDelayed_dryWet _ _ _ _ x] at hL hR
    exact ⟨_, frame_of_delayed hu hw hbad hL hR, sameButDryWet_frameFinish ..⟩

end Sys2Proof.Machine
end

section
/-! SUPPORT. PREPARE from its operand to its answer, and the lifecycle a command word leaves (45_frame_and_prepare R220 to R225; 41_delay_buffer R157). Settles O18, O19, O20 and O45. -/

namespace Sys2Proof.Machine

/-! ### What a PREPARE that completes leaves -/

/-- PREPARE completed with the length `n`: the datapath is reset, the response carries `n`, nothing else changes, and the
words of both RAMs are those below `n`, all `+0.0` (45 R220, 41 R157). -/
structure PreparedAt (n : Nat) (sr : F32) (s t : State) : Prop where
  registers : t = { answered s (packWord 0x00 (BitVec.ofNat 32 n) 0) with
    len := n, sr := sr, wh := 0, phase := 0x00000000, fbL := 0x00000000, fbR := 0x00000000,
    st := .prepared, bufL := t.bufL, bufR := t.bufR }
  zeroed : ∀ c i, i < n → memRead c i t = some 0x00000000
  bounded : ∀ c i, n ≤ i → memRead c i t = none

theorem respond_prepareWith (n : Nat) (sr : F32) (s : State) :
    respond 0x00 (zext32 n) 0 (prepareWith Carrier.f32 n sr s)
      = { answered s (packWord 0x00 (BitVec.ofNat 32 n) 0) with
          len := n, sr := sr, wh := 0, phase := 0x00000000, fbL := 0x00000000, fbR := 0x00000000,
          st := .prepared, bufL := [], bufR := [] } := by
  rw [respond_eq, prepareWith, zero_eq]
  rfl

/-- A read at or above `LEN` finds no word (20_memory R61). -/
theorem memRead_of_ge {c : Channel} {i : Nat} {s : State} (h : s.len ≤ i) : memRead c i s = none :=
  if_neg (Nat.not_lt.mpr h)

theorem preparedAt_respond (n : Nat) (sr : F32) (s : State) :
    PreparedAt n sr s (respond 0x00 (zext32 n) 0 (prepareWith Carrier.f32 n sr s)) := by
  rw [respond_prepareWith]
  refine ⟨rfl, fun c i hi => ?_, fun c i hi => memRead_of_ge hi⟩
  rw [memRead_of_lt hi]
  cases c <;> rfl

/-! ### The length of the first PREPARE -/

theorem value_pos_of_zero_flt {x : F32} (h : flt32 0x00000000#32 x = true) : 0 < value x := (flt32_iff.mp h).2.2

/-- A finite product of positive numbers has no sign (00_scope R7). -/
theorem signBit_fmul32_of_pos (n : Nat) {x y : F32} (hx : isFin x = true) (hy : isFin y = true) (hx0 : 0 < value x)
    (hy0 : 0 < value y) : signBit (fmul32 n x y) = false := by
  rw [fmul32_eq_scaled n hx hy hy0, scaled, signBit_packSign _ (roundMag_lt _ _), signBit_of_value_pos hx0]

/-- NEWLEN of a finite product without a sign is its integer part, when the RAMs hold that many words (45 R221). -/
theorem newLen_of_fits {n : Nat} {cfg : Config} {sr : F32} (hfin : isFin (fmul32 n sr cfg.maxd) = true)
    (hsign : signBit (fmul32 n sr cfg.maxd) = false) (hfit : ffloor32 (fmul32 n sr cfg.maxd) ≤ cfg.ramDepth) :
    newLen Carrier.f32 n cfg sr = ffloor32 (fmul32 n sr cfg.maxd) := by
  refine if_pos ?_
  change finIdx32 (fmul32 n sr cfg.maxd) (cfg.ramDepth + 1) = true
  rw [finIdx32_of_finite hfin hsign]
  exact decide_eq_true (Nat.lt_succ_of_le hfit)

theorem exec_prepare (sr : F32) (bs : Word32) (s : State) : exec (.prepare sr bs) s = prepare Carrier.f32 sr s := rfl

/-- The first PREPARE completes with a legal rate and a length that fits (45 R220). -/
theorem prepare_first {C : Carrier F32} {sr : F32} {s : State} (hsr : srLegal C sr = true) (hu : s.st = .unprepared)
    (hfit : lenFits s.cfg (newLen C s.nanDraws s.cfg sr) = true) :
    prepare C sr s = .next (respond 0x00 (zext32 (newLen C s.nanDraws s.cfg sr)) 0
      (prepareWith C (newLen C s.nanDraws s.cfg sr) sr s)) := by
  simp [prepare, hsr, hu, hfit]

/-- A later PREPARE completes with every legal rate (45 R223). -/
theorem prepare_later {C : Carrier F32} {sr : F32} {s : State} (hsr : srLegal C sr = true) (hu : s.st ≠ .unprepared) :
    prepare C sr s = .next (respond 0x00 (zext32 s.len) 0 (prepareWith C s.len sr s)) := by
  simp [prepare, hsr, hu]

/-- A PREPARE with an illegal rate is refused (45 R222, 60_exceptions R254). -/
theorem prepare_of_illegal {C : Carrier F32} {sr : F32} (hsr : srLegal C sr = false) (s : State) :
    prepare C sr s = .next (refuse .param opPrepare 0 s) := by
  simp [prepare, hsr]

/-- Settles O18: the product of two positive numbers that are finite has no sign, so NEWLEN is its integer part. -/
theorem firstPrepareFixesLength : Obligations.FirstPrepareFixesLength := by
  rintro s sr bs hcfg hu hsr _ _ rfl hfin rfl hpos hfit
  have hsrLegal : srLegal Carrier.f32 sr = true := srLegal_eq sr ▸ hsr
  obtain ⟨hsr0, hsrFin⟩ := Bool.and_eq_true_iff.mp hsr
  have hsign : signBit (fmul32 s.nanDraws sr s.cfg.maxd) = false :=
    signBit_fmul32_of_pos _ hsrFin hcfg.maxd_finite (value_pos_of_zero_flt hsr0) (value_pos_of_zero_flt hcfg.maxd_positive)
  have hlen := newLen_of_fits hfin hsign hfit
  have hexec := prepare_first hsrLegal hu (lenFits_iff.mpr (hlen.symm ▸ ⟨hpos, hfit⟩))
  rw [hlen] at hexec
  obtain ⟨hregs, hzero, hbound⟩ := preparedAt_respond (ffloor32 (fmul32 s.nanDraws sr s.cfg.maxd)) sr s
  exact ⟨_, hexec, hregs, hzero, hbound⟩

/-- Settles O19: a later PREPARE completes with the length that stands in `LEN`. -/
theorem laterPrepareKeepsLength : Obligations.LaterPrepareKeepsLength := by
  intro s sr bs hu hsr
  obtain ⟨hregs, hzero, hbound⟩ := preparedAt_respond s.len sr s
  exact ⟨_, prepare_later (srLegal_eq sr ▸ hsr) hu, hregs, hzero, hbound⟩

/-- Settles O20: SRLEGAL is the legality of a sample rate, bit for bit the positive finite numbers. -/
theorem illegalSampleRateIsRefused : Obligations.IllegalSampleRateIsRefused := by
  refine ⟨srLegal_eq, fun s sr bs hsr => ?_⟩
  rw [← rateOfSampleLegal_iff, ← srLegal_eq, Bool.not_eq_true] at hsr
  rw [exec_prepare, prepare_of_illegal hsr, refuse_eq]
  rfl

/-! ### The lifecycle a command word leaves -/

/-- The commands that move `ST` when they complete (45 R225). -/
def movesLifecycle : Instr → Bool
  | .prepare _ _ | .frame _ _ => true
  | _ => false

theorem movesLifecycle_setInstr (p : Param) (a : Word32) : movesLifecycle (setInstr p a) = false := by cases p <;> rfl

theorem movesLifecycle_getInstr (p : Param) : movesLifecycle (getInstr p) = false := by cases p <;> rfl

/-- The rows of the lifecycle table (45 R225): what a command word leaves in `ST`, and the code it is answered with. -/
inductive LifecycleRow (cw : Word72) (s t : State) (code : BitVec 8) : Prop where
  /-- a refused word moves nothing -/
  | refused (e : ErrorCode) (hcode : code = e.code) (h : t.st = s.st)
  /-- neither does a SET, a GET or GETST -/
  | kept (i : Instr) (hd : decode cw = .ok i) (hm : movesLifecycle i = false) (h : t.st = s.st)
  /-- a PREPARE that completes -/
  | prepared (sr : F32) (bs : Word32) (hd : decode cw = .ok (.prepare sr bs)) (hcode : code = 0) (h : t.st = .prepared)
  /-- a frame that completes -/
  | framed (inL inR : F32) (hd : decode cw = .ok (.frame inL inR)) (hcode : code = 0) (hu : s.st ≠ .unprepared)
      (h : t.st = .processing)

theorem errorCode_ne_zero (e : ErrorCode) : e.code ≠ 0 := by cases e <;> decide

/-- A response sent from a state with the port of the command is the answer of the command (30_encoding R93). -/
theorem lastAnswer_respond (rc : BitVec 8) (ra rb : Word32) {s u : State} (hp : s.port = u.port) :
    lastAnswer s (respond rc ra rb u) = some (packWord rc ra rb) := by
  rw [respond_eq, lastAnswer_answered s u _ hp]

theorem lastAnswer_refuse (e : ErrorCode) (op : BitVec 8) (info : Word32) (s : State) :
    lastAnswer s (refuse e op info s) = some (packWord e.code (zext32 op.toNat) info) := lastAnswer_respond _ _ _ rfl

/-- A word answered with the code of a row of the lifecycle table takes that row. -/
theorem lifecycleRow_of_lastAnswer {cw : Word72} {s t : State} {rc : BitVec 8} {ra rb : Word32}
    (ha : lastAnswer s t = some (packWord rc ra rb)) (h : LifecycleRow cw s t rc) :
    ∃ rw, lastAnswer s t = some rw ∧ LifecycleRow cw s t (opField rw) :=
  ⟨_, ha, (opField_packWord rc ra rb).symm ▸ h⟩

/-- WHAT A COMMAND WORD DOES TO THE LIFECYCLE: it is answered, and takes one row of the table (45 R225). -/
theorem runWord_lifecycleRow {cw : Word72} {s t : State} (h : runWord cw s = .next t) :
    ∃ rw, lastAnswer s t = some rw ∧ LifecycleRow cw s t (opField rw) := by
  cases hd : decode cw with
  | error e =>
    simp only [runWord, hd] at h
    cases h
    exact lifecycleRow_of_lastAnswer (lastAnswer_refuse _ _ _ s) (.refused .illegal rfl (refuse_st ..))
  | ok i =>
    rw [runWord_of_decode hd] at h
    cases exec_cases h with
    | refused e info _ ht =>
      subst ht
      exact lifecycleRow_of_lastAnswer (lastAnswer_refuse ..) (.refused e rfl (refuse_st ..))
    | stored p a hi _ ht =>
      subst hi ht
      exact lifecycleRow_of_lastAnswer (lastAnswer_respond _ _ _ (writeParam_port p a s).symm)
        (.kept _ hd (movesLifecycle_setInstr p a) (sameDelayLine_set p a s).st)
    | got p hi ht =>
      subst hi ht
      exact lifecycleRow_of_lastAnswer (lastAnswer_respond _ _ _ rfl) (.kept _ hd (movesLifecycle_getInstr p) (respond_st ..))
    | gotStatus hi ht =>
      subst hi ht
      exact lifecycleRow_of_lastAnswer (lastAnswer_respond _ _ _ rfl) (.kept _ hd rfl (respond_st ..))
    | preparedFirst sr bs hi _ _ _ ht | preparedAgain sr bs hi _ _ ht =>
      subst hi ht
      exact lifecycleRow_of_lastAnswer (lastAnswer_respond _ _ _ rfl) (.prepared sr bs hd rfl (respond_st ..))
    | framed inL inR yL yR hi hu _ _ _ _ ht =>
      subst hi ht
      exact lifecycleRow_of_lastAnswer (lastAnswer_respond _ _ _ rfl) (.framed inL inR hd rfl hu (respond_st ..))

/-- Settles O45: each row of the table, read in both directions through the code of the answer. -/
theorem lifecycleTransitions : Obligations.LifecycleTransitions := by
  intro cw s t h
  obtain ⟨rw, hrw, hrow⟩ := runWord_lifecycleRow h
  simp only [hrw, Option.some.injEq, forall_eq']
  cases hrow with
  | refused e hcode hst =>
    have hne : opField rw ≠ 0 := hcode ▸ errorCode_ne_zero e
    exact ⟨.inl hst, fun _ => hst, fun _ _ _ h0 => absurd h0 hne, fun _ _ _ h0 => absurd h0 hne⟩
  | kept i hd hm hst =>
    refine ⟨.inl hst, fun _ => hst, fun sr bs hd' => ?_, fun l r hd' => ?_⟩ <;>
      · cases hd.symm.trans hd'
        cases hm
  | prepared sr bs hd hcode hst =>
    exact ⟨.inr (.inl ⟨sr, bs, hd, hst⟩), absurd hcode, fun _ _ _ _ => hst, fun _ _ hd' => (nomatch hd.symm.trans hd')⟩
  | framed inL inR hd hcode hu hst =>
    exact ⟨.inr (.inr ⟨inL, inR, hd, hu, hst⟩), absurd hcode, fun _ _ hd' => (nomatch hd.symm.trans hd'),
      fun _ _ _ _ => ⟨hu, hst⟩⟩

end Sys2Proof.Machine
end

section
/-! SUPPORT. FRAME from its operands to its next state: the words of the RAMs after its two writes, the registers it names, and that no channel looks at the other (45_frame_and_prepare R215 to R217; 20_memory R62, R66). Settles O23, O25 and O26. -/

namespace Sys2Proof.Machine

/-! ### The words of the RAMs after a frame -/

/-- A read depends on the delay line alone (20_memory R62). -/
theorem memRead_congr {s t : State} (h : SameDelayLine s t) (c : Channel) (i : Nat) : memRead c i t = memRead c i s := by
  unfold memRead
  rw [h.len]
  cases c with
  | left => rw [State.buf, State.buf, h.bufL]
  | right => rw [State.buf, State.buf, h.bufR]

/-- A frame leaves every word but the one at the cursor alone (45 R215 step 3). -/
theorem memRead_delayLineFramed_other (vL vR : F32) (c : Channel) {i : Nat} {s : State} (h : i ≠ s.wh) :
    memRead c i (delayLineFramed vL vR s) = memRead c i s := by
  unfold memRead
  cases c with
  | left | right => rw [State.buf, delayLineFramed, Memory.get_put_other _ _ h]; rfl

/-- A frame leaves the value of a channel at the cursor of its RAM (45 R215 step 3). -/
theorem memRead_delayLineFramed_cursor (vL vR : F32) (c : Channel) {s : State} (hw : s.wh < s.len) (hr : RamsOk s) :
    memRead c s.wh (delayLineFramed vL vR s) = some (inputOf c vL vR) := by
  have hlen : s.wh < (delayLineFramed vL vR s).len := hw
  rw [memRead_of_lt hlen]
  cases c with
  | left => exact congrArg some (Memory.get_put_same s.wh vL hr.left)
  | right => exact congrArg some (Memory.get_put_same s.wh vR hr.right)

/-! ### What a completed frame leaves -/

section
variable (C : Carrier F32) (inL inR yL yR : F32) (s : State)

/-- Nothing after the RAM writes of a frame touches a word (45 R215 steps 4 to 9). -/
theorem memRead_frameFinish (c : Channel) (i : Nat) :
    memRead c i (frameFinish C inL inR yL yR s) = memRead c i s := by
  rw [frameFinish_eq]
  cases c <;> rfl

/-- The next state of a completed frame, from the state before it: the two RAMs aside, every register is written out
(45 R215). -/
theorem frameFinish_framedRams_registers :
    frameFinish C inL inR yL yR (framedRams C inL inR s)
      = { answered s (packWord 0x00 (mix C (s.nanDraws + 20) inL yL s.pDryWet)
            (mix C (s.nanDraws + 52) inR yR s.pDryWet)) with
          fbL := frameFeedback C .left yL s
          fbR := frameFeedback C .right yR s
          phase := phaseAdv C (s.nanDraws + 24) s.phase s.sr s.pRate
          wh := nextIndex s.len s.wh
          st := .processing
          nanDraws := s.nanDraws + 64
          bufL := (frameFinish C inL inR yL yR (framedRams C inL inR s)).bufL
          bufR := (frameFinish C inL inR yL yR (framedRams C inL inR s)).bufR } := by
  rw [frameFinish_eq]
  rfl
end

/-- Settles O23: a frame whose positions are in range completes, and its next state is written out word by word and
register by register. -/
theorem frameCompletes : Obligations.FrameCompletes := by
  rintro s inL inR hinv hu _ vL vR posL posR rfl rfl rfl rfl rfl hokL hokR
  have hw : s.wh < s.len := hinv.lifecycle.cursor_inside hu
  obtain ⟨yL, yR, hL, hR, hframe⟩ := frame_completes (inL := inL) (inR := inR) hu hw hokL hokR
  have hline := sameDelayLine_frameFinish Carrier.f32 inL inR yL yR s
  refine ⟨_, yL, yR, hframe, ?_, ?_, fun c i hi => ?_, ?_, ?_, frameFinish_framedRams_registers ..⟩
  · rw [memRead_congr hline]
    exact memRead_delayLineFramed_cursor _ _ .left hw hinv.rams
  · rw [memRead_congr hline]
    exact memRead_delayLineFramed_cursor _ _ .right hw hinv.rams
  · rw [memRead_congr hline, memRead_delayLineFramed_other _ _ _ hi]
  · simp only [memRead_frameFinish]
    exact hL
  · simp only [memRead_frameFinish]
    exact hR

/-! ### What a frame leaves alone -/

/-- `t` is `s` but for what FRAME names: the RAMs, the feedback, the phase, the cursor, the lifecycle, the flags, the
responses and the counter of draws (45 R215, 60_exceptions R250). -/
def SameOutsideFrame (s t : State) : Prop :=
  t = { s with
    bufL := t.bufL, bufR := t.bufR, fbL := t.fbL, fbR := t.fbR, phase := t.phase, wh := t.wh, st := t.st,
    flags := t.flags, audioOut := t.audioOut, ctrlOut := t.ctrlOut, nanDraws := t.nanDraws }

theorem sameOutsideFrame_refuse (e : ErrorCode) (op : BitVec 8) (info : Word32) (s : State) :
    SameOutsideFrame s (refuse e op info s) := by
  rw [refuse_eq]
  rfl

theorem sameOutsideFrame_frameFinish (C : Carrier F32) (inL inR yL yR : F32) (s : State) :
    SameOutsideFrame s (frameFinish C inL inR yL yR (framedRams C inL inR s)) := by
  rw [frameFinish_eq]
  rfl

/-- WHAT A FRAME CAN DO, in a next state: refuse with one flag, or complete over both RAM writes (45 R215, R216). -/
theorem exec_frame_cases {inL inR : F32} {s t : State} (h : exec (.frame inL inR) s = .next t) :
    (∃ e info, t = refuse e opFrame info s) ∨
    (s.wh < s.len ∧ ∃ yL yR, t = frameFinish Carrier.f32 inL inR yL yR (framedRams Carrier.f32 inL inR s)) := by
  rcases frame_next_cases (C := Carrier.f32) h with ⟨-, ht⟩ | ⟨-, -, ht⟩ | ⟨-, -, hw, yL, yR, -, -, ht⟩
  · exact .inl ⟨_, _, ht⟩
  · exact .inl ⟨_, _, ht⟩
  · exact .inr ⟨hw, yL, yR, ht⟩

/-- Settles O25: a refused frame moves nothing of the delay line, and a completed one writes at the cursor alone. -/
theorem frameLeavesTheRestAlone : Obligations.FrameLeavesTheRestAlone := by
  intro s t inL inR h
  rcases exec_frame_cases h with ⟨e, info, rfl⟩ | ⟨hw, yL, yR, rfl⟩
  · have hline := sameDelayLine_refuse e opFrame info s
    exact ⟨fun c i _ => memRead_congr hline c i, .inr ⟨hline.bufL, hline.bufR⟩, sameOutsideFrame_refuse ..⟩
  · refine ⟨fun c i hi => ?_, .inl hw, sameOutsideFrame_frameFinish ..⟩
    rw [memRead_congr (sameDelayLine_frameFinish _ inL inR yL yR s), memRead_delayLineFramed_other _ _ _ hi]

/-! ### What a frame gives one channel -/

/-- The field of a response to FRAME that carries the output sample of a channel (30_encoding R95). -/
def outputField : Channel → Word72 → Word32
  | .left => aField
  | .right => bField

theorem outputField_packWord (c : Channel) (rc : BitVec 8) (ra rb : Word32) :
    outputField c (packWord rc ra rb) = inputOf c ra rb := by
  cases c with
  | left => exact aField_packWord rc ra rb
  | right => exact bField_packWord rc ra rb

section
variable (C : Carrier F32) (c : Channel) (inL inR yL yR : F32)

theorem buf_frameFinish (s : State) : (frameFinish C inL inR yL yR s).buf c = s.buf c := by
  rw [frameFinish_eq]
  cases c <;> rfl

theorem fb_frameFinish (s : State) :
    (frameFinish C inL inR yL yR s).fb c = frameFeedback C c (inputOf c yL yR) s := by
  rw [frameFinish_eq]
  cases c <;> rfl

/-- A completed frame answers each channel its own blend (45 R215 step 9). -/
theorem outputField_frameFinish (s : State) :
    (lastAnswer s (frameFinish C inL inR yL yR (framedRams C inL inR s))).map (outputField c)
      = some (frameOut C c (inputOf c inL inR) (inputOf c yL yR) (framedRams C inL inR s)) := by
  rw [frameFinish, lastAnswer_respond, Option.map_some, outputField_packWord]
  · cases c <;> rfl
  · rfl

/-- The delayed samples of both channels, channel by channel (45 R215 step 6). -/
theorem frameDelayed_eq_inputOf {C : Carrier F32} {yL yR : F32} {w : State} (hL : frameDelayed C .left w = some yL)
    (hR : frameDelayed C .right w = some yR) (c : Channel) : frameDelayed C c w = some (inputOf c yL yR) := by
  cases c with
  | left => exact hL
  | right => exact hR
end

/-! ### One channel and the other -/

/-- The state with the feedback register and the RAM of the channel other than `c` replaced (10_state R22, R40). -/
def replaceOther (c : Channel) (x : F32) (m : Memory) (s : State) : State :=
  match c with
  | .left => { s with fbR := x, bufR := m }
  | .right => { s with fbL := x, bufL := m }

/-- Two steps, `s` to `t` and `s'` to `t'`, leave the same RAM and feedback of a channel and answer the same sample for
it (45 R217). -/
structure SameChannel (c : Channel) (s t s' t' : State) : Prop where
  buf : t'.buf c = t.buf c
  fb : t'.fb c = t.fb c
  sample : (lastAnswer s' t').map (outputField c) = (lastAnswer s t).map (outputField c)

section
variable {c : Channel} (C : Carrier F32) (x : F32) (m : Memory) (s : State)

theorem replaceOther_st : (replaceOther c x m s).st = s.st := by cases c <;> rfl

/-- No read position looks at a RAM or at a feedback register (45 R217, 70 R318 b). -/
theorem frameBad_replaceOther : frameBad C (replaceOther c x m s) = frameBad C s := by cases c <;> rfl

theorem sameChannel_refuse (e : ErrorCode) (op : BitVec 8) (info : Word32) :
    SameChannel c s (refuse e op info s) (replaceOther c x m s) (refuse e op info (replaceOther c x m s)) where
  buf := by rw [refuse_eq, refuse_eq]; cases c <;> rfl
  fb := by rw [refuse_eq, refuse_eq]; cases c <;> rfl
  sample := by rw [lastAnswer_refuse, lastAnswer_refuse]

variable {inL inR inL' inR' : F32} (hin : inputOf c inL' inR' = inputOf c inL inR)
include hin

/-- The writes of a frame leave a channel the same RAM whatever the other channel holds (45 R217). -/
theorem framedRams_replaceOther_buf :
    (framedRams C inL' inR' (replaceOther c x m s)).buf c = (framedRams C inL inR s).buf c := by
  cases c with
  | left | right => cases hin; rfl

/-- The delayed sample of a channel is the same whatever the other channel holds (45 R217). -/
theorem frameDelayed_replaceOther :
    frameDelayed C c (framedRams C inL' inR' (replaceOther c x m s)) = frameDelayed C c (framedRams C inL inR s) := by
  cases c with
  | left | right => cases hin; rfl

/-- With the same delayed sample, a frame ends the same for a channel whatever the other channel holds (45 R217). -/
theorem sameChannel_frameFinish {yL yR yL' yR' : F32} (hy : inputOf c yL' yR' = inputOf c yL yR) :
    SameChannel c s (frameFinish C inL inR yL yR (framedRams C inL inR s)) (replaceOther c x m s)
      (frameFinish C inL' inR' yL' yR' (framedRams C inL' inR' (replaceOther c x m s))) where
  buf := by rw [buf_frameFinish, buf_frameFinish, framedRams_replaceOther_buf C x m s hin]
  fb := by
    rw [fb_frameFinish, fb_frameFinish, hy]
    cases c <;> rfl
  sample := by
    rw [outputField_frameFinish, outputField_frameFinish, hin, hy]
    cases c <;> rfl
end

/-- NO CHANNEL LOOKS AT THE OTHER: both frames are refused alike, or both complete with the same delayed sample of the
channel (45 R217). -/
theorem sameChannel_frame {C : Carrier F32} {c : Channel} {inL inR inL' inR' x : F32} {m : Memory} {s t t' : State}
    (hin : inputOf c inL' inR' = inputOf c inL inR) (h : frame C inL inR s = .next t)
    (h' : frame C inL' inR' (replaceOther c x m s) = .next t') : SameChannel c s t (replaceOther c x m s) t' := by
  have hst := replaceOther_st (c := c) x m s
  have hbad := frameBad_replaceOther (c := c) C x m s
  rcases frame_next_cases h with ⟨hu, rfl⟩ | ⟨hu, hb, rfl⟩ | ⟨hu, hb, -, yL, yR, hL, hR, rfl⟩
  · cases (frame_of_unprepared C inL' inR' (hst.trans hu)).symm.trans h'
    exact sameChannel_refuse ..
  · cases (frame_of_bad inL' inR' (hst ▸ hu) (hbad ▸ hb)).symm.trans h'
    rw [hbad]
    exact sameChannel_refuse ..
  · rcases frame_next_cases h' with ⟨hu', -⟩ | ⟨-, hb', -⟩ | ⟨-, -, -, yL', yR', hL', hR', rfl⟩
    · exact absurd (hst.symm.trans hu') hu
    · exact absurd (hbad.trans hb) hb'
    · have hy : some (inputOf c yL' yR') = some (inputOf c yL yR) := by
        rw [← frameDelayed_eq_inputOf hL' hR', ← frameDelayed_eq_inputOf hL hR, frameDelayed_replaceOther C x m s hin]
      exact sameChannel_frameFinish C x m s hin (Option.some.inj hy)

/-- Settles O26: the same statement for each of the two channels. -/
theorem channelsDoNotMix : Obligations.ChannelsDoNotMix := by
  refine ⟨fun s t t' l r r' x m h h' => ?_, fun s t t' l l' r x m h h' => ?_⟩
  · have hin : inputOf .left l r' = inputOf .left l r := rfl
    obtain ⟨hbuf, hfb, hsample⟩ := sameChannel_frame (x := x) (m := m) hin h h'
    exact ⟨hbuf, hfb, hsample⟩
  · have hin : inputOf .right l' r = inputOf .right l r := rfl
    obtain ⟨hbuf, hfb, hsample⟩ := sameChannel_frame (x := x) (m := m) hin h h'
    exact ⟨hbuf, hfb, hsample⟩

end Sys2Proof.Machine
end

section
/-! SUPPORT. The faults of a command, from the cause to the flag: every cause is answered by the refusal that names it, and a command sets no flag but that of a cause it meets (60_exceptions R250, R252, R255, R263, R275). Settles O7, O22, O24 and O44. -/

namespace Sys2Proof.Machine

/-! ### An idle step -/

/-- With both queues empty no command is granted (00_scope R14). -/
theorem takeCommand_eq_none {s : State} (ha : s.audioIn = []) (hc : s.ctrlIn = []) : takeCommand s = none := by
  simp only [takeCommand, ha, hc]

/-- Settles O7: no command is granted, so nothing runs. -/
theorem idleStepHoldsState : Obligations.IdleStepHoldsState := by
  intro s hr ha hc
  simp only [step, hr, takeCommand_eq_none ha hc, Bool.false_eq_true, if_false]

/-! ### A cause and its refusal -/

/-- A first PREPARE whose length does not fit is refused (45 R220, 60_exceptions R256). -/
theorem prepare_of_noRoom {C : Carrier F32} {sr : F32} {s : State} (hsr : srLegal C sr = true) (hu : s.st = .unprepared)
    (hfit : lenFits s.cfg (newLen C s.nanDraws s.cfg sr) = false) :
    prepare C sr s = .next (refuse .capacity opPrepare 0 s) := by
  simp [prepare, hsr, hu, hfit]

/-- The opcode under which a SET is refused is its own (60_exceptions R258). -/
theorem encodeFields_setInstr_op (p : Param) (a : Word32) : (encodeFields (setInstr p a)).op = opSet p := by
  cases p <;> rfl

/-- EVERY CAUSE IS ANSWERED BY ITS REFUSAL, under the opcode of the command (60_exceptions R250, R251). -/
theorem Refused.exec_eq {i : Instr} {s : State} {e : ErrorCode} {info : Word32} (h : Refused i s e info) :
    exec i s = .next (refuse e (encodeFields i).op info s) := by
  cases h with
  | badValue p a hi hl =>
    subst hi
    rw [exec_setInstr, if_neg (Bool.eq_false_iff.mp hl), encodeFields_setInstr_op]
  | badRate sr bs hi hl =>
    subst hi
    exact prepare_of_illegal hl s
  | noRoom sr bs hi hl hu hf =>
    subst hi
    exact prepare_of_noRoom hl hu hf
  | notPrepared inL inR hi hu =>
    subst hi
    exact frame_of_unprepared _ inL inR hu
  | outOfRange inL inR hi hu hb =>
    subst hi
    exact frame_of_bad inL inR hu hb

/-! ### The flags after a command -/

/-- Setting the flag of one fault leaves the other flags alone (60_exceptions R250 b). -/
theorem Flags.get_set (f : Flags) (e e' : ErrorCode) : (f.set e).get e' = (decide (e' = e) || f.get e') := by
  cases e <;> cases e' <;> rfl

/-- A refusal sets the flag of its fault (60_exceptions R250 b). -/
theorem Flags.get_set_same (f : Flags) (e : ErrorCode) : (f.set e).get e = true := by
  rw [Flags.get_set, decide_eq_true rfl, Bool.true_or]

/-- No refusal clears a flag (60_exceptions R263). -/
theorem Flags.get_set_of_get {f : Flags} {e' : ErrorCode} (e : ErrorCode) (h : f.get e' = true) :
    (f.set e).get e' = true := by
  rw [Flags.get_set, h, Bool.or_true]

/-- WHAT A COMMAND CAN DO TO THE FLAGS: leave them alone, or set the flag of a cause it meets (60_exceptions R250). -/
theorem exec_flags {i : Instr} {s t : State} (h : exec i s = .next t) :
    t.flags = s.flags ∨ ∃ e info, Refused i s e info ∧ t.flags = s.flags.set e := by
  cases exec_cases h with
  | refused e info hc ht => exact .inr ⟨e, info, hc, by rw [ht, refuse_flags]⟩
  | stored p a _ _ ht => exact .inl (by rw [ht, respond_flags, writeParam_flags])
  | got p _ ht => exact .inl (by rw [ht, respond_flags])
  | gotStatus _ ht => exact .inl (by rw [ht, respond_flags])
  | preparedFirst sr bs _ _ _ _ ht => exact .inl (by rw [ht, respond_flags, prepareWith_flags])
  | preparedAgain sr bs _ _ _ ht => exact .inl (by rw [ht, respond_flags, prepareWith_flags])
  | framed inL inR yL yR _ _ _ _ _ _ ht => exact .inl (by rw [ht, frameFinish_eq]; rfl)

/-- A command that newly sets a flag meets a cause of that fault (60_exceptions R252 to R256). -/
theorem refused_of_flag_set {i : Instr} {s t : State} {e : ErrorCode} (h : exec i s = .next t)
    (hs : s.flags.get e = false) (ht : t.flags.get e = true) : ∃ info, Refused i s e info := by
  rcases exec_flags h with hkept | ⟨e', info, hc, hset⟩
  · rw [hkept, hs] at ht
    exact absurd ht Bool.false_ne_true
  · rw [hset, Flags.get_set, hs, Bool.or_false, decide_eq_true_eq] at ht
    exact ⟨info, ht ▸ hc⟩

/-- Settles O22: a frame before the first PREPARE is the one cause of `E_UNPREP`. -/
theorem frameBeforePrepareIsRefused : Obligations.FrameBeforePrepareIsRefused := by
  refine ⟨fun s inL inR hu => ?_, fun i s t h hs ht => ?_⟩
  · rw [(Refused.notPrepared inL inR rfl hu).exec_eq, refuse_eq]
    rfl
  · obtain ⟨info, hc⟩ := refused_of_flag_set (e := .unprep) h hs ht
    cases hc with
    | notPrepared inL inR hi hu => exact ⟨hu, inL, inR, hi⟩

/-- Settles O24: neither read position looks at the feedback registers, the RAMs or the samples, so the cause is met
whatever they hold. -/
theorem frameOutOfRangeIsRefused : Obligations.FrameOutOfRangeIsRefused := by
  intro s inL inR hu hbad x y m k
  have hne : frameBad Carrier.f32 s ≠ 0 := by
    rw [ne_eq, frameBad_eq_zero, not_and_or, Bool.not_eq_true, Bool.not_eq_true]
    exact hbad
  have hcause : Refused (.frame inL inR) { s with fbL := x, fbR := y, bufL := m, bufR := k } .range
      (frameBad Carrier.f32 s) := .outOfRange inL inR rfl hu hne
  rw [hcause.exec_eq, refuse_eq]
  rfl

/-! ### The flags after a step -/

/-- No command clears a flag (60_exceptions R263). -/
theorem exec_keeps_flag {i : Instr} {s t : State} (h : exec i s = .next t) {e : ErrorCode} (hs : s.flags.get e = true) :
    t.flags.get e = true := by
  rcases exec_flags h with hkept | ⟨e', info, -, hset⟩
  · rw [hkept, hs]
  · rw [hset, Flags.get_set_of_get e' hs]

/-- The grant of a command moves no flag (00_scope R14). -/
theorem takeCommand_flags {s t : State} {cw : Word72} (h : takeCommand s = some (cw, t)) : t.flags = s.flags := by
  rcases takeCommand_cases h with ⟨rest, -, -, rfl⟩ | ⟨rest, -, -, rfl⟩ <;> rfl

/-- The response a command sent is the last one on its port (30_encoding R93). -/
theorem Responded.lastAnswer_eq {s t : State} {rw : Word72} (h : Responded s t rw) : lastAnswer s t = some rw := by
  unfold lastAnswer
  cases hp : s.port with
  | audio => simp only [h.audio, audioAfter, hp, if_true, List.getLast?_concat]
  | ctrl => simp only [h.ctrl, ctrlAfter, hp, reduceCtorEq, if_false, List.getLast?_concat]

/-- Each fault has a code of its own (60_exceptions R251). -/
theorem errorCode_inj {e e' : ErrorCode} (h : e.code = e'.code) : e = e' := by
  revert h
  cases e <;> cases e' <;> decide

/-- A word answered with the code of a fault has set the flag of that fault (60_exceptions R250). -/
theorem flag_of_lastAnswer {cw : Word72} {s t : State} {e : ErrorCode} {rw : Word72} (h : runWord cw s = .next t)
    (hrw : lastAnswer s t = some rw) (hcode : opField rw = e.code) : t.flags.get e = true := by
  rcases runWord_completes_or_refuses h with ⟨ra, rb, hresp⟩ | ⟨e', info, -, rfl⟩
  · cases hresp.lastAnswer_eq.symm.trans hrw
    rw [opField_packWord] at hcode
    exact absurd hcode.symm (errorCode_ne_zero e)
  · cases (lastAnswer_refuse e' (opField cw) info s).symm.trans hrw
    rw [opField_packWord] at hcode
    rw [refuse_flags, errorCode_inj hcode, Flags.get_set_same]

/-- Settles O44: of the ways a step can go, only hardware reset clears a flag. -/
theorem flagsAreSticky : Obligations.FlagsAreSticky := by
  refine ⟨fun s t hr hstep e hs => ?_, fun cw s t e rw => flag_of_lastAnswer⟩
  rcases step_cases hstep with ⟨hr', -⟩ | ⟨-, -, h⟩ | ⟨-, cw, u, hu, ⟨-, -, h⟩ | ⟨i, -, h⟩⟩
  · exact absurd (hr.symm.trans hr') Bool.false_ne_true
  · cases h
    exact hs
  · cases h
    rw [refuseIllegal, refuse_flags, takeCommand_flags hu, Flags.get_set_of_get _ hs]
  · exact exec_keeps_flag h.symm (takeCommand_flags hu ▸ hs)

end Sys2Proof.Machine
end

section
/-! SUPPORT. The illegal words: a word is a command exactly when its fields are well formed, and what is not is listed by opcode (30_encoding R91, R96, R98; 60_exceptions R253). Settles O4. -/

namespace Sys2Proof

/-! ### The well-formed words -/

/-- Each of the fifteen opcodes is the opcode of a row of the table (30_encoding R95, R96). -/
theorem exists_row_of_opcodeKnown :
    ∀ op : BitVec 8, opcodeKnown op = true → ∃ r ∈ opcodeTable, opField r.value = op := by decide

/-- Each of the fifteen opcodes is assembled by a command (30_encoding R95, R96). -/
theorem exists_encodeFields_op {op : BitVec 8} (h : opcodeKnown op = true) : ∃ i, (encodeFields i).op = op := by
  obtain ⟨r, hr, hop⟩ := exists_row_of_opcodeKnown op h
  obtain ⟨i, rfl⟩ := exists_rowOf_of_mem hr
  rw [rowOf_value, opField_packWord] at hop
  exact ⟨i, hop⟩

/-- WHAT IS A COMMAND: the decoder accepts the well-formed fields and no others (30_encoding R96, R98, R100). -/
theorem exists_decodeFields_iff {op : BitVec 8} {a b : Word32} :
    (∃ i, decodeFields op a b = .ok i) ↔ (Command.mk op a b).wellFormed = true := by
  constructor
  · rintro ⟨i, hi⟩
    obtain ⟨rfl, rfl, rfl⟩ := decodeFields_ok hi
    exact encodeFields_wellFormed i
  · intro h
    obtain ⟨hop, ha, hb⟩ := wellFormed_iff.mp h
    obtain ⟨i, rfl⟩ := exists_encodeFields_op hop
    obtain ⟨j, hj, -⟩ := decodeFields_of_mustBeZero i ha hb
    exact ⟨j, hj⟩

/-! ### The illegal words, listed -/

/-- The opcodes that are none of the fifteen (30_encoding R98). -/
theorem opcodeKnown_eq_false_iff : ∀ op : BitVec 8, opcodeKnown op = false ↔
    op = 0x00 ∨ (0x03 ≤ op ∧ op ≤ 0x0F) ∨ (0x16 ≤ op ∧ op ≤ 0x1F) ∨ (0x26 ≤ op ∧ op ≤ 0x2F) ∨ 0x31 ≤ op := by decide

/-- The opcodes of SET: field `b` alone must be zero (30_encoding R91, R95). -/
theorem known_mustBeZeroB_only_iff : ∀ op : BitVec 8,
    (opcodeKnown op = true ∧ mustBeZeroB op = true ∧ mustBeZeroA op = false) ↔ (0x10 ≤ op ∧ op ≤ 0x15) := by decide

/-- The opcodes of GET and GETST: both fields must be zero (30_encoding R91, R95). -/
theorem known_mustBeZeroA_iff : ∀ op : BitVec 8,
    (opcodeKnown op = true ∧ mustBeZeroA op = true) ↔ ((0x20 ≤ op ∧ op ≤ 0x25) ∨ op = 0x30) := by decide

/-- A word is illegal when its opcode is none of the fifteen, or a field that must be zero is not (30_encoding R98). -/
theorem isIllegal_packWord_iff {op : BitVec 8} {a b : Word32} : Machine.isIllegal (packWord op a b) ↔
    opcodeKnown op = false ∨
      ((opcodeKnown op = true ∧ mustBeZeroB op = true ∧ mustBeZeroA op = false) ∧ b ≠ 0) ∨
      ((opcodeKnown op = true ∧ mustBeZeroA op = true) ∧ (a ≠ 0 ∨ b ≠ 0)) := by
  rw [Machine.isIllegal, decode_packWord, ← not_exists, exists_decodeFields_iff, wellFormed_iff]
  cases hA : mustBeZeroA op with
  | false =>
    simp only [Bool.false_eq_true, false_imp_iff, true_and, and_true, ← Bool.not_eq_true]
    tauto
  | true =>
    simp only [Machine.mustBeZeroB_of_mustBeZeroA hA, true_imp_iff, and_true, ← Bool.not_eq_true]
    tauto

end Sys2Proof

namespace Sys2Proof.Machine

/-- Settles O4: the listed ranges are the unknown opcodes, and the opcodes of the fields that must be zero. -/
theorem illegalWordsAreRefused : Obligations.IllegalWordsAreRefused := by
  refine ⟨fun op a b => ?_, fun op a b s h => ?_⟩
  · rw [isIllegal_packWord_iff, opcodeKnown_eq_false_iff, known_mustBeZeroB_only_iff, known_mustBeZeroA_iff]
    simp only [or_assoc]
  · rw [runWord_of_isIllegal h, opField_packWord]

end Sys2Proof.Machine
end

section
/-! SUPPORT. The port of a command: every way a command can go is the same way from the other port, and the port routes the response alone (60_exceptions R270; 00_scope R13, R14). Settles O11. -/

namespace Sys2Proof.Machine

/-! ### A state on another port -/

/-- The state with the command in execution taken from the port `p` (00_scope R14). -/
def onPort (p : Port) (s : State) : State := { s with port := p }

/-- The next state `t` of `s`, had the command come from the port `p`: the response `rw` is sent on that port. -/
def rerouted (p : Port) (rw : Word72) (s t : State) : State :=
  { t with port := p, audioOut := audioAfter (onPort p s) rw, ctrlOut := ctrlAfter (onPort p s) rw }

/-- A cause of a refusal does not look at the port (60_exceptions R270). -/
theorem Refused.onPort {i : Instr} {s : State} {e : ErrorCode} {info : Word32} (h : Refused i s e info) (p : Port) :
    Refused i (onPort p s) e info := by
  cases h with
  | badValue q a hi hl => exact .badValue q a hi hl
  | badRate sr bs hi hl => exact .badRate sr bs hi hl
  | noRoom sr bs hi hl hu hf => exact .noRoom sr bs hi hl hu hf
  | notPrepared inL inR hi hu => exact .notPrepared inL inR hi hu
  | outOfRange inL inR hi hu hb => exact .outOfRange inL inR hi hu hb

/-! ### Each answer from another port -/

theorem writeParam_onPort (q : Param) (a : Word32) (p : Port) (s : State) :
    writeParam q a (onPort p s) = onPort p (writeParam q a s) := by cases q <;> rfl

theorem readParam_onPort (q : Param) (p : Port) (s : State) : readParam q (onPort p s) = readParam q s := by
  cases q <;> rfl

/-- Neither the RAM writes nor the interpolated reads of a frame look at the port (45 R215 steps 2 to 6). -/
theorem frameDelayed_onPort (c : Channel) (C : Carrier F32) (inL inR : F32) (p : Port) (s : State) :
    frameDelayed C c (framedRams C inL inR (onPort p s)) = frameDelayed C c (framedRams C inL inR s) := by
  cases c <;> rfl

theorem refuse_onPort (e : ErrorCode) (op : BitVec 8) (info : Word32) (p : Port) (s : State) :
    refuse e op info (onPort p s)
      = rerouted p (packWord e.code (zext32 op.toNat) info) s (refuse e op info s) := by
  rw [refuse_eq, refuse_eq]
  rfl

/-- A response sent from a state with the streams of `s`, from the other port. -/
theorem respond_onPort (rc : BitVec 8) (ra rb : Word32) (p : Port) {s u : State} (ha : u.audioOut = s.audioOut)
    (hc : u.ctrlOut = s.ctrlOut) :
    respond rc ra rb (onPort p u) = rerouted p (packWord rc ra rb) s (respond rc ra rb u) := by
  have ha' : (onPort p s).audioOut = (onPort p u).audioOut := ha.symm
  have hc' : (onPort p s).ctrlOut = (onPort p u).ctrlOut := hc.symm
  rw [respond_eq, respond_eq, rerouted, audioAfter, ctrlAfter, ha', hc']
  rfl

theorem respond_prepareWith_onPort (C : Carrier F32) (n : Nat) (sr : F32) (p : Port) (s : State) :
    respond 0x00 (zext32 n) 0 (prepareWith C n sr (onPort p s))
      = rerouted p (packWord 0x00 (zext32 n) 0) s (respond 0x00 (zext32 n) 0 (prepareWith C n sr s)) :=
  respond_onPort (u := prepareWith C n sr s) _ _ _ p rfl rfl

theorem frameFinish_onPort (C : Carrier F32) (inL inR yL yR : F32) (p : Port) (s : State) :
    frameFinish C inL inR yL yR (framedRams C inL inR (onPort p s))
      = rerouted p (packWord 0x00 (enc32 (frameOut C .left inL yL s)) (enc32 (frameOut C .right inR yR s))) s
          (frameFinish C inL inR yL yR (framedRams C inL inR s)) := by
  rw [frameFinish_eq, frameFinish_eq]
  rfl

/-! ### Every command -/

theorem responded_refuse (e : ErrorCode) (op : BitVec 8) (info : Word32) (s : State) :
    Responded s (refuse e op info s) (packWord e.code (zext32 op.toNat) info) :=
  ⟨refuse_audioOut e op info s, refuse_ctrlOut e op info s⟩

/-- THE PORT ROUTES THE RESPONSE ALONE: a command that answers `rw` answers it from every port, with the same next state
but for the port and the two response streams (60_exceptions R270). -/
theorem exec_onPort {i : Instr} {s t : State} (h : exec i s = .next t) (p : Port) :
    ∃ rw, Responded s t rw ∧ exec i (onPort p s) = .next (rerouted p rw s t) := by
  cases exec_cases h with
  | refused e info hc ht =>
    subst ht
    exact ⟨_, responded_refuse .., by rw [(hc.onPort p).exec_eq, refuse_onPort]⟩
  | stored q a hi hl ht =>
    subst hi ht
    have ha := writeParam_audioOut q a s
    have hc := writeParam_ctrlOut q a s
    refine ⟨_, (responded_respond _ _ _ _).of_streams (writeParam_port q a s) ha hc, ?_⟩
    rw [exec_setInstr, if_pos hl, writeParam_onPort, respond_onPort _ _ _ p ha hc]
  | got q hi ht =>
    subst hi ht
    refine ⟨_, responded_respond .., ?_⟩
    rw [exec_getInstr, readParam_onPort, respond_onPort _ _ _ p rfl rfl]
  | gotStatus hi ht =>
    subst hi ht
    exact ⟨_, responded_respond .., congrArg _ (respond_onPort _ _ _ p rfl rfl)⟩
  | preparedFirst sr bs hi hl hu hf ht =>
    subst hi ht
    exact ⟨_, (responded_respond _ _ _ _).of_streams rfl rfl rfl,
      (prepare_first (s := onPort p s) hl hu hf).trans (congrArg _ (respond_prepareWith_onPort ..))⟩
  | preparedAgain sr bs hi hl hu ht =>
    subst hi ht
    exact ⟨_, (responded_respond _ _ _ _).of_streams rfl rfl rfl,
      (prepare_later (s := onPort p s) hl hu).trans (congrArg _ (respond_prepareWith_onPort ..))⟩
  | framed inL inR yL yR hi hu hb hw hL hR ht =>
    subst hi ht
    rw [← frameDelayed_onPort _ _ _ _ p] at hL hR
    exact ⟨_, (responded_frameFinish _ inL inR yL yR _).of_streams rfl rfl rfl,
      (frame_of_delayed (s := onPort p s) hu hw hb hL hR).trans (congrArg _ (frameFinish_onPort ..))⟩

/-- Settles O11: the response of the command is the one that the other port would be sent. -/
theorem portOnlyRoutesTheResponse : Obligations.PortOnlyRoutesTheResponse := by
  intro i s t p h
  obtain ⟨rw, ⟨haudio, hctrl⟩, hother⟩ := exec_onPort h p
  refine ⟨rw, ?_, hother⟩
  change t = { t with audioOut := audioAfter s rw, ctrlOut := ctrlAfter s rw }
  rw [← haudio, ← hctrl]

end Sys2Proof.Machine
end

section
/-! SUPPORT. The capacity of the RAMs: which products of the first PREPARE give a length that does not fit, and that those are the one cause of `E_CAPACITY` (45_frame_and_prepare R220, R221; 60_exceptions R256). Settles O21. -/

namespace Sys2Proof.Machine

/-! ### The product of a first PREPARE -/

/-- The product of finite numbers is finite or an infinity, no NaN (00_scope R7). -/
theorem isFin_or_isInf_fmul32 (n : Nat) {x y : F32} (hx : isFin x = true) (hy : isFin y = true) :
    isFin (fmul32 n x y) = true ∨ isInf (fmul32 n x y) = true := by
  rw [isFin_iff, isInf_iff, fmul32_of_isFin n hx hy, magBits_packSign _ (roundMag_lt _ _)]
  exact Nat.lt_or_eq_of_le (roundMag_le_inf _ _)

/-- The pattern of an infinity, read as a finite one, stands for `2^128` (00_scope R7). -/
theorem ffloor32_of_isInf {x : F32} (h : isInf x = true) : ffloor32 x = 2 ^ 128 := by
  rw [ffloor32, units_eq_unitsOf, (isInf_iff x).mp h]
  decide

/-- An infinity is no index of a buffer (00_scope R6). -/
theorem finIdx32_of_isInf {x : F32} (h : isInf x = true) {L : Nat} (hL : L ≤ 2 ^ 128) : finIdx32 x L = false := by
  rw [Bool.eq_false_iff]
  intro hidx
  have hlt := ffloor32_lt hidx
  rw [ffloor32_of_isInf h] at hlt
  omega

/-! ### The lengths that do not fit -/

/-- The product `x` of a first PREPARE gives no length for RAMs of `depth` words (45 R221, 60_exceptions R256). -/
def NoRoomFor (depth : Nat) (x : F32) : Prop :=
  isInf x = true ∨ (isFin x = true ∧ (ffloor32 x = 0 ∨ depth < ffloor32 x))

theorem lenFits_eq_false_iff {cfg : Config} {n : Nat} : lenFits cfg n = false ↔ n < 1 ∨ cfg.ramDepth < n := by
  rw [← Bool.not_eq_true, lenFits_iff]
  omega

/-- NEWLEN of a product that is no index up to `RAM_DEPTH` is the length above it (45 R221). -/
theorem newLen_of_not_finIdx {n : Nat} {cfg : Config} {sr : F32}
    (h : finIdx32 (fmul32 n sr cfg.maxd) (cfg.ramDepth + 1) = false) : newLen Carrier.f32 n cfg sr = cfg.ramDepth + 1 :=
  if_neg (Bool.eq_false_iff.mp h)

/-- The length of a finite product without a sign fits when its integer part does (45 R220, R221). -/
theorem lenFits_newLen_of_isFin {n : Nat} {cfg : Config} {sr : F32} (hfin : isFin (fmul32 n sr cfg.maxd) = true)
    (hsign : signBit (fmul32 n sr cfg.maxd) = false) :
    lenFits cfg (newLen Carrier.f32 n cfg sr) = lenFits cfg (ffloor32 (fmul32 n sr cfg.maxd)) := by
  rcases Nat.lt_or_ge cfg.ramDepth (ffloor32 (fmul32 n sr cfg.maxd)) with hbig | hfit
  · have hidx : finIdx32 (fmul32 n sr cfg.maxd) (cfg.ramDepth + 1) = false := by
      rw [finIdx32_of_finite hfin hsign, decide_eq_false_iff_not]
      omega
    rw [newLen_of_not_finIdx hidx, lenFits_eq_false_iff.mpr (.inr hbig)]
    exact lenFits_eq_false_iff.mpr (.inr (Nat.lt_succ_self _))
  · rw [newLen_of_fits hfin hsign hfit]

/-- WHICH RATES DO NOT FIT: in a legal configuration, those whose product is infinite or has an integer part outside
`[1, RAM_DEPTH]` (45 R221, 60_exceptions R256). -/
theorem lenFits_newLen_eq_false_iff {cfg : Config} {sr : F32} (hcfg : ConfigOk cfg) (hsr : rateOfSampleLegal sr = true)
    (n : Nat) : lenFits cfg (newLen Carrier.f32 n cfg sr) = false ↔ NoRoomFor cfg.ramDepth (fmul32 n sr cfg.maxd) := by
  obtain ⟨hsr0, hsrFin⟩ := Bool.and_eq_true_iff.mp hsr
  rcases isFin_or_isInf_fmul32 n hsrFin hcfg.maxd_finite with hfin | hinf
  · have hsign : signBit (fmul32 n sr cfg.maxd) = false :=
      signBit_fmul32_of_pos n hsrFin hcfg.maxd_finite (value_pos_of_zero_flt hsr0)
        (value_pos_of_zero_flt hcfg.maxd_positive)
    rw [lenFits_newLen_of_isFin hfin hsign, lenFits_eq_false_iff, Nat.lt_one_iff, NoRoomFor, isInf_of_isFin hfin, hfin]
    simp only [Bool.false_eq_true, false_or, true_and]
  · have hdepth := hcfg.depth_le
    have hidx := finIdx32_of_isInf hinf (L := cfg.ramDepth + 1) (by omega)
    rw [newLen_of_not_finIdx hidx]
    exact iff_of_true (lenFits_eq_false_iff.mpr (.inr (Nat.lt_succ_self _))) (.inl hinf)

/-- Settles O21: a length that does not fit is the one cause of `E_CAPACITY`. -/
theorem capacityFailureIsRefused : Obligations.CapacityFailureIsRefused := by
  refine ⟨?_, fun i s t h hs ht => ?_⟩
  · rintro s sr bs hcfg hu hsr _ rfl hroom
    have hfit := (lenFits_newLen_eq_false_iff hcfg hsr s.nanDraws).mpr hroom
    rw [(Refused.noRoom sr bs rfl (srLegal_eq sr ▸ hsr) hu hfit).exec_eq, refuse_eq]
    rfl
  · obtain ⟨info, hc⟩ := refused_of_flag_set (e := .capacity) h hs ht
    cases hc with
    | noRoom sr bs hi hl hu hfit =>
      have hsr : rateOfSampleLegal sr = true := srLegal_eq sr ▸ hl
      refine ⟨hu, sr, bs, hi, hsr, lenFits_eq_false_iff.mp hfit, ?_⟩
      rintro hcfg _ rfl
      exact (lenFits_newLen_eq_false_iff hcfg hsr s.nanDraws).mp hfit

end Sys2Proof.Machine
end

section
/-! SUPPORT. Hardware reset, the single wrap of a read position in exact arithmetic, and the bound of the LFO phase: a quotient of numbers in order, and one subtraction once the sum exceeds 1 (10_state R21, R45; 41_delay_buffer R151; 42_lfo R174; 70_reset_and_hazards R290, R312, R315). Settles O8, O32 and O48. -/

namespace Sys2Proof.Machine

/-! ### Hardware reset -/

/-- A requested hardware reset is answered before any command is taken (70 R290). -/
theorem step_of_resetPin {s : State} (h : s.resetPin = true) : step s = .next (hardwareReset s) := if_pos h

/-- Settles O8: with `LEN` back at 0 every index lies at or above it. -/
theorem hardwareResetRestoresResetValues : Obligations.HardwareResetRestoresResetValues := by
  intro s hpin
  refine ⟨step_of_resetPin hpin, fun c i => memRead_of_ge ?_⟩
  rw [hardwareReset_len]
  exact Nat.zero_le i

/-! ### One wrap in exact arithmetic -/

/-- READPOS over the reals: the cursor less the delay, moved up by `LEN` once if it is negative (41 R151). -/
theorem readPos_exact (n wh len : Nat) (d : ℝ) :
    readPos Carrier.exact n wh len d = if (wh : ℝ) - d < 0 then wh - d + len else wh - d := by
  have hzero : Carrier.exact.zero = 0 := by norm_num [Carrier.zero, Carrier.exact]
  have htree : readPos Carrier.exact n wh len d =
      if decide ((wh : ℝ) - d < Carrier.exact.zero) = true then wh - d + len else wh - d := rfl
  simp only [htree, hzero, decide_eq_true_eq]

/-- A delay up to the cursor does not wrap (41 R151). -/
theorem readPos_exact_of_le {n wh len : Nat} {d : ℝ} (h : d ≤ wh) : readPos Carrier.exact n wh len d = wh - d := by
  rw [readPos_exact, if_neg (not_lt.mpr (sub_nonneg.mpr h))]

/-- A delay above the cursor wraps once (41 R151). -/
theorem readPos_exact_of_lt {n wh len : Nat} {d : ℝ} (h : wh < d) :
    readPos Carrier.exact n wh len d = wh - d + len := by
  rw [readPos_exact, if_pos (sub_neg.mpr h)]

/-- Settles O32: a delay up to the cursor does not wrap, and `LEN` is added once to the position of any longer one. -/
theorem singleWrapSufficesExactly : Obligations.SingleWrapSufficesExactly := by
  intro n wh len d hwh
  have hcursor : (wh : ℝ) < len := Nat.cast_lt.mpr hwh
  have hlen : (0 : ℝ) ≤ len := Nat.cast_nonneg len
  refine ⟨fun hd0 hdlen => ?inside, fun hd => ?whole, fun hd => ?beyond⟩
  case inside =>
    rcases le_or_gt d wh with hle | hlt
    · rw [readPos_exact_of_le hle]
      exact ⟨sub_nonneg.mpr hle, by linarith⟩
    · rw [readPos_exact_of_lt hlt]
      exact ⟨by linarith, by linarith⟩
  case whole =>
    rw [readPos_exact_of_lt (hd ▸ hcursor), hd, sub_add_cancel]
  case beyond =>
    rw [readPos_exact_of_lt (by linarith)]
    linarith

/-! ### The phase increment -/

/-- A positive finite number divided by itself is one (00_scope R7). -/
theorem fdiv32_self (n : Nat) {y : F32} (hy : isFin y = true) (hpos : 0 < value y) : fdiv32 n y y = 0x3F800000 := by
  have hone : units 0x3F800000 = 2 ^ 149 := by decide
  have hround := packSign_roundMag_units (x := 0x3F800000) (by decide) (units_pos_of_value_pos hpos)
  rw [fdiv32_eq_scaled n hy hy hpos, scaled, signBit_of_value_pos hpos, mul_comm, ← hone]
  exact hround

/-- A number between zero and a finite divisor gives a quotient in `[0, 1]`: rounding does not take it past the quotient of
the divisor by itself (42 R174, 70 R315). -/
theorem unitLegal_fdiv32 (n : Nat) {x y : F32} (hy : isFin y = true) (hpos : 0 < value y) (h0 : 0 ≤ value x)
    (hxy : value x ≤ value y) : unitLegal (fdiv32 n x y) = true := by
  have hone : fdiv32 n y y = 0x3F800000 := fdiv32_self n hy hpos
  have hordered : OrderedUpTo y x y := ⟨hy, h0, hxy, le_rfl⟩
  have hquotients := hordered.fdiv32_right hy hpos (l := n) (by rw [hone]; decide) n n
  rw [hone] at hquotients
  obtain ⟨-, hq0, hq1, -⟩ := hquotients
  exact (unitLegal_iff_value _).mpr ⟨hq0, value_one ▸ hq1⟩

/-- The increment of a legal rate that does not exceed a legal sample rate is in `[0, 1]` (70 R315). -/
theorem unitLegal_phaseIncrement (n : Nat) {rt sr : F32} (hrt : rateLegal rt = true) (hsr : rateOfSampleLegal sr = true)
    (hle : fle32 rt sr = true) : unitLegal (fdiv32 n rt sr) = true := by
  obtain ⟨hsr0, hsrFin⟩ := Bool.and_eq_true_iff.mp hsr
  obtain ⟨hmin, -⟩ := Bool.and_eq_true_iff.mp hrt
  obtain ⟨-, -, hrt0⟩ := fle32_iff_not_nan.mp hmin
  obtain ⟨-, -, hvalue⟩ := fle32_iff_not_nan.mp hle
  have hminPos : 0 ≤ value 0x3DCCCCCD#32 := by decide
  exact unitLegal_fdiv32 n hsrFin (value_pos_of_zero_flt hsr0) (hminPos.trans hrt0) hvalue

/-! ### The accumulator -/

/-- The sum of two numbers in `[0, 1]` is a number in `[0, 2]`. -/
theorem value_fadd32_of_unitLegal (n : Nat) {a b : F32} (ha : unitLegal a = true) (hb : unitLegal b = true) :
    isFin (fadd32 n a b) = true ∧ 0 ≤ value (fadd32 n a b) ∧ value (fadd32 n a b) ≤ 2 ^ 150 := by
  obtain ⟨ha0, ha1⟩ := (unitLegal_iff_value a).mp ha
  obtain ⟨hb0, hb1⟩ := (unitLegal_iff_value b).mp hb
  obtain ⟨hs0, hs2⟩ := value_fadd32_between n (c := 0x40000000) (isFin_of_unitLegal ha) (isFin_of_unitLegal hb)
    (by decide) (by omega) (by rw [value_two]; omega)
  exact ⟨isFin_of_value_between (by decide) hs0 hs2, hs0, value_two ▸ hs2⟩

/-- A finite number exceeds 1 when its value exceeds that of 1 (00_scope R7). -/
theorem fgt32_one_iff {x : F32} (hx : isFin x = true) : fgt32 x 0x3F800000 = true ↔ 2 ^ 149 < value x := by
  have hnan : isNan 0x3F800000 = false := by decide
  rw [fgt32, flt32_iff, value_one]
  exact ⟨fun ⟨_, _, h⟩ => h, fun h => ⟨hnan, isNan_of_isFin hx, h⟩⟩

/-- A phase and an increment in `[0, 1]` give a next phase in `[0, 1]`: 1 is subtracted once the sum exceeds 1 (42 R174). -/
theorem unitLegal_phaseAdv (n : Nat) {ph sr rt : F32} (hph : unitLegal ph = true)
    (hinc : unitLegal (fdiv32 n rt sr) = true) : unitLegal (phaseAdv Carrier.f32 n ph sr rt) = true := by
  obtain ⟨hfin, hs0, hs2⟩ := value_fadd32_of_unitLegal (n + 1) hph hinc
  rw [phaseAdv_f32]
  split
  case isTrue hgt => exact unitLegal_fsub32_one (n + 2) hfin ((fgt32_one_iff hfin).mp hgt).le hs2
  case isFalse hle =>
    rw [fgt32_one_iff hfin, not_lt] at hle
    exact (unitLegal_iff_value _).mpr ⟨hs0, hle⟩

/-! ### The phase register over a command -/

/-- What a command can do to `PHASE` (10_state R21): keep it, clear it, or advance it by the rate and the sample rate of a
prepared CORE. -/
theorem exec_phase_cases {i : Instr} {s t : State} (h : exec i s = .next t) :
    t.phase = s.phase ∨ t.phase = 0x00000000#32 ∨
    (s.st ≠ .unprepared ∧ t.phase = phaseAdv Carrier.f32 (s.nanDraws + 24) s.phase s.sr s.pRate) := by
  cases exec_cases h with
  | refused e info _ ht => exact .inl (by rw [ht, refuse_phase])
  | stored p a _ _ ht => exact .inl (by rw [ht, respond_phase, writeParam_phase])
  | got p _ ht => exact .inl (by rw [ht, respond_phase])
  | gotStatus _ ht => exact .inl (by rw [ht, respond_phase])
  | preparedFirst sr bs _ _ _ _ ht => exact .inr (.inl (by rw [ht, respond_phase, prepareWith_phase, zero_eq]))
  | preparedAgain sr bs _ _ _ ht => exact .inr (.inl (by rw [ht, respond_phase, prepareWith_phase, zero_eq]))
  | framed inL inR yL yR _ hu _ _ _ _ ht =>
    exact .inr (.inr ⟨hu, by rw [ht, frameFinish_framedRams_registers]⟩)

/-- Settles O48: a completed frame alone advances the phase, and its increment is in `[0, 1]`. -/
theorem phaseStaysInUnitInterval : Obligations.PhaseStaysInUnitInterval := by
  intro i s t hs hphase hrate h
  unfold phaseInUnit at *
  obtain hkept | hcleared | ⟨hu, hadvanced⟩ := exec_phase_cases h
  · rwa [hkept]
  · rw [hcleared]
    decide
  · rw [hadvanced]
    exact unitLegal_phaseAdv _ hphase
      (unitLegal_phaseIncrement _ hs.params.rate (hs.lifecycle.rate_legal hu) (hrate hu))

end Sys2Proof.Machine
end
